-- ==== Sys2Proof/Word.lean ====
section
/-! DEFINITION. The plain word types of CORE (spec/00_scope.md R10, spec/30_encoding.md R60, R62, R63).
Only what the spec treats as bits is a bit vector: the command word, the immediate, the status register, the
response ports and the bytes of the text buffer. Limbs are mathematical integers in `[0, RADIX)` (R11), because
their width `W` is a parameter of the machine. -/

namespace Sys2Proof

/-- One byte of `TBUF` (R31), also one character code (R44). -/
abbrev Byte := BitVec 8

/-- `cmd_word`, 32 bits (R60, R62). -/
abbrev CmdWord := BitVec 32

/-- `cmd_imm`, 64 bits (R60, R62). -/
abbrev Imm := BitVec 64

/-- A text-buffer address as a command carries it: 32 bits (R40, R65). -/
abbrev Addr := BitVec 32

/-- A register number: `NREG = 16`, fixed (R5, R21). -/
abbrev Reg := Fin 16

end Sys2Proof
end

