-- ==== Sys2Proof/Syntax.lean ====
section
/-! DEFINITION. The 37 commands of rule R66 (spec/30_encoding.md), one constructor per row of
spec/opcode_table.json, in the table's order, with the operands of its format (R64) and its immediate already
split as rule R65 says. -/

namespace Sys2Proof

/-- One command of CORE. Operands stand in the order rule R71 writes them. -/
inductive Instr where
  /-- R104: load the 64-bit signed immediate. -/
  | ldi (rd : Reg) (imm : Imm)
  /-- R105: copy. -/
  | mov (rd rs1 : Reg)
  /-- R106: end of a value's life. -/
  | drop (rd : Reg)
  /-- R107: absolute value. -/
  | abs (rd rs1 : Reg)
  /-- R108 -/
  | iszero (rs1 : Reg)
  /-- R109 -/
  | isneg (rs1 : Reg)
  /-- R110: limb count. -/
  | size (rs1 : Reg)
  /-- R111: leading zero bits of the most significant limb. -/
  | clz (rs1 : Reg)
  /-- R112 -/
  | ceq (rs1 rs2 : Reg)
  /-- R113 -/
  | cne (rs1 rs2 : Reg)
  /-- R114 -/
  | clt (rs1 rs2 : Reg)
  /-- R115 -/
  | cle (rs1 rs2 : Reg)
  /-- R116 -/
  | cgt (rs1 rs2 : Reg)
  /-- R117 -/
  | cge (rs1 rs2 : Reg)
  /-- R144 -/
  | add (rd rs1 rs2 : Reg)
  /-- R145 -/
  | sub (rd rs1 rs2 : Reg)
  /-- R146 -/
  | neg (rd rs1 : Reg)
  /-- R147 -/
  | inc (rd rs1 : Reg)
  /-- R148 -/
  | dec (rd rs1 : Reg)
  /-- R167 -/
  | mul (rd rs1 rs2 : Reg)
  /-- R169: the exponent is an unsigned 64-bit immediate. -/
  | pow (rd rs1 : Reg) (e : Imm)
  /-- R193: quotient to `rd`, remainder to `rd2`. -/
  | divmod (rd rd2 rs1 rs2 : Reg)
  /-- R194 -/
  | div (rd rs1 rs2 : Reg)
  /-- R195 -/
  | mod (rd rs1 rs2 : Reg)
  /-- R213: the shift amount is an unsigned 64-bit immediate. -/
  | shl (rd rs1 : Reg) (s : Imm)
  /-- R214 -/
  | shr (rd rs1 : Reg) (s : Imm)
  /-- R216 -/
  | and (rd rs1 rs2 : Reg)
  /-- R217 -/
  | or (rd rs1 rs2 : Reg)
  /-- R218 -/
  | xor (rd rs1 rs2 : Reg)
  /-- R219 -/
  | not (rd rs1 : Reg)
  /-- R236: the numeral stands in `len` bytes from `addr`. -/
  | parse (rd : Reg) (addr len : Addr)
  /-- R237 -/
  | parses (rd : Reg) (addr len : Addr)
  /-- R238 -/
  | format (rs1 : Reg) (addr : Addr)
  /-- R239 -/
  | tbw (addr : Addr) (byte : Byte)
  /-- R240 -/
  | tbr (addr : Addr)
  /-- R260 -/
  | rdsr
  /-- R261 -/
  | clrsr (mask : BitVec 8)
  deriving DecidableEq, Repr

end Sys2Proof
end

