-- ==== Sys2Proof/WellFormed.lean ====
section
/-! DEFINITION. Which commands are well formed. Register numbers and immediates are bounded by their types, so one
check is left: DIVMOD's two destinations differ (spec/30_encoding.md R67(e), R73). -/

namespace Sys2Proof

/-- The one check a command's operands must pass (R73); every other combination of register numbers is allowed
(R73, R304). -/
def Instr.wellFormed : Instr → Bool
  | .ldi _ _ => true
  | .mov _ _ => true
  | .drop _ => true
  | .abs _ _ => true
  | .iszero _ => true
  | .isneg _ => true
  | .size _ => true
  | .clz _ => true
  | .ceq _ _ => true
  | .cne _ _ => true
  | .clt _ _ => true
  | .cle _ _ => true
  | .cgt _ _ => true
  | .cge _ _ => true
  | .add _ _ _ => true
  | .sub _ _ _ => true
  | .neg _ _ => true
  | .inc _ _ => true
  | .dec _ _ => true
  | .mul _ _ _ => true
  | .pow _ _ _ => true
  | .divmod rd rd2 _ _ => rd != rd2
  | .div _ _ _ => true
  | .mod _ _ _ => true
  | .shl _ _ _ => true
  | .shr _ _ _ => true
  | .and _ _ _ => true
  | .or _ _ _ => true
  | .xor _ _ _ => true
  | .not _ _ => true
  | .parse _ _ _ => true
  | .parses _ _ _ => true
  | .format _ _ => true
  | .tbw _ _ => true
  | .tbr _ => true
  | .rdsr => true
  | .clrsr _ => true

/-- A command a conforming host can issue without ILLCMD. -/
abbrev Instr.WellFormed (i : Instr) : Prop := i.wellFormed = true

end Sys2Proof
end

