-- ==== Sys2Proof/Decode.lean ====
section
/-! DEFINITION. The command encoding of spec/30_encoding.md: opcode map (R66), formats and word masks (R64),
immediates and their masks (R65), strict decode (R67, R73), and the encoder. Decoding is total on the 96 bits of a
command and refuses by name. -/

namespace Sys2Proof

/-- The 37 assigned opcodes, in the order of rule R66. -/
inductive Op where
  | ldi | mov | drop | abs | iszero | isneg | size | clz
  | ceq | cne | clt | cle | cgt | cge
  | add | sub | neg | inc | dec
  | mul | pow
  | divmod | div | mod
  | shl | shr | and | or | xor | not
  | parse | parses | format | tbw | tbr
  | rdsr | clrsr
  deriving DecidableEq, Repr

/-- The eleven formats of rule R64. -/
inductive Format where
  | r3 | r2 | r4 | ri | di | d | s1 | s2 | si | i | z
  deriving DecidableEq, Repr

/-- Why a command is illegal: the five clauses of rule R67. -/
inductive DecodeError where
  /-- R67(a). -/
  | unassignedOpcode
  /-- R67(b). -/
  | reservedBits
  /-- R67(c). -/
  | unusedField
  /-- R67(d). -/
  | immediateBits
  /-- R67(e). -/
  | sameDestination
  deriving DecidableEq, Repr

/-- Every assigned opcode once. -/
def Op.all : List Op :=
  [.ldi, .mov, .drop, .abs, .iszero, .isneg, .size, .clz,
   .ceq, .cne, .clt, .cle, .cgt, .cge,
   .add, .sub, .neg, .inc, .dec, .mul, .pow, .divmod, .div, .mod,
   .shl, .shr, .and, .or, .xor, .not,
   .parse, .parses, .format, .tbw, .tbr, .rdsr, .clrsr]

/-- The opcode byte (R66). -/
def Op.code : Op → BitVec 8
  | .ldi => 0x01#8
  | .mov => 0x02#8
  | .drop => 0x03#8
  | .abs => 0x04#8
  | .iszero => 0x05#8
  | .isneg => 0x06#8
  | .size => 0x07#8
  | .clz => 0x08#8
  | .ceq => 0x09#8
  | .cne => 0x0A#8
  | .clt => 0x0B#8
  | .cle => 0x0C#8
  | .cgt => 0x0D#8
  | .cge => 0x0E#8
  | .add => 0x10#8
  | .sub => 0x11#8
  | .neg => 0x12#8
  | .inc => 0x13#8
  | .dec => 0x14#8
  | .mul => 0x20#8
  | .pow => 0x21#8
  | .divmod => 0x30#8
  | .div => 0x31#8
  | .mod => 0x32#8
  | .shl => 0x40#8
  | .shr => 0x41#8
  | .and => 0x42#8
  | .or => 0x43#8
  | .xor => 0x44#8
  | .not => 0x45#8
  | .parse => 0x50#8
  | .parses => 0x51#8
  | .format => 0x52#8
  | .tbw => 0x53#8
  | .tbr => 0x54#8
  | .rdsr => 0x60#8
  | .clrsr => 0x61#8

/-- The mnemonic, as rule R66 and spec/opcode_table.json spell it. -/
def Op.mnemonic : Op → String
  | .ldi => "LDI"
  | .mov => "MOV"
  | .drop => "DROP"
  | .abs => "ABS"
  | .iszero => "ISZERO"
  | .isneg => "ISNEG"
  | .size => "SIZE"
  | .clz => "CLZ"
  | .ceq => "CEQ"
  | .cne => "CNE"
  | .clt => "CLT"
  | .cle => "CLE"
  | .cgt => "CGT"
  | .cge => "CGE"
  | .add => "ADD"
  | .sub => "SUB"
  | .neg => "NEG"
  | .inc => "INC"
  | .dec => "DEC"
  | .mul => "MUL"
  | .pow => "POW"
  | .divmod => "DIVMOD"
  | .div => "DIV"
  | .mod => "MOD"
  | .shl => "SHL"
  | .shr => "SHR"
  | .and => "AND"
  | .or => "OR"
  | .xor => "XOR"
  | .not => "NOT"
  | .parse => "PARSE"
  | .parses => "PARSES"
  | .format => "FORMAT"
  | .tbw => "TBW"
  | .tbr => "TBR"
  | .rdsr => "RDSR"
  | .clrsr => "CLRSR"

/-- The format of each command (R64, R66). -/
def Op.fmt : Op → Format
  | .ldi => .di
  | .mov => .r2
  | .drop => .d
  | .abs => .r2
  | .iszero => .s1
  | .isneg => .s1
  | .size => .s1
  | .clz => .s1
  | .ceq => .s2
  | .cne => .s2
  | .clt => .s2
  | .cle => .s2
  | .cgt => .s2
  | .cge => .s2
  | .add => .r3
  | .sub => .r3
  | .neg => .r2
  | .inc => .r2
  | .dec => .r2
  | .mul => .r3
  | .pow => .ri
  | .divmod => .r4
  | .div => .r3
  | .mod => .r3
  | .shl => .ri
  | .shr => .ri
  | .and => .r3
  | .or => .r3
  | .xor => .r3
  | .not => .r2
  | .parse => .di
  | .parses => .di
  | .format => .si
  | .tbw => .i
  | .tbr => .i
  | .rdsr => .z
  | .clrsr => .i

/-- The word mask of a format: a 1 in every bit that is opcode or must be zero (R64). -/
def Format.wordMask : Format → CmdWord
  | .r3 => 0xFFF000FF#32
  | .r2 => 0xFFFF00FF#32
  | .r4 => 0xFF0000FF#32
  | .ri => 0xFFFF00FF#32
  | .di => 0xFFFFF0FF#32
  | .d => 0xFFFFF0FF#32
  | .s1 => 0xFFFF0FFF#32
  | .s2 => 0xFFF00FFF#32
  | .si => 0xFFFF0FFF#32
  | .i => 0xFFFFFFFF#32
  | .z => 0xFFFFFFFF#32

/-- The imm mask of a command: a 1 in every bit of the immediate that must be zero (R65). -/
def Op.immMask : Op → Imm
  | .ldi | .pow | .shl | .shr | .parse | .parses => 0x0000000000000000#64
  | .format | .tbr => 0xFFFFFFFF00000000#64
  | .tbw => 0xFFFFFF0000000000#64
  | .clrsr => 0xFFFFFFFFFFFFFF00#64
  | .mov | .drop | .abs | .iszero | .isneg | .size | .clz | .ceq | .cne | .clt | .cle | .cgt | .cge
  | .add | .sub | .neg | .inc | .dec | .mul | .divmod | .div | .mod | .and | .or | .xor | .not
  | .rdsr => 0xFFFFFFFFFFFFFFFF#64

/-- The opcode an opcode byte names, none if unassigned (R66, R67(a)). -/
def Op.ofCode (c : BitVec 8) : Option Op := Op.all.find? fun o => o.code == c

/-! ### Fields of the word and of the immediate (R63, R65) -/

/-- The 4-bit register field whose lowest bit is `lo` (R63). -/
def regField (word : CmdWord) (lo : Nat) : Reg := (word.extractLsb' lo 4).toFin

/-- The operand fields of a command; a field its format does not use is 0 (R63, R64). -/
structure Fields where
  rd : Reg := 0
  rs1 : Reg := 0
  rs2 : Reg := 0
  rd2 : Reg := 0
  imm : Imm := 0#64
  deriving DecidableEq, Repr

/-- The fields at their places in the word (R63). -/
def fieldsOf (word : CmdWord) (imm : Imm) : Fields where
  rd := regField word 8
  rs1 := regField word 12
  rs2 := regField word 16
  rd2 := regField word 20
  imm := imm

/-- `cmd_imm[31:0]`, the address of PARSE, PARSES, FORMAT, TBW and TBR (R65). -/
def immAddr (imm : Imm) : Addr := imm.extractLsb' 0 32

/-- `cmd_imm[63:32]`, the length of PARSE and PARSES (R65). -/
def immLen (imm : Imm) : Addr := imm.extractLsb' 32 32

/-- `cmd_imm[39:32]`, the byte of TBW (R65). -/
def immByte (imm : Imm) : Byte := imm.extractLsb' 32 8

/-- `cmd_imm[7:0]`, the mask of CLRSR (R65). -/
def immLow8 (imm : Imm) : BitVec 8 := imm.extractLsb' 0 8

/-- The command an opcode and its fields name, with the operands of rule R66. -/
def Op.build (o : Op) (f : Fields) : Instr :=
  match o with
  | .ldi => .ldi f.rd f.imm
  | .mov => .mov f.rd f.rs1
  | .drop => .drop f.rd
  | .abs => .abs f.rd f.rs1
  | .iszero => .iszero f.rs1
  | .isneg => .isneg f.rs1
  | .size => .size f.rs1
  | .clz => .clz f.rs1
  | .ceq => .ceq f.rs1 f.rs2
  | .cne => .cne f.rs1 f.rs2
  | .clt => .clt f.rs1 f.rs2
  | .cle => .cle f.rs1 f.rs2
  | .cgt => .cgt f.rs1 f.rs2
  | .cge => .cge f.rs1 f.rs2
  | .add => .add f.rd f.rs1 f.rs2
  | .sub => .sub f.rd f.rs1 f.rs2
  | .neg => .neg f.rd f.rs1
  | .inc => .inc f.rd f.rs1
  | .dec => .dec f.rd f.rs1
  | .mul => .mul f.rd f.rs1 f.rs2
  | .pow => .pow f.rd f.rs1 f.imm
  | .divmod => .divmod f.rd f.rd2 f.rs1 f.rs2
  | .div => .div f.rd f.rs1 f.rs2
  | .mod => .mod f.rd f.rs1 f.rs2
  | .shl => .shl f.rd f.rs1 f.imm
  | .shr => .shr f.rd f.rs1 f.imm
  | .and => .and f.rd f.rs1 f.rs2
  | .or => .or f.rd f.rs1 f.rs2
  | .xor => .xor f.rd f.rs1 f.rs2
  | .not => .not f.rd f.rs1
  | .parse => .parse f.rd (immAddr f.imm) (immLen f.imm)
  | .parses => .parses f.rd (immAddr f.imm) (immLen f.imm)
  | .format => .format f.rs1 (immAddr f.imm)
  | .tbw => .tbw (immAddr f.imm) (immByte f.imm)
  | .tbr => .tbr (immAddr f.imm)
  | .rdsr => .rdsr
  | .clrsr => .clrsr (immLow8 f.imm)

/-- Strict decode of a 96-bit command: the clauses of rule R67 in their order, else the one command the bits are a
well-formed instance of. -/
def decode (word : CmdWord) (imm : Imm) : Except DecodeError Instr :=
  match Op.ofCode (word.extractLsb' 0 8) with
  | none => .error .unassignedOpcode
  | some o =>
    if word.extractLsb' 24 8 ≠ 0#8 then .error .reservedBits
    else if word &&& o.fmt.wordMask ≠ o.code.setWidth 32 then .error .unusedField
    else if imm &&& o.immMask ≠ 0#64 then .error .immediateBits
    else if o = .divmod ∧ regField word 8 = regField word 20 then .error .sameDestination
    else .ok (o.build (fieldsOf word imm))

/-! ### The encoder -/

/-- The opcode of a command (R66). -/
def Instr.op : Instr → Op
  | .ldi _ _ => .ldi
  | .mov _ _ => .mov
  | .drop _ => .drop
  | .abs _ _ => .abs
  | .iszero _ => .iszero
  | .isneg _ => .isneg
  | .size _ => .size
  | .clz _ => .clz
  | .ceq _ _ => .ceq
  | .cne _ _ => .cne
  | .clt _ _ => .clt
  | .cle _ _ => .cle
  | .cgt _ _ => .cgt
  | .cge _ _ => .cge
  | .add _ _ _ => .add
  | .sub _ _ _ => .sub
  | .neg _ _ => .neg
  | .inc _ _ => .inc
  | .dec _ _ => .dec
  | .mul _ _ _ => .mul
  | .pow _ _ _ => .pow
  | .divmod _ _ _ _ => .divmod
  | .div _ _ _ => .div
  | .mod _ _ _ => .mod
  | .shl _ _ _ => .shl
  | .shr _ _ _ => .shr
  | .and _ _ _ => .and
  | .or _ _ _ => .or
  | .xor _ _ _ => .xor
  | .not _ _ => .not
  | .parse _ _ _ => .parse
  | .parses _ _ _ => .parses
  | .format _ _ => .format
  | .tbw _ _ => .tbw
  | .tbr _ => .tbr
  | .rdsr => .rdsr
  | .clrsr _ => .clrsr

/-- The operand fields of a command (R64, R65). -/
def Instr.fields : Instr → Fields
  | .ldi rd imm => { rd, imm }
  | .mov rd rs1 => { rd, rs1 }
  | .drop rd => { rd }
  | .abs rd rs1 => { rd, rs1 }
  | .iszero rs1 => { rs1 }
  | .isneg rs1 => { rs1 }
  | .size rs1 => { rs1 }
  | .clz rs1 => { rs1 }
  | .ceq rs1 rs2 => { rs1, rs2 }
  | .cne rs1 rs2 => { rs1, rs2 }
  | .clt rs1 rs2 => { rs1, rs2 }
  | .cle rs1 rs2 => { rs1, rs2 }
  | .cgt rs1 rs2 => { rs1, rs2 }
  | .cge rs1 rs2 => { rs1, rs2 }
  | .add rd rs1 rs2 => { rd, rs1, rs2 }
  | .sub rd rs1 rs2 => { rd, rs1, rs2 }
  | .neg rd rs1 => { rd, rs1 }
  | .inc rd rs1 => { rd, rs1 }
  | .dec rd rs1 => { rd, rs1 }
  | .mul rd rs1 rs2 => { rd, rs1, rs2 }
  | .pow rd rs1 imm => { rd, rs1, imm }
  | .divmod rd rd2 rs1 rs2 => { rd, rs1, rs2, rd2 }
  | .div rd rs1 rs2 => { rd, rs1, rs2 }
  | .mod rd rs1 rs2 => { rd, rs1, rs2 }
  | .shl rd rs1 imm => { rd, rs1, imm }
  | .shr rd rs1 imm => { rd, rs1, imm }
  | .and rd rs1 rs2 => { rd, rs1, rs2 }
  | .or rd rs1 rs2 => { rd, rs1, rs2 }
  | .xor rd rs1 rs2 => { rd, rs1, rs2 }
  | .not rd rs1 => { rd, rs1 }
  | .parse rd addr len => { rd, imm := len ++ addr }
  | .parses rd addr len => { rd, imm := len ++ addr }
  | .format rs1 addr => { rs1, imm := 0#32 ++ addr }
  | .tbw addr byte => { imm := (0#24 ++ byte) ++ addr }
  | .tbr addr => { imm := 0#32 ++ addr }
  | .rdsr => {}
  | .clrsr mask => { imm := 0#56 ++ mask }

/-- A register number as a 4-bit field. -/
def regBits (r : Reg) : BitVec 4 := BitVec.ofFin r

/-- The command word from its opcode and register fields, bits 31:24 zero (R63). -/
def packWord (code : BitVec 8) (f : Fields) : CmdWord :=
  0#8 ++ (regBits f.rd2 ++ (regBits f.rs2 ++ (regBits f.rs1 ++ (regBits f.rd ++ code))))

/-- The word and immediate of a command (R62 to R66). -/
def encode (i : Instr) : CmdWord × Imm := (packWord i.op.code i.fields, i.fields.imm)

/-- `cmd[95:0] = (cmd_imm, cmd_word)`, the command as one bit string (R62). -/
def commandBits (word : CmdWord) (imm : Imm) : BitVec 96 := imm ++ word

/-- The word of a command given as a number, bit 0 the least significant bit of the word, every bit from `nbits` up
being 0 (R62). -/
def tableWord (nbits w : Nat) : CmdWord := BitVec.ofNat 32 (w % 2 ^ nbits)

/-- The immediate of the same command: bits 95 to 32 (R62). -/
def tableImm (nbits w : Nat) : Imm := BitVec.ofNat 64 (w % 2 ^ nbits / 2 ^ 32)

/-- The command the decoder reads from the 96 bits `w`, numbered as spec/opcode_table.json numbers them. -/
def decodeTableWord (nbits w : Nat) : Option Instr :=
  match decode (tableWord nbits w) (tableImm nbits w) with
  | .ok i => some i
  | .error _ => none

end Sys2Proof
end

