-- ==== Sys2Proof/Config.lean ====
section
/-! DEFINITION. The implementation parameters of rule R5 (spec/00_scope.md) and the free values of the model.
A parameter the spec marks OPEN is an argument of the model: State carries one `Config`, every step keeps it, and
a statement about every state is a statement about every admitted parameter (notes/assumptions/3.md). A free value
is an opaque constant: nothing can evaluate it, so nothing proved depends on what it is. The third free value, the latency
of a command, depends on the state and stands in Machine/Handshake.lean. -/

namespace Sys2Proof

/-- What complement does to the sign flag: the OPEN parameter `CPL_SIGN` (R5, R219). -/
inductive CplSign where
  | toggle
  | keep
  deriving DecidableEq, Repr

/-- The OPEN parameters of rule R5. `NREG`, the native integer width and the command width are FIXED and stand in
the types. -/
structure Config where
  /-- `W`, the limb width in bits; `RADIX = 2^W` (R6). -/
  w : Nat
  /-- `MAX_LIMBS`; `none` is infinity. -/
  maxLimbs : Option Nat
  /-- `KARATSUBA_T` (R163). -/
  karatsubaT : Nat
  /-- `BZ_T` (R182, R187). -/
  bzT : Nat
  /-- `BZ_GAP` (R182). -/
  bzGap : Nat
  /-- `TBUF_BYTES` (R31). -/
  tbufBytes : Nat
  /-- `CPL_SIGN` (R219). -/
  cplSign : CplSign
  deriving DecidableEq, Repr

/-- The defaults of rule R5. -/
def Config.default : Config where
  w := 32
  maxLimbs := none
  karatsubaT := 32
  bzT := 70
  bzGap := 4
  tbufBytes := 65536
  cplSign := .toggle

/-- The range rule R5 admits for each parameter. -/
abbrev Config.Legal (c : Config) : Prop :=
  c.w % 2 = 0 ∧ 2 ≤ c.w ∧ c.maxLimbs ≠ some 0 ∧ 3 ≤ c.karatsubaT ∧ 2 ≤ c.bzT ∧
    1 ≤ c.tbufBytes ∧ c.tbufBytes ≤ 2 ^ 32

/-- FREE VALUE (notes/assumptions/4.md). The byte at an address of `TBUF` that nothing has written since reset
number `resets`: R301 takes the array as a draw made once at every reset. No body, so no value of it is known. -/
opaque Config.freeTbufByte (resets addr : Nat) : Byte

/-- FREE VALUE (notes/assumptions/6.md). What a destination register of a command that ended with ALLOC holds
afterwards: `none` is no value, `some z` the integer held (R274: unspecified). At most one command ends with ALLOC
between two resets, so the number of resets and the register tell the draws apart. -/
opaque Config.freeAllocDest (resets : Nat) (r : Reg) : Option Int

end Sys2Proof
end

