-- ==== Sys2Proof/Machine/State.lean ====
section
/-! DEFINITION. The state of CORE (spec/10_state.md R20), the fault causes a command can end with
(spec/60_exceptions.md R270), and the state after reset (R34, R300). -/

namespace Sys2Proof.Machine

/-- A machine stop. CORE has none: each of the seven faults of rule R270 ends its command with a response and leaves
CORE able to take the next one (R279), which is a next state; so this type has no constructor and no step of the model
can answer a fault (notes/assumptions/23.md; safe: nothing is lost by it, since every command has a next state). -/
inductive Fault where
  deriving DecidableEq, Repr

/-- A command the model gives no meaning to. -/
inductive Refusal where
  /-- Raised by `exec`'s arm of an instruction that has no meaning yet; no arm does so. Safe: the run stops. -/
  | notModelled (mnemonic : String)
  deriving DecidableEq, Repr

/-- The fault causes of rule R270, each with what its response records (R279). -/
inductive CmdFault where
  /-- R271: DIV, MOD or DIVMOD by zero. -/
  | divz
  /-- R272: PARSE of malformed text. -/
  | fmt
  /-- R274: a result of more than `MAX_LIMBS` limbs; `dests` are the destinations the command names. -/
  | alloc (dests : List Reg)
  /-- R275: an illegal command, whose word is recorded. -/
  | illcmd (word : CmdWord)
  /-- R276: the first source register that holds no value. -/
  | uninit (r : Reg)
  /-- R277: a text-buffer access out of range, whose first address is recorded. -/
  | range (addr : Addr)
  /-- R278: any command but RDSR while `SR.HALT` is 1. -/
  | halted
  deriving DecidableEq, Repr

/-- A BigInt value: sign and magnitude (R22). `mag` is least significant limb first, each limb an integer in
`[0, 2^W)` (R11, R42). -/
structure BigInt where
  mag : List Nat
  neg : Bool
  deriving DecidableEq, Repr

/-- A response `(rsp_status, rsp_data)` (R60, R70). -/
structure Response where
  status : BitVec 8
  data : BitVec 64
  deriving DecidableEq, Repr

/-- What the host does to CORE (R306): it issues a command (R61, R62) or asserts `rst` for one clock edge (R300). -/
inductive HostEvent where
  | command (word : CmdWord) (imm : Imm)
  | reset
  deriving DecidableEq, Repr

/-- The state of CORE at the command level (R20), with its parameters and its two ports. -/
structure State where
  /-- The parameters of rule R5: constant, no command writes them (R33; notes/assumptions/3.md). -/
  cfg : Config
  /-- The register file (R21): `none` is `V[i] = 0`, `some v` is `V[i] = 1` with the value `v` (R25). -/
  x : Vector (Option BigInt) 16
  /-- The status register (R28). -/
  sr : BitVec 8
  /-- The bytes of `TBUF` written since reset (R31), by address, strictly rising. An address not listed holds the
  byte of rule R301's draw (notes/assumptions/5.md). -/
  tbuf : List Host.Cell
  /-- The model's own field: how many resets there have been; it tells the draws of R301 and R274 apart. -/
  resets : Nat
  /-- The model's own field: what the host offers next, the first item first (notes/assumptions/2.md). -/
  input : List HostEvent
  /-- The response port (R60): the response of the last completed command, none after reset (R34). -/
  rsp : Option Response
  deriving DecidableEq, Repr

/-- CORE right after reset, with the default parameters of rule R5 and nothing offered by the host
(R34, R300; notes/assumptions/2.md, 3.md, 4.md). -/
def State.reset : State where
  cfg := Config.default
  x := Vector.replicate 16 none
  sr := 0x00#8
  tbuf := []
  resets := 0
  input := []
  rsp := none

end Sys2Proof.Machine
end

