-- ==== Sys2Proof/Machine/Flags.lean ====
section
/-! DEFINITION. The status register (spec/10_state.md R28, R29): its eight bits, what each fault records in it
(spec/60_exceptions.md R271 to R278), and what CLRSR may clear (spec/46_system.md R261). -/

namespace Sys2Proof.Machine

/-- `SR.PFAIL`, bit 6 (R28). -/
def srPfail : BitVec 8 := 0x40#8

/-- The fields CLRSR can clear: every bit but ALLOC and HALT (R261). -/
def srClearable : BitVec 8 := 0x7B#8

/-- `SR.HALT`, bit 7 (R28). -/
def State.halted (s : State) : Bool := s.sr.getLsbD 7

/-- The `SR` bits a fault sets: status code `c` sets bit `c - 1`, ALLOC sets HALT as well, HALTED sets none
(R28, R274, R278). -/
def CmdFault.srBits : CmdFault → BitVec 8
  | .divz => 0x01#8
  | .fmt => 0x02#8
  | .alloc _ => 0x84#8
  | .illcmd _ => 0x08#8
  | .uninit _ => 0x10#8
  | .range _ => 0x20#8
  | .halted => 0x00#8

/-- `rsp_status` of a fault (R70). -/
def CmdFault.status : CmdFault → BitVec 8
  | .divz => 0x01#8
  | .fmt => 0x02#8
  | .alloc _ => 0x03#8
  | .illcmd _ => 0x04#8
  | .uninit _ => 0x05#8
  | .range _ => 0x06#8
  | .halted => 0x07#8

/-- `rsp_data` of a fault (R279). -/
def CmdFault.info : CmdFault → BitVec 64
  | .divz => 0#64
  | .fmt => 0#64
  | .alloc _ => 0#64
  | .illcmd word => word.setWidth 64
  | .uninit r => BitVec.ofNat 64 r.val
  | .range addr => addr.setWidth 64
  | .halted => 0#64

/-- The destinations a fault leaves without a defined value: those of ALLOC (R274, R280). -/
def CmdFault.dests : CmdFault → List Reg
  | .divz => []
  | .fmt => []
  | .alloc ds => ds
  | .illcmd _ => []
  | .uninit _ => []
  | .range _ => []
  | .halted => []

/-- CLRSR's new value of `SR` (R261). -/
def clearedSr (sr mask : BitVec 8) : BitVec 8 := sr &&& ~~~(mask &&& srClearable)

end Sys2Proof.Machine
end

