-- ==== Sys2Proof/Machine/Magnitude.lean ====
section
/-! DEFINITION. Magnitudes and values (spec/00_scope.md R11) and the primitives of the limb store
(spec/40_limb_store.md R101 to R103). A magnitude is a list of limbs, least significant first; `w` is the limb
width `W` and the radix is `2^w` (R6). -/

namespace Sys2Proof.Machine

/-- `val(m)`, the sum of `m[i] * RADIX^i` (R11). -/
def val (w : Nat) : List Nat → Nat
  | [] => 0
  | l :: m => l + 2 ^ w * val w m

/-- `top(m)`, the most significant limb (R11). -/
def top (m : List Nat) : Nat := m.getLastD 0

/-- The limbs of `n`, none for 0; `fuel` is at least the limb count. -/
def limbsAux (w : Nat) : Nat → Nat → List Nat
  | 0, _ => []
  | fuel + 1, n => if n = 0 then [] else n % 2 ^ w :: limbsAux w fuel (n / 2 ^ w)

/-- `limbs(n)`, the magnitude of value `n` with no most-significant zero limb but that of `[0]` (R11). -/
def limbs (w n : Nat) : List Nat := if n = 0 then [0] else limbsAux w n n

/-- `ival(v)` (R11). -/
def BigInt.ival (w : Nat) (v : BigInt) : Int := if v.neg then -(val w v.mag : Int) else val w v.mag

/-- `mk(z)`, the normalised value of the integer `z` (R11, R24). -/
def mkInt (w : Nat) (z : Int) : BigInt := { mag := limbs w z.natAbs, neg := decide (z < 0) }

/-- `ZERO = ([0], false)` (R11). -/
def zeroInt : BigInt := { mag := [0], neg := false }

/-- `([1], false)`, the constant of INC, DEC and POW (R147, R148, R168). -/
def oneInt : BigInt := { mag := [1], neg := false }

/-- The `W`-bit leading-zero count `clz_limb(l)`: `W` for 0 (R11). -/
def clzLimb (w l : Nat) : Nat := if l = 0 then w else w - 1 - l.log2

/-- `bitlen(m)` (R11). -/
def bitlen (w : Nat) (m : List Nat) : Nat :=
  if val w m = 0 then 0 else (m.length - 1) * w + (w - clzLimb w (top m))

/-- `bit(m, i)`: bit `i mod W` of limb `m[i div W]`, 0 past the end (R11). -/
def bit (w : Nat) (m : List Nat) (i : Nat) : Nat := m.getD (i / w) 0 / 2 ^ (i % w) % 2

/-! ### Normalisation (R101) -/

/-- A magnitude without its most-significant zero limbs. -/
def stripTop : List Nat → List Nat
  | [] => []
  | l :: m =>
    match stripTop m with
    | [] => if l = 0 then [] else [l]
    | h :: t => l :: h :: t

/-- `norm_mag(m)`: no most-significant zero limb, never empty (R101). -/
def normMag (m : List Nat) : List Nat :=
  match stripTop m with
  | [] => [0]
  | h :: t => h :: t

/-- `normalize(mag, neg)`: and zero is never negative (R101). -/
def normalize (m : List Nat) (neg : Bool) : BigInt :=
  { mag := normMag m, neg := if normMag m = [0] then false else neg }

/-! ### Comparison (R102, R103) -/

/-- Limbs of two magnitudes of one length, the most significant pair deciding first (R102). -/
def cmpLimbs : List Nat → List Nat → Ordering
  | [], _ => .eq
  | _ :: _, [] => .eq
  | a :: as, b :: bs => (cmpLimbs as bs).then (compare a b)

/-- `cmp_mag(a, b)`: lengths first, then limbs; `.lt`, `.eq`, `.gt` are the rule's -1, 0, +1 (R102). -/
def cmpMag (a b : List Nat) : Ordering := (compare a.length b.length).then (cmpLimbs a b)

/-- `cmp(a, b)` on values: signs first, and two negative values the other way round (R103). -/
def cmpInt (a b : BigInt) : Ordering :=
  if a.neg && !b.neg then .lt
  else if !a.neg && b.neg then .gt
  else if a.neg then (cmpMag a.mag b.mag).swap
  else cmpMag a.mag b.mag

/-! ### Limb slices (R163, R197) -/

/-- `shl_limbs(z, q)`: `q` zero limbs below limb 0, and `[0]` stays `[0]` (R163, R197). -/
def shlLimbs (z : List Nat) (q : Nat) : List Nat := if z = [0] then [0] else List.replicate q 0 ++ z

/-- `lo_limbs(z, q)`: the lowest `q` limbs (R197). -/
def loLimbs (z : List Nat) (q : Nat) : List Nat := normMag (z.take q)

/-- `hi_limbs(z, q)`: the limbs from index `q` up, `[0]` if there is none (R197). -/
def hiLimbs (z : List Nat) (q : Nat) : List Nat := normMag (z.drop q)

/-- `mid_limbs(z, p, q)`: the limbs of index `p` to `q - 1` (R197). -/
def midLimbs (z : List Nat) (p q : Nat) : List Nat := loLimbs (hiLimbs z p) (q - p)

end Sys2Proof.Machine
end

