-- ==== Sys2Proof/Machine/Ops.lean ====
section
/-! DEFINITION. The named operations over the register file, the text buffer and the response port, taking a fault
(spec/60_exceptions.md R279, R280) and reset (spec/70_reset_and_hazards.md R300). -/

namespace Sys2Proof.Machine

/-! ### Text buffer: the bytes written since reset (R31, R40 to R47) -/

/-- The byte written at address `k`, if any. -/
def Tbuf.read : List Host.Cell → Nat → Option Byte
  | [], _ => none
  | (a, b) :: m, k => if k = a then some b else Tbuf.read m k

/-- Write one byte, keeping the addresses strictly rising. -/
def Tbuf.write : List Host.Cell → Nat → Byte → List Host.Cell
  | [], k, v => [(k, v)]
  | (a, b) :: m, k, v =>
    if k < a then (k, v) :: (a, b) :: m
    else if k = a then (k, v) :: m
    else (a, b) :: Tbuf.write m k v

/-- Write consecutive bytes, the first at the lowest address (R43). -/
def Tbuf.writeAll (m : List Host.Cell) (k : Nat) : List Byte → List Host.Cell
  | [] => m
  | b :: bs => Tbuf.writeAll (Tbuf.write m k b) (k + 1) bs

/-- The canonical form: addresses strictly rising. An unlisted address has no written byte, so no entry can equal
what an unlisted one reads as. -/
def Tbuf.wf : List Host.Cell → Bool
  | [] => true
  | [_] => true
  | (a, _) :: (b, v) :: m => decide (a < b) && Tbuf.wf ((b, v) :: m)

/-- The byte `TBUF` holds at an address: the one written last, else the draw of the last reset (R49, R301). -/
def State.tbufByte (s : State) (a : Nat) : Byte :=
  (Tbuf.read s.tbuf a).getD (Config.freeTbufByte s.resets a)

/-- The check of every `TBUF` access, on unbounded integers (R43). -/
def State.inRange (s : State) (addr n : Nat) : Bool := decide (addr + n ≤ s.cfg.tbufBytes)

/-- `n` consecutive bytes, lowest address first: what MemRead returns once its check has passed (R12, R43). -/
def State.bytesFrom (s : State) (addr : Nat) : Nat → List Byte
  | 0 => []
  | n + 1 => s.tbufByte addr :: s.bytesFrom (addr + 1) n

/-! ### Register file (R21, R25, R26) -/

/-- `V[i]` (R25). -/
def State.valid (s : State) (i : Reg) : Bool := s.x[i].isSome

/-- Whether a magnitude has at most `MAX_LIMBS` limbs (R274). -/
def fits (c : Config) (m : List Nat) : Bool :=
  match c.maxLimbs with
  | none => true
  | some k => decide (m.length ≤ k)

/-- What a destination holds after ALLOC: any value a register can hold, or none (R274, R21, R23; a free value,
notes/assumptions/6.md). -/
def State.freeDest (s : State) (r : Reg) : Option BigInt :=
  match Config.freeAllocDest s.resets r with
  | none => none
  | some z => if fits s.cfg (mkInt s.cfg.w z).mag then some (mkInt s.cfg.w z) else none

/-- The register file with the given registers holding no defined value (R274). -/
def State.loseRegs (s : State) : List Reg → Vector (Option BigInt) 16
  | [] => s.x
  | r :: rs => (s.loseRegs rs).set r (s.freeDest r)

/-! ### How a command ends (R70, R279) -/

/-- `respond(OK, d)` (R12, R70). -/
def State.respond (s : State) (d : BitVec 64) : State := { s with rsp := some { status := 0x00#8, data := d } }

/-- Taking a fault, all of it (R279): no register or `TBUF` write but ALLOC's lost destinations (R280), the cause's
`SR` bits set, the response with the code and the recorded value. CORE is then ready for the next command. -/
def State.takeFault (s : State) (f : CmdFault) : State :=
  { s with x := s.loseRegs f.dests, sr := s.sr ||| f.srBits, rsp := some { status := f.status, data := f.info } }

/-- There is no return from a fault: nothing was entered (R283). The record is cleared by CLRSR (R261) and the halted
state is left by reset only: the reset state of rule R300, with the parameters kept (R33), a new draw of `TBUF`
(R301) and no response pending. -/
def State.takeReset (s : State) : State :=
  { s with x := Vector.replicate 16 none, sr := 0x00#8, tbuf := [], resets := s.resets + 1, rsp := none }

/-- Every command but RDSR first tests `SR.HALT` and is refused while it is 1 (R29, R278, R281). -/
def State.unlessHalted (s : State) (done : State) : Host.Outcome State Fault Refusal :=
  .next (if s.halted then s.takeFault .halted else done)

/-- `x[rd] <- v`, then `respond(OK, d)`: ALLOC instead if `v` does not fit (R12, R274). -/
def State.writeBack (s : State) (rd : Reg) (v : BigInt) (d : BitVec 64) : State :=
  if fits s.cfg v.mag then { s with x := s.x.set rd (some v), rsp := some { status := 0x00#8, data := d } }
  else s.takeFault (.alloc [rd])

/-- `x[rd] <- q; x[rd2] <- r`, then `respond(OK, 0)`: DIVMOD's two results (R193). Both are measured before either is
written (notes/assumptions/14.md). -/
def State.writeBack2 (s : State) (rd rd2 : Reg) (q r : BigInt) : State :=
  if fits s.cfg q.mag && fits s.cfg r.mag then
    { s with x := (s.x.set rd (some q)).set rd2 (some r), rsp := some { status := 0x00#8, data := 0#64 } }
  else s.takeFault (.alloc [rd, rd2])

end Sys2Proof.Machine
end

