-- ==== Sys2Proof/Machine/Operands.lean ====
section
/-! DEFINITION. The operand forms of CORE: source registers (spec/00_scope.md R12, spec/60_exceptions.md R276), text
ranges (R12, R43, R277), immediates (spec/30_encoding.md R65) and truth values (R70). Each form ends the command with
its own fault where the operand cannot be read, and hands the operand on otherwise; so the order of the tests in a
meaning is the order of rule R281. -/

namespace Sys2Proof.Machine

/-- Read `x[i]`: UNINIT if it holds no value (R12, R276). -/
def State.withSource (s : State) (i : Reg) (k : BigInt → State) : State :=
  match s.x[i] with
  | none => s.takeFault (.uninit i)
  | some v => k v

/-- Read `x[rs1]`, then `x[rs2]`: `rs1` is examined first (R276, R281). -/
def State.withSources (s : State) (rs1 rs2 : Reg) (k : BigInt → BigInt → State) : State :=
  s.withSource rs1 fun a => s.withSource rs2 fun b => k a b

/-- `MemRead(addr, n)`: RANGE if the access leaves `TBUF` (R12, R43, R277). -/
def State.withText (s : State) (addr : Addr) (n : Nat) (k : List Byte → State) : State :=
  if s.inRange addr.toNat n then k (s.bytesFrom addr.toNat n) else s.takeFault (.range addr)

/-- `MemWrite(addr, length(t), t)`, then `respond(OK, d)`: RANGE, and no byte written, if the access leaves `TBUF`
(R12, R43, R277). -/
def State.storeText (s : State) (addr : Addr) (t : List Byte) (d : BitVec 64) : State :=
  if s.inRange addr.toNat t.length then
    { s with tbuf := Tbuf.writeAll s.tbuf addr.toNat t, rsp := some { status := 0x00#8, data := d } }
  else s.takeFault (.range addr)

/-- `sext_64(cmd_imm)`, LDI's integer (R65). -/
def immSigned (imm : Imm) : Int := imm.toInt

/-- `zext_64(cmd_imm)`: an exponent or a shift amount (R65). -/
def immUnsigned (imm : Imm) : Nat := imm.toNat

/-- A truth value as response data (R70). -/
def truth (b : Bool) : BitVec 64 := if b then 1#64 else 0#64

/-- A count as response data: its low 64 bits (R110). -/
def count (n : Nat) : BitVec 64 := BitVec.ofNat 64 n

end Sys2Proof.Machine
end

