-- ==== Sys2Proof/Machine/Additive.lean ====
section
/-! DEFINITION. Family 1 (spec/41_additive.md): the multi-limb adder and subtractor with carry and borrow
propagation (R140, R141), signed sum and difference (R142, R143), and ADD, SUB, NEG, INC, DEC. -/

namespace Sys2Proof.Machine

/-- The carry loop of `add_mag` over `n` limbs; an absent limb is 0, a final carry appends a limb 1 (R140). -/
def addLoop (w : Nat) : Nat → List Nat → List Nat → Nat → List Nat
  | 0, _, _, carry => if carry = 1 then [1] else []
  | n + 1, a, b, carry =>
    if 2 ^ w ≤ a.headD 0 + b.headD 0 + carry then
      (a.headD 0 + b.headD 0 + carry - 2 ^ w) :: addLoop w n a.tail b.tail 1
    else
      (a.headD 0 + b.headD 0 + carry) :: addLoop w n a.tail b.tail 0

/-- `add_mag(a, b)` (R140). -/
def addMag (w : Nat) (a b : List Nat) : List Nat := addLoop w (max a.length b.length) a b 0

/-- The borrow loop of `sub_mag` over the limbs of the minuend (R141). -/
def subLoop (w : Nat) : List Nat → List Nat → Nat → List Nat
  | [], _, _ => []
  | a :: as, b, borrow =>
    if a < b.headD 0 + borrow then
      (a + 2 ^ w - (b.headD 0 + borrow)) :: subLoop w as b.tail 1
    else
      (a - (b.headD 0 + borrow)) :: subLoop w as b.tail 0

/-- `sub_mag(a, b)`, called only where `val(a) >= val(b)` (R141). -/
def subMag (w : Nat) (a b : List Nat) : List Nat := normMag (subLoop w a b 0)

/-- `add_signed(a, b)` (R142). -/
def addSigned (w : Nat) (a b : BigInt) : BigInt :=
  if a.neg = b.neg then normalize (addMag w a.mag b.mag) a.neg
  else
    match cmpMag a.mag b.mag with
    | .eq => zeroInt
    | .gt => normalize (subMag w a.mag b.mag) a.neg
    | .lt => normalize (subMag w b.mag a.mag) b.neg

/-- `sub_signed(a, b)` (R143, spec/90_conflicts.md C2). -/
def subSigned (w : Nat) (a b : BigInt) : BigInt :=
  if a.neg ≠ b.neg then normalize (addMag w a.mag b.mag) a.neg
  else
    match cmpMag a.mag b.mag with
    | .eq => zeroInt
    | .gt => normalize (subMag w a.mag b.mag) a.neg
    | .lt => normalize (subMag w b.mag a.mag) (!a.neg)

/-- ADD (R144). -/
def execAdd (rd rs1 rs2 : Reg) (s : State) : Host.Outcome State Fault Refusal :=
  s.unlessHalted (s.withSources rs1 rs2 fun a b => s.writeBack rd (addSigned s.cfg.w a b) 0#64)

/-- SUB (R145). -/
def execSub (rd rs1 rs2 : Reg) (s : State) : Host.Outcome State Fault Refusal :=
  s.unlessHalted (s.withSources rs1 rs2 fun a b => s.writeBack rd (subSigned s.cfg.w a b) 0#64)

/-- NEG (R146): the flipped sign goes through `normalize`, so zero stays non-negative. -/
def execNeg (rd rs1 : Reg) (s : State) : Host.Outcome State Fault Refusal :=
  s.unlessHalted (s.withSource rs1 fun v => s.writeBack rd (normalize v.mag (!v.neg)) 0#64)

/-- INC (R147). -/
def execInc (rd rs1 : Reg) (s : State) : Host.Outcome State Fault Refusal :=
  s.unlessHalted (s.withSource rs1 fun v => s.writeBack rd (addSigned s.cfg.w v oneInt) 0#64)

/-- DEC (R148). -/
def execDec (rd rs1 : Reg) (s : State) : Host.Outcome State Fault Refusal :=
  s.unlessHalted (s.withSource rs1 fun v => s.writeBack rd (subSigned s.cfg.w v oneInt) 0#64)

end Sys2Proof.Machine
end

