-- ==== Sys2Proof/Machine/Bitwise.lean ====
section
/-! DEFINITION. Family 4 (spec/44_bitwise_shift.md): shifts of the magnitude (R210 to R212), limb-wise logic over the
sign-magnitude encoding (R215), and SHL, SHR, AND, OR, XOR, NOT. None of them is a two's complement operation. -/

namespace Sys2Proof.Machine

/-- The limb loop of `shl_mag` by `r < W` bits: the bits pushed out of a limb are carried into the next (R211). -/
def shlLoop (w r : Nat) : List Nat → Nat → List Nat
  | [], carry => if r ≠ 0 ∧ carry ≠ 0 then [carry] else []
  | a :: as, carry =>
    if r = 0 then a :: shlLoop w r as carry
    else (a * 2 ^ r % 2 ^ w + carry) :: shlLoop w r as (a / 2 ^ (w - r))

/-- `shl_mag(a, s)` (R211). -/
def shlMag (w : Nat) (a : List Nat) (s : Nat) : List Nat :=
  normMag (List.replicate (s / w) 0 ++ shlLoop w (s % w) a 0)

/-- The limb loop of `shr_mag` by `r < W` bits: the low bits of the limb above fill the top (R212). -/
def shrLoop (w r : Nat) : List Nat → List Nat
  | [] => []
  | a :: as =>
    if r = 0 then a :: shrLoop w r as
    else (a / 2 ^ r + as.headD 0 * 2 ^ (w - r) % 2 ^ w) :: shrLoop w r as

/-- `shr_mag(a, s)` (R212). -/
def shrMag (w : Nat) (a : List Nat) (s : Nat) : List Nat :=
  if a.length ≤ s / w then [0] else normMag (shrLoop w (s % w) (a.drop (s / w)))

/-- `n` limbs, each the operation on the two operands' limbs, an absent limb read as 0 (R215). -/
def padLimbs (f : Nat → Nat → Nat) : Nat → List Nat → List Nat → List Nat
  | 0, _, _ => []
  | n + 1, a, b => f (a.headD 0) (b.headD 0) :: padLimbs f n a.tail b.tail

/-- The limbs of AND: truncated to the shorter operand (R215, R216). -/
def andLimbs (a b : List Nat) : List Nat := padLimbs (· &&& ·) (min a.length b.length) a b

/-- The limbs of OR (R215, R217). -/
def orLimbs (a b : List Nat) : List Nat := padLimbs (· ||| ·) (max a.length b.length) a b

/-- The limbs of XOR (R215, R218). -/
def xorLimbs (a b : List Nat) : List Nat := padLimbs (· ^^^ ·) (max a.length b.length) a b

/-- The limbs of NOT: `RADIX - 1 - l` over exactly the limbs the operand has (R215, R219). -/
def notLimbs (w : Nat) (m : List Nat) : List Nat := m.map fun l => 2 ^ w - 1 - l

/-- The sign flag of a complement under `CPL_SIGN` (R219). -/
def cplNeg (c : Config) (neg : Bool) : Bool :=
  match c.cplSign with
  | .toggle => !neg
  | .keep => neg

/-- SHL (R213). -/
def execShl (rd rs1 : Reg) (amount : Imm) (s : State) : Host.Outcome State Fault Refusal :=
  s.unlessHalted (s.withSource rs1 fun v =>
    s.writeBack rd (normalize (shlMag s.cfg.w v.mag (immUnsigned amount)) v.neg) 0#64)

/-- SHR (R214). -/
def execShr (rd rs1 : Reg) (amount : Imm) (s : State) : Host.Outcome State Fault Refusal :=
  s.unlessHalted (s.withSource rs1 fun v =>
    s.writeBack rd (normalize (shrMag s.cfg.w v.mag (immUnsigned amount)) v.neg) 0#64)

/-- AND (R216): negative only if both operands are. -/
def execAnd (rd rs1 rs2 : Reg) (s : State) : Host.Outcome State Fault Refusal :=
  s.unlessHalted (s.withSources rs1 rs2 fun a b =>
    s.writeBack rd (normalize (andLimbs a.mag b.mag) (a.neg && b.neg)) 0#64)

/-- OR (R217): negative if either operand is. -/
def execOr (rd rs1 rs2 : Reg) (s : State) : Host.Outcome State Fault Refusal :=
  s.unlessHalted (s.withSources rs1 rs2 fun a b =>
    s.writeBack rd (normalize (orLimbs a.mag b.mag) (a.neg || b.neg)) 0#64)

/-- XOR (R218): negative if the signs differ. -/
def execXor (rd rs1 rs2 : Reg) (s : State) : Host.Outcome State Fault Refusal :=
  s.unlessHalted (s.withSources rs1 rs2 fun a b =>
    s.writeBack rd (normalize (xorLimbs a.mag b.mag) (a.neg ^^ b.neg)) 0#64)

/-- NOT (R219). -/
def execNot (rd rs1 : Reg) (s : State) : Host.Outcome State Fault Refusal :=
  s.unlessHalted (s.withSource rs1 fun v =>
    s.writeBack rd (normalize (notLimbs s.cfg.w v.mag) (cplNeg s.cfg v.neg)) 0#64)

end Sys2Proof.Machine
end

