-- ==== Sys2Proof/Machine/Multiplicative.lean ====
section
/-! DEFINITION. Family 2 (spec/42_multiplicative.md): the overflow-safe limb product (R161), the schoolbook
multiplier (R162), the recursive Karatsuba multiplier (R163, R164), integer power (R168), and MUL and POW. The
commands run the datapath the rules give; Certificates/Slice0 states that it computes the exact product (R166). -/

namespace Sys2Proof.Machine

/-- `mul_limb(x, y)`, the pair `(hi, lo)` with `x*y = hi*RADIX + lo`, from half-width products (R161). -/
def mulLimb (w x y : Nat) : Nat × Nat :=
  let half := 2 ^ (w / 2)
  let x0 := x % half
  let x1 := x / half
  let y0 := y % half
  let y1 := y / half
  let mid := x0 * y1 + x1 * y0
  let midc := if 2 ^ w ≤ mid then 1 else 0
  let midw := mid - midc * 2 ^ w
  let lo := x0 * y0 + midw % half * half
  let c := if 2 ^ w ≤ lo then 1 else 0
  (x1 * y1 + midw / half + midc * half + c, lo - c * 2 ^ w)

/-- One row of the schoolbook loop: `x` times the limbs of `b` added into the result buffer `r`, which starts at the
row's own index; the last carry is stored into the limb after the row (R162). -/
def mulRow (w x : Nat) : List Nat → List Nat → Nat → List Nat
  | [], r, carry => carry :: r.tail
  | y :: b, r, carry =>
    let p := mulLimb w x y
    let t1 := r.headD 0 + p.2
    let c1 := if 2 ^ w ≤ t1 then 1 else 0
    let t2 := t1 - c1 * 2 ^ w + carry
    let c2 := if 2 ^ w ≤ t2 then 1 else 0
    (t2 - c2 * 2 ^ w) :: mulRow w x b r.tail (p.1 + c1 + c2)

/-- The rows of the schoolbook loop, one per limb of `a`, over the result buffer (R162). -/
def mulRows (w : Nat) : List Nat → List Nat → List Nat → List Nat
  | [], _, r => r
  | x :: a, b, r => (mulRow w x b r 0).headD 0 :: mulRows w a b (mulRow w x b r 0).tail

/-- `school(a, b)`: a result buffer of `len(a) + len(b)` zero limbs, then the rows (R162). -/
def school (w : Nat) (a b : List Nat) : List Nat :=
  normMag (mulRows w a b (List.replicate (a.length + b.length) 0))

/-- `kmul(a, b)` with a bound on the recursion's depth. Each call shortens the longer operand (R165), so the bound
`max(len(a), len(b))` is never the reason to stop; were it, the schoolbook product is what the rule falls back to. -/
def kmulFuel (w t : Nat) : Nat → List Nat → List Nat → List Nat
  | 0, a, b => school w a b
  | fuel + 1, a, b =>
    if val w a = 0 ∨ val w b = 0 then [0]
    else if a.length ≤ t ∨ b.length ≤ t then school w a b
    else
      let m := max a.length b.length / 2
      let a0 := loLimbs a m
      let a1 := hiLimbs a m
      let b0 := loLimbs b m
      let b1 := hiLimbs b m
      let z2 := kmulFuel w t fuel a1 b1
      let z0 := kmulFuel w t fuel a0 b0
      let z1 := subMag w (subMag w (kmulFuel w t fuel (addMag w a1 a0) (addMag w b1 b0)) z2) z0
      addMag w (addMag w (shlLimbs z2 (2 * m)) (shlLimbs z1 m)) z0

/-- `kmul(a, b)` (R163); `t` is `KARATSUBA_T`. -/
def kmul (w t : Nat) (a b : List Nat) : List Nat := kmulFuel w t (max a.length b.length) a b

/-- `mul_mag(a, b)` (R164). -/
def mulMag (c : Config) (a b : List Nat) : List Nat := kmul c.w c.karatsubaT a b

/-- `mul_signed(a, b)` (R160). -/
def mulSigned (c : Config) (a b : BigInt) : BigInt := normalize (mulMag c a.mag b.mag) (a.neg ^^ b.neg)

/-- The loop of `pow`; `fuel` is at least the number of exponent bits left (R168). -/
def powLoop (c : Config) : Nat → BigInt → BigInt → Nat → BigInt
  | 0, result, _, _ => result
  | fuel + 1, result, b, e =>
    if e = 0 then result
    else
      powLoop c fuel (if e % 2 = 1 then mulSigned c result b else result)
        (if 0 < e / 2 then mulSigned c b b else b) (e / 2)

/-- `pow(base, e)`, binary exponentiation (R168). -/
def powInt (c : Config) (base : BigInt) (e : Nat) : BigInt := powLoop c e oneInt base e

/-- MUL (R167). -/
def execMul (rd rs1 rs2 : Reg) (s : State) : Host.Outcome State Fault Refusal :=
  s.unlessHalted (s.withSources rs1 rs2 fun a b => s.writeBack rd (mulSigned s.cfg a b) 0#64)

/-- POW (R169). -/
def execPow (rd rs1 : Reg) (e : Imm) (s : State) : Host.Outcome State Fault Refusal :=
  s.unlessHalted (s.withSource rs1 fun v => s.writeBack rd (powInt s.cfg v (immUnsigned e)) 0#64)

end Sys2Proof.Machine
end

