-- ==== Sys2Proof/Machine/Division.lean ====
section
/-! DEFINITION. Family 3 (spec/43_division.md): bit-serial long division (R183), the recursive divide-and-conquer
scheme (R185 to R189, R197), their dispatch (R182), signs (R192), and DIVMOD, DIV, MOD. The commands run the datapath
the rules give; Certificates/Slice0 states that it computes the truncating quotient and remainder (R191). -/

namespace Sys2Proof.Machine

/-! ### Quadratic fallback (R183) -/

/-- Set bit `i` of the quotient: bit `i mod W` of limb `i div W` (R183). -/
def setBit (w : Nat) (q : List Nat) (i : Nat) : List Nat := q.modify (i / w) (· ||| 2 ^ (i % w))

/-- Bring a dividend bit into the shifted remainder, whose bit 0 is 0 (R183). -/
def bringBit (r : List Nat) (b : Nat) : List Nat := if b = 1 then r.modify 0 (· + 1) else r

/-- The loop of `quad_div` over the `n` lowest dividend bits, the most significant first (R183). -/
def quadLoop (w : Nat) (a b : List Nat) : Nat → List Nat → List Nat → List Nat × List Nat
  | 0, q, r => (q, r)
  | n + 1, q, r =>
    let r1 := bringBit (shlMag w r 1) (bit w a n)
    if cmpMag r1 b = .lt then quadLoop w a b n q r1
    else quadLoop w a b n (setBit w q n) (subMag w r1 b)

/-- `quad_div(a, b)`, for `val(b) != 0` (R183). -/
def quadDiv (w : Nat) (a b : List Nat) : List Nat × List Nat :=
  let qr := quadLoop w a b (bitlen w a) (List.replicate a.length 0) [0]
  (normMag qr.1, qr.2)

/-! ### Recursive division (R185 to R189, R197) -/

/-- The correction loop of R188: while the candidate remainder `rpos - d` is negative, decrement the estimate and add
the divisor back. `fuel` bounds the number of rounds by the estimate itself, which no round can bring below 0; the
bound of two rounds (R189) is not used. -/
def correctLoop (w : Nat) (b d : List Nat) : Nat → List Nat → List Nat → List Nat × List Nat
  | 0, q, rpos => (q, rpos)
  | fuel + 1, q, rpos =>
    if cmpMag rpos d = .lt then correctLoop w b d fuel (subMag w q [1]) (addMag w rpos b) else (q, rpos)

/-- The quotient estimate of `divide_3n_by_2n` and the remainder of its top part, with the 2n/n divider it calls as an
argument: that divider on the divisor's high half, or the capped estimate (R188). -/
def estimate3n2n (c : Config) (div21 : List Nat → List Nat → Nat → List Nat × List Nat) (z b : List Nat) (k : Nat) :
    List Nat × List Nat :=
  if cmpMag (hiLimbs z (2 * k)) (hiLimbs b k) = .lt then div21 (hiLimbs z k) (hiLimbs b k) k
  else
    (List.replicate k (2 ^ c.w - 1),
      addMag c.w (subMag c.w (hiLimbs z k) (shlLimbs (hiLimbs b k) k)) (hiLimbs b k))

/-- `divide_3n_by_2n(z, b, k)` (R188): the candidate remainder is `rpos - d`, with `d` the estimate times the divisor's
low half. -/
def divide3n2n (c : Config) (div21 : List Nat → List Nat → Nat → List Nat × List Nat) (z b : List Nat) (k : Nat) :
    List Nat × List Nat :=
  let qr := estimate3n2n c div21 z b k
  let d := mulMag c qr.1 (loLimbs b k)
  let fin := correctLoop c.w b d (val c.w qr.1) qr.1 (addMag c.w (shlLimbs qr.2 k) (loLimbs z k))
  (fin.1, subMag c.w fin.2 d)

/-- `divide_2n_by_n(z, b, n)` (R187), with a bound on the recursion's depth. Each call halves `n` (R190), so the bound
`n` is never the reason to stop; were it, the quadratic divider is what the rule falls back to. -/
def divide2n1n (c : Config) : Nat → List Nat → List Nat → Nat → List Nat × List Nat
  | 0, z, b, _ => quadDiv c.w z b
  | fuel + 1, z, b, n =>
    if n % 2 = 1 ∨ n < c.bzT then quadDiv c.w z b
    else
      let k := n / 2
      let zlo := loLimbs z k
      let zmid := midLimbs z k (2 * k)
      let zhi := hiLimbs z (2 * k)
      let hi := divide3n2n c (divide2n1n c fuel) (addMag c.w (shlLimbs zhi k) zmid) b k
      let lo := divide3n2n c (divide2n1n c fuel) (addMag c.w (shlLimbs hi.2 k) zlo) b k
      (addMag c.w (shlLimbs hi.1 k) lo.1, lo.2)

/-- The loop of `recursive_division` over the `t` lowest chunks of `n` limbs, the most significant first (R186). -/
def chunkLoop (c : Config) (a b : List Nat) (n : Nat) : Nat → List Nat → List Nat → List Nat × List Nat
  | 0, q, r => (q, r)
  | t + 1, q, r =>
    let chunk := midLimbs a (t * n) ((t + 1) * n)
    let qr := divide2n1n c n (addMag c.w (shlLimbs r n) chunk) b n
    chunkLoop c a b n t (addMag c.w (shlLimbs q n) qr.1) qr.2

/-- `recursive_division(a, b)`: both operands shifted so that the divisor's top bit is set (R185), the dividend taken
in chunks of `len(b)` limbs, the remainder shifted back (R186). -/
def recursiveDivision (c : Config) (a b : List Nat) : List Nat × List Nat :=
  let s := clzLimb c.w (top b)
  let a' := shlMag c.w a s
  let b' := shlMag c.w b s
  let n := b'.length
  let qr := chunkLoop c a' b' n ((a'.length + n - 1) / n) [0] [0]
  (qr.1, shrMag c.w qr.2 s)

/-! ### Dispatch and signs (R182, R192) -/

/-- `divmod_mag(a, b)`, for `val(b) != 0` (R182). -/
def divmodMag (c : Config) (a b : List Nat) : List Nat × List Nat :=
  if cmpMag a b = .lt then ([0], a)
  else if b.length < c.bzT ∨ a.length - b.length < c.bzGap then quadDiv c.w a b
  else recursiveDivision c a b

/-- The quotient of `divmod_signed(a, b)` (R192). -/
def quotSigned (c : Config) (a b : BigInt) : BigInt := normalize (divmodMag c a.mag b.mag).1 (a.neg ^^ b.neg)

/-- The remainder of `divmod_signed(a, b)` (R192). -/
def remSigned (c : Config) (a b : BigInt) : BigInt := normalize (divmodMag c a.mag b.mag).2 a.neg

/-! ### Commands -/

/-- Read dividend and divisor, then DIVZ if the divisor is 0: the tests of R193 to R195 in the order of R281. -/
def withDivision (rs1 rs2 : Reg) (s : State) (k : BigInt → BigInt → State) : State :=
  s.withSources rs1 rs2 fun a b => if b.ival s.cfg.w = 0 then s.takeFault .divz else k a b

/-- DIVMOD (R193). Two equal destinations are no command the decoder yields (R67(e)); given them all the same, the
meaning is the fault that command takes (R73, R275; notes/assumptions/13.md). -/
def execDivmod (rd rd2 rs1 rs2 : Reg) (s : State) : Host.Outcome State Fault Refusal :=
  s.unlessHalted
    (if rd = rd2 then s.takeFault (.illcmd (encode (.divmod rd rd2 rs1 rs2)).1)
    else withDivision rs1 rs2 s fun a b => s.writeBack2 rd rd2 (quotSigned s.cfg a b) (remSigned s.cfg a b))

/-- DIV (R194). -/
def execDiv (rd rs1 rs2 : Reg) (s : State) : Host.Outcome State Fault Refusal :=
  s.unlessHalted (withDivision rs1 rs2 s fun a b => s.writeBack rd (quotSigned s.cfg a b) 0#64)

/-- MOD (R195). -/
def execMod (rd rs1 rs2 : Reg) (s : State) : Host.Outcome State Fault Refusal :=
  s.unlessHalted (withDivision rs1 rs2 s fun a b => s.writeBack rd (remSigned s.cfg a b) 0#64)

end Sys2Proof.Machine
end

