-- ==== Sys2Proof/Machine/LimbStore.lean ====
section
/-! DEFINITION. Family 0 (spec/40_limb_store.md): LDI, MOV, DROP, ABS, the queries ISZERO, ISNEG, SIZE, CLZ, and the
six comparisons. -/

namespace Sys2Proof.Machine

/-- LDI (R104): the value of the signed immediate. -/
def execLdi (rd : Reg) (imm : Imm) (s : State) : Host.Outcome State Fault Refusal :=
  s.unlessHalted (s.writeBack rd (mkInt s.cfg.w (immSigned imm)) 0#64)

/-- MOV (R105): a deep copy. -/
def execMov (rd rs1 : Reg) (s : State) : Host.Outcome State Fault Refusal :=
  s.unlessHalted (s.withSource rs1 fun v => s.writeBack rd v 0#64)

/-- DROP (R106): the register holds no value any more; no fault on one that held none. -/
def execDrop (rd : Reg) (s : State) : Host.Outcome State Fault Refusal :=
  s.unlessHalted { s with x := s.x.set rd none, rsp := some { status := 0x00#8, data := 0#64 } }

/-- ABS (R107): the copy with its sign cleared. -/
def execAbs (rd rs1 : Reg) (s : State) : Host.Outcome State Fault Refusal :=
  s.unlessHalted (s.withSource rs1 fun v => s.writeBack rd { v with neg := false } 0#64)

/-- ISZERO (R108). -/
def execIszero (rs1 : Reg) (s : State) : Host.Outcome State Fault Refusal :=
  s.unlessHalted (s.withSource rs1 fun v => s.respond (truth (decide (v.mag = [0]))))

/-- ISNEG (R109). -/
def execIsneg (rs1 : Reg) (s : State) : Host.Outcome State Fault Refusal :=
  s.unlessHalted (s.withSource rs1 fun v => s.respond (truth v.neg))

/-- SIZE (R110): the limb count, its low 64 bits. -/
def execSize (rs1 : Reg) (s : State) : Host.Outcome State Fault Refusal :=
  s.unlessHalted (s.withSource rs1 fun v => s.respond (count v.mag.length))

/-- CLZ (R111): leading zero bits of the most significant limb, `W` for zero. -/
def execClz (rs1 : Reg) (s : State) : Host.Outcome State Fault Refusal :=
  s.unlessHalted (s.withSource rs1 fun v => s.respond (count (clzLimb s.cfg.w (top v.mag))))

/-- The shape of the six comparisons (R112 to R117): a truth value taken from `cmp(x[rs1], x[rs2])`. -/
def compareWith (rs1 rs2 : Reg) (test : Ordering → Bool) (s : State) : Host.Outcome State Fault Refusal :=
  s.unlessHalted (s.withSources rs1 rs2 fun a b => s.respond (truth (test (cmpInt a b))))

/-- CEQ (R112). -/
def execCeq (rs1 rs2 : Reg) (s : State) : Host.Outcome State Fault Refusal :=
  compareWith rs1 rs2 (fun c => c == .eq) s

/-- CNE (R113). -/
def execCne (rs1 rs2 : Reg) (s : State) : Host.Outcome State Fault Refusal :=
  compareWith rs1 rs2 (fun c => c != .eq) s

/-- CLT (R114). -/
def execClt (rs1 rs2 : Reg) (s : State) : Host.Outcome State Fault Refusal :=
  compareWith rs1 rs2 (fun c => c == .lt) s

/-- CLE (R115). -/
def execCle (rs1 rs2 : Reg) (s : State) : Host.Outcome State Fault Refusal :=
  compareWith rs1 rs2 (fun c => c != .gt) s

/-- CGT (R116). -/
def execCgt (rs1 rs2 : Reg) (s : State) : Host.Outcome State Fault Refusal :=
  compareWith rs1 rs2 (fun c => c == .gt) s

/-- CGE (R117). -/
def execCge (rs1 rs2 : Reg) (s : State) : Host.Outcome State Fault Refusal :=
  compareWith rs1 rs2 (fun c => c != .lt) s

end Sys2Proof.Machine
end

