-- ==== Sys2Proof/Machine/System.lean ====
section
/-! DEFINITION. Family 6 (spec/46_system.md): RDSR and CLRSR. -/

namespace Sys2Proof.Machine

/-- RDSR (R260): executed while halted too (R278). -/
def execRdsr (s : State) : Host.Outcome State Fault Refusal :=
  .next (s.respond (s.sr.setWidth 64))

/-- CLRSR (R261): mask bits 2 and 7 are ignored. -/
def execClrsr (mask : BitVec 8) (s : State) : Host.Outcome State Fault Refusal :=
  s.unlessHalted { s with sr := clearedSr s.sr mask, rsp := some { status := 0x00#8, data := 0#64 } }

end Sys2Proof.Machine
end

