-- ==== Sys2Proof/Machine/Text.lean ====
section
/-! DEFINITION. Family 5 (spec/45_text.md): the numeral grammar (R230), the value of a numeral (R231), the numeral of
a value (R233), and PARSE, PARSES, FORMAT, TBW, TBR. The commands use the value functions; the procedures of R232 and
R234, which no program can tell from them, stand beside and Certificates/Slice0 states that they agree. -/

namespace Sys2Proof.Machine

/-! ### Characters (spec/20_memory.md R44) -/

/-- `+` -/
def charPlus : Byte := 0x2B#8

/-- `-` -/
def charMinus : Byte := 0x2D#8

/-- The character of a decimal digit (R44). -/
def digitChar (d : Nat) : Byte := BitVec.ofNat 8 (0x30 + d)

/-- The value of a digit character, none for any other byte (R44, R230). -/
def digitOf (c : Byte) : Option Nat :=
  if 0x30 ≤ c.toNat ∧ c.toNat ≤ 0x39 then some (c.toNat - 0x30) else none

/-- The digit values of a text, none if some byte of it is no digit (R230). -/
def digitsOf : List Byte → Option (List Nat)
  | [] => some []
  | c :: cs =>
    match digitOf c, digitsOf cs with
    | some d, some ds => some (d :: ds)
    | _, _ => none

/-! ### Parsing (R230, R231) -/

/-- The sum of `d[i] * 10^i` over digits written most significant first (R231). -/
def digitSum : List Nat → Nat
  | [] => 0
  | d :: ds => d * 10 ^ ds.length + digitSum ds

/-- Whether a text starts with `-` (R231). -/
def textNeg (t : List Byte) : Bool := t.head? == some charMinus

/-- A text without its optional sign (R230). -/
def textBody (t : List Byte) : List Byte :=
  if t.head? = some charMinus ∨ t.head? = some charPlus then t.tail else t

/-- `parse_text(t)`: none is `malformed` (R230, R231). -/
def parseText (w : Nat) (t : List Byte) : Option BigInt :=
  match digitsOf (textBody t) with
  | none => none
  | some [] => none
  | some (d :: ds) => some (normalize (limbs w (digitSum (d :: ds))) (textNeg t))

/-- `parse_digits_serial`, with the accumulator so far: `acc*10 + d` for each digit, the most significant first
(R232). The rule writes the magnitude of ten as `[10]`; it is `limbs(10)` here, the same wherever ten is a limb
(notes/assumptions/22.md). -/
def parseSerial (c : Config) : List Nat → List Nat → List Nat
  | acc, [] => acc
  | acc, d :: ds => parseSerial c (addMag c.w (mulMag c acc (limbs c.w 10)) (limbs c.w d)) ds

/-- `pow_mag(10, j)` (R232). -/
def powTen (c : Config) (j : Nat) : List Nat := (powInt c { mag := limbs c.w 10, neg := false } j).mag

/-- `parse_digits_dc` with base size `k0` and the split `j = k div 2`; `fuel` bounds the depth and is at least the
number of digits (R232). -/
def parseDc (c : Config) (k0 : Nat) : Nat → List Nat → List Nat
  | 0, ds => parseSerial c [0] ds
  | fuel + 1, ds =>
    if ds.length ≤ k0 then parseSerial c [0] ds
    else
      let j := ds.length / 2
      let hi := parseDc c k0 fuel (ds.take (ds.length - j))
      let lo := parseDc c k0 fuel (ds.drop (ds.length - j))
      addMag c.w (mulMag c hi (powTen c j)) lo

/-! ### Formatting (R233) -/

/-- The decimal digits of `n` before those already in `acc`; `fuel` is at least the number of digits. -/
def decDigitsAux : Nat → Nat → List Nat → List Nat
  | 0, _, acc => acc
  | fuel + 1, n, acc => if n = 0 then acc else decDigitsAux fuel (n / 10) (n % 10 :: acc)

/-- The decimal digits of a number, most significant first, none for 0 (R233). -/
def decDigits (n : Nat) : List Nat := decDigitsAux n n []

/-- `format_text(v)` (R233). -/
def formatText (w : Nat) (v : BigInt) : List Byte :=
  if v.ival w = 0 then [digitChar 0]
  else (if v.neg then [charMinus] else []) ++ (decDigits (val w v.mag)).map digitChar

/-- The loop of `format_mag_serial`: repeated division by ten, remainders least significant first (R234). -/
def formatSerialLoop (c : Config) : Nat → List Nat → List Byte → List Byte
  | 0, _, out => out
  | fuel + 1, m, out =>
    if val c.w m = 0 then out
    else
      let qr := divmodMag c m (limbs c.w 10)
      formatSerialLoop c fuel qr.1 (digitChar (val c.w qr.2) :: out)

/-- `format_mag_serial(m)` (R234). -/
def formatSerial (c : Config) (m : List Nat) : List Byte := formatSerialLoop c (val c.w m) m []

/-- `zero_pad(t, e)` (R234). -/
def zeroPad (t : List Byte) (e : Nat) : List Byte := List.replicate (e - t.length) (digitChar 0) ++ t

/-- `format_mag_dc(m)` with base size `f0` and the power of ten `e` chosen by any function of the magnitude; `fuel`
bounds the depth and is at least the value (R234). -/
def formatDc (c : Config) (f0 : Nat) (e : List Nat → Nat) : Nat → List Nat → List Byte
  | 0, m => formatSerial c m
  | fuel + 1, m =>
    if bitlen c.w m ≤ f0 then formatSerial c m
    else
      let qr := divmodMag c m (powTen c (e m))
      let lo := if val c.w qr.2 = 0 then [digitChar 0] else formatDc c f0 e fuel qr.2
      formatDc c f0 e fuel qr.1 ++ zeroPad lo (e m)

/-! ### Commands -/

/-- PARSE (R236): RANGE, then FMT, then ALLOC. -/
def execParse (rd : Reg) (addr len : Addr) (s : State) : Host.Outcome State Fault Refusal :=
  s.unlessHalted (s.withText addr len.toNat fun t =>
    match parseText s.cfg.w t with
    | none => s.takeFault .fmt
    | some v => s.writeBack rd v 0#64)

/-- PARSES (R237): malformed text sets PFAIL and responds (OK, 0); success responds (OK, 1). -/
def execParses (rd : Reg) (addr len : Addr) (s : State) : Host.Outcome State Fault Refusal :=
  s.unlessHalted (s.withText addr len.toNat fun t =>
    match parseText s.cfg.w t with
    | none => { s with sr := s.sr ||| srPfail, rsp := some { status := 0x00#8, data := 0#64 } }
    | some v => s.writeBack rd v 1#64)

/-- FORMAT (R238): responds the number of bytes written. -/
def execFormat (rs1 : Reg) (addr : Addr) (s : State) : Host.Outcome State Fault Refusal :=
  s.unlessHalted (s.withSource rs1 fun v =>
    s.storeText addr (formatText s.cfg.w v) (count (formatText s.cfg.w v).length))

/-- TBW (R239). -/
def execTbw (addr : Addr) (byte : Byte) (s : State) : Host.Outcome State Fault Refusal :=
  s.unlessHalted (s.storeText addr [byte] 0#64)

/-- TBR (R240): the byte, zero extended. -/
def execTbr (addr : Addr) (s : State) : Host.Outcome State Fault Refusal :=
  s.unlessHalted (s.withText addr 1 fun t => s.respond ((t.headD 0#8).setWidth 64))

end Sys2Proof.Machine
end

