-- ==== Sys2Proof/Machine/Dispatch.lean ====
section
/-! DEFINITION. One arm per command of rule R66 (spec/30_encoding.md), each a direct call of its meaning. -/

namespace Sys2Proof.Machine

/-- The effect of a decoded command on the state. -/
def exec (i : Instr) (s : State) : Host.Outcome State Fault Refusal :=
  match i with
  | .ldi rd imm => Sys2Proof.Machine.execLdi rd imm s
  | .mov rd rs1 => Sys2Proof.Machine.execMov rd rs1 s
  | .drop rd => Sys2Proof.Machine.execDrop rd s
  | .abs rd rs1 => Sys2Proof.Machine.execAbs rd rs1 s
  | .iszero rs1 => Sys2Proof.Machine.execIszero rs1 s
  | .isneg rs1 => Sys2Proof.Machine.execIsneg rs1 s
  | .size rs1 => Sys2Proof.Machine.execSize rs1 s
  | .clz rs1 => Sys2Proof.Machine.execClz rs1 s
  | .ceq rs1 rs2 => Sys2Proof.Machine.execCeq rs1 rs2 s
  | .cne rs1 rs2 => Sys2Proof.Machine.execCne rs1 rs2 s
  | .clt rs1 rs2 => Sys2Proof.Machine.execClt rs1 rs2 s
  | .cle rs1 rs2 => Sys2Proof.Machine.execCle rs1 rs2 s
  | .cgt rs1 rs2 => Sys2Proof.Machine.execCgt rs1 rs2 s
  | .cge rs1 rs2 => Sys2Proof.Machine.execCge rs1 rs2 s
  | .add rd rs1 rs2 => Sys2Proof.Machine.execAdd rd rs1 rs2 s
  | .sub rd rs1 rs2 => Sys2Proof.Machine.execSub rd rs1 rs2 s
  | .neg rd rs1 => Sys2Proof.Machine.execNeg rd rs1 s
  | .inc rd rs1 => Sys2Proof.Machine.execInc rd rs1 s
  | .dec rd rs1 => Sys2Proof.Machine.execDec rd rs1 s
  | .mul rd rs1 rs2 => Sys2Proof.Machine.execMul rd rs1 rs2 s
  | .pow rd rs1 e => Sys2Proof.Machine.execPow rd rs1 e s
  | .divmod rd rd2 rs1 rs2 => Sys2Proof.Machine.execDivmod rd rd2 rs1 rs2 s
  | .div rd rs1 rs2 => Sys2Proof.Machine.execDiv rd rs1 rs2 s
  | .mod rd rs1 rs2 => Sys2Proof.Machine.execMod rd rs1 rs2 s
  | .shl rd rs1 amount => Sys2Proof.Machine.execShl rd rs1 amount s
  | .shr rd rs1 amount => Sys2Proof.Machine.execShr rd rs1 amount s
  | .and rd rs1 rs2 => Sys2Proof.Machine.execAnd rd rs1 rs2 s
  | .or rd rs1 rs2 => Sys2Proof.Machine.execOr rd rs1 rs2 s
  | .xor rd rs1 rs2 => Sys2Proof.Machine.execXor rd rs1 rs2 s
  | .not rd rs1 => Sys2Proof.Machine.execNot rd rs1 s
  | .parse rd addr len => Sys2Proof.Machine.execParse rd addr len s
  | .parses rd addr len => Sys2Proof.Machine.execParses rd addr len s
  | .format rs1 addr => Sys2Proof.Machine.execFormat rs1 addr s
  | .tbw addr byte => Sys2Proof.Machine.execTbw addr byte s
  | .tbr addr => Sys2Proof.Machine.execTbr addr s
  | .rdsr => Sys2Proof.Machine.execRdsr s
  | .clrsr mask => Sys2Proof.Machine.execClrsr mask s

end Sys2Proof.Machine
end

