-- ==== Sys2Proof/Machine/Command.lean ====
section
/-! DEFINITION. Accepting one command (spec/30_encoding.md R61, R62, R67) and taking the host's next item. -/

namespace Sys2Proof.Machine

/-- An illegal command: HALTED while halted, else ILLCMD with the command word (R67, R275, R278, R281). -/
def illegalCommand (word : CmdWord) (s : State) : Host.Outcome State Fault Refusal :=
  s.unlessHalted (s.takeFault (.illcmd word))

/-- One command from acceptance to response (R61): decode its 96 bits and run it. -/
def runCommand (word : CmdWord) (imm : Imm) (s : State) : Host.Outcome State Fault Refusal :=
  match decode word imm with
  | .ok i => exec i s
  | .error _ => illegalCommand word s

/-- One item of what the host does (R306). -/
def runEvent (e : HostEvent) (s : State) : Host.Outcome State Fault Refusal :=
  match e with
  | .command word imm => runCommand word imm s
  | .reset => .next s.takeReset

/-- The next item the host offers, if any, and the state once it has been taken. -/
def State.nextEvent (s : State) : Option (HostEvent × State) :=
  match s.input with
  | [] => none
  | e :: rest => some (e, { s with input := rest })

/-- A command placed as the next one the host offers (R62). -/
def State.offer (s : State) (word : CmdWord) (imm : Imm) : State :=
  { s with input := .command word imm :: s.input }

end Sys2Proof.Machine
end

