-- ==== Sys2Proof/Machine/Step.lean ====
section
/-! DEFINITION. One step of CORE: one item of what the host does, a command run to its response (spec/00_scope.md R7,
spec/30_encoding.md R61) or a reset (spec/70_reset_and_hazards.md R300). With nothing offered CORE idles (R285). -/

namespace Sys2Proof.Machine

/-- One step: a next state, a fault (there is none) or a refusal. -/
def step (s : State) : Host.Outcome State Fault Refusal :=
  match s.nextEvent with
  | none => .next s
  | some (e, s') => runEvent e s'

/-- `s` with the command `w` of spec/opcode_table.json's bit numbering offered next, so that `step` runs exactly it. -/
def State.withFetchWord (s : State) (nbits w : Nat) : State := s.offer (tableWord nbits w) (tableImm nbits w)

end Sys2Proof.Machine
end

