-- ==== Sys2Proof/Machine/Assembler.lean ====
section
/-! DEFINITION. The written form of a command (spec/30_encoding.md R71) and the pseudo-instructions and compound forms
of rule R72, each as the commands it expands to. -/

namespace Sys2Proof.Machine

/-- `x0` to `x15` (R71). -/
def regText (r : Reg) : String := "x" ++ toString r.val

/-- An unsigned immediate in decimal (R71). -/
def immText {n : Nat} (v : BitVec n) : String := toString v.toNat

/-- The operands of a command in the order of rule R66's column, as rule R71 writes them. -/
def operandTexts : Instr → List String
  | .ldi rd imm => [regText rd, toString imm.toInt]
  | .mov rd rs1 => [regText rd, regText rs1]
  | .drop rd => [regText rd]
  | .abs rd rs1 => [regText rd, regText rs1]
  | .iszero rs1 => [regText rs1]
  | .isneg rs1 => [regText rs1]
  | .size rs1 => [regText rs1]
  | .clz rs1 => [regText rs1]
  | .ceq rs1 rs2 => [regText rs1, regText rs2]
  | .cne rs1 rs2 => [regText rs1, regText rs2]
  | .clt rs1 rs2 => [regText rs1, regText rs2]
  | .cle rs1 rs2 => [regText rs1, regText rs2]
  | .cgt rs1 rs2 => [regText rs1, regText rs2]
  | .cge rs1 rs2 => [regText rs1, regText rs2]
  | .add rd rs1 rs2 => [regText rd, regText rs1, regText rs2]
  | .sub rd rs1 rs2 => [regText rd, regText rs1, regText rs2]
  | .neg rd rs1 => [regText rd, regText rs1]
  | .inc rd rs1 => [regText rd, regText rs1]
  | .dec rd rs1 => [regText rd, regText rs1]
  | .mul rd rs1 rs2 => [regText rd, regText rs1, regText rs2]
  | .pow rd rs1 e => [regText rd, regText rs1, immText e]
  | .divmod rd rd2 rs1 rs2 => [regText rd, regText rd2, regText rs1, regText rs2]
  | .div rd rs1 rs2 => [regText rd, regText rs1, regText rs2]
  | .mod rd rs1 rs2 => [regText rd, regText rs1, regText rs2]
  | .shl rd rs1 s => [regText rd, regText rs1, immText s]
  | .shr rd rs1 s => [regText rd, regText rs1, immText s]
  | .and rd rs1 rs2 => [regText rd, regText rs1, regText rs2]
  | .or rd rs1 rs2 => [regText rd, regText rs1, regText rs2]
  | .xor rd rs1 rs2 => [regText rd, regText rs1, regText rs2]
  | .not rd rs1 => [regText rd, regText rs1]
  | .parse rd addr len => [regText rd, immText addr, immText len]
  | .parses rd addr len => [regText rd, immText addr, immText len]
  | .format rs1 addr => [regText rs1, immText addr]
  | .tbw addr byte => [immText addr, immText byte]
  | .tbr addr => [immText addr]
  | .rdsr => []
  | .clrsr mask => [immText mask]

/-- A command as rule R71 writes it: the mnemonic, then the operands separated by commas. -/
def asmText (i : Instr) : String :=
  match operandTexts i with
  | [] => i.op.mnemonic
  | a :: as => i.op.mnemonic ++ " " ++ String.intercalate ", " (a :: as)

/-- `ZERO xd` (R72). -/
def pseudoZero (rd : Reg) : List Instr := [.ldi rd 0#64]

/-- `ONE xd` (R72). -/
def pseudoOne (rd : Reg) : List Instr := [.ldi rd 1#64]

/-- `SQR xd, xs` (R72). -/
def pseudoSqr (rd rs : Reg) : List Instr := [.mul rd rs rs]

/-- `PUTS addr, text`: one TBW per byte, in order, none for an empty text (R72). DESIGN CHOICE (unsafe,
notes/assumptions/24.md): a TBW carries a 32-bit address, the rule writes `addr+i` on unbounded integers, and an address
that reaches `2^32` wraps to 0 here. -/
def pseudoPuts (addr : Addr) : List Byte → List Instr
  | [] => []
  | b :: bs => .tbw addr b :: pseudoPuts (addr + 1#32) bs

/-- Pre-increment and pre-decrement (R72). -/
def preIncrement (a : Reg) : List Instr := [.inc a a]
def preDecrement (a : Reg) : List Instr := [.dec a a]

/-- Post-increment and post-decrement, the value before the change kept in `t` (R72). -/
def postIncrement (t a : Reg) : List Instr := [.mov t a, .inc a a]
def postDecrement (t a : Reg) : List Instr := [.mov t a, .dec a a]

/-- `a / b` and `a % b` wanted together (R72). -/
def quotientAndRemainder (q r a b : Reg) : List Instr := [.divmod q r a b]

/-- The in-place form of a three-register command: `rd = rs1` (R72, R304). -/
def inPlace (command : Reg → Reg → Reg → Instr) (a b : Reg) : List Instr := [command a a b]

/-- The in-place form of a shift (R72). -/
def inPlaceShift (command : Reg → Reg → Imm → Instr) (a : Reg) (s : Imm) : List Instr := [command a a s]

/-- Commands as the host offers them, first to last (R61). -/
def asEvents (is : List Instr) : List HostEvent := is.map fun i => .command (encode i).1 (encode i).2

end Sys2Proof.Machine
end

