-- ==== Sys2Proof/Machine/Handshake.lean ====
section
/-! DEFINITION. The ports and the valid/ready handshake of spec/30_encoding.md R60, R61, clock edge by clock edge, with
reset (spec/70_reset_and_hazards.md R300) and a latency that is finite and otherwise unspecified (R309). This is the
level below State: at the command level the handshake is not state (spec/10_state.md R32), so `step` does not use it.
A block owns a command-level state and drives it through its ports. -/

namespace Sys2Proof

/-- FREE VALUE (notes/assumptions/18.md). The number of clock cycles between the acceptance of the `n`-th command and
the cycle in which its response is valid: finite and otherwise unspecified, 0 not excluded, and free to depend on the
command, on the operands and parameters in the state it runs from, and on the implementation (R61, R309). -/
opaque Config.freeLatency (n : Nat) (s : Machine.State) (word : CmdWord) (imm : Imm) : Nat

end Sys2Proof

namespace Sys2Proof.Machine

/-- The inputs sampled at one rising edge of `clk` (R60). -/
structure PortIn where
  rst : Bool
  cmdValid : Bool
  cmdWord : CmdWord
  cmdImm : Imm
  rspReady : Bool
  deriving DecidableEq, Repr

/-- The outputs in one cycle (R60); `rsp` is `rsp_status` and `rsp_data` while `rsp_valid` is 1, and none while it is
0, when the rules give those two ports no value. -/
structure PortOut where
  cmdReady : Bool
  rspValid : Bool
  rsp : Option Response
  deriving DecidableEq, Repr

/-- Where the handshake stands (R32, R61). -/
inductive Phase where
  /-- `cmd_ready` is 1. -/
  | idle
  /-- A command is accepted and not answered: after this cycle `left` more such cycles come before its response. -/
  | busy (word : CmdWord) (imm : Imm) (left : Nat)
  /-- `rsp_valid` is 1 until a cycle in which `rsp_ready` is 1. -/
  | responding
  deriving DecidableEq, Repr

/-- CORE behind its ports. `accepted` is the model's own field: how many commands have been accepted, the argument of
the free latency. -/
structure Block where
  core : State
  phase : Phase
  accepted : Nat
  deriving DecidableEq, Repr

/-- The command-level state after one command (R61: all effects are complete when `rsp_valid` rises). -/
def State.afterCommand (s : State) (word : CmdWord) (imm : Imm) : State :=
  match runCommand word imm s with
  | .next t => t
  | .fault _ => s
  | .refused _ => s

/-- The outputs in a cycle, given `rst` in that cycle: while it is 1, `cmd_ready` and `rsp_valid` are 0 (R61, R300). -/
def Block.outputs (b : Block) (rst : Bool) : PortOut :=
  match rst, b.phase with
  | true, _ => { cmdReady := false, rspValid := false, rsp := none }
  | false, .idle => { cmdReady := true, rspValid := false, rsp := none }
  | false, .busy _ _ _ => { cmdReady := false, rspValid := false, rsp := none }
  | false, .responding => { cmdReady := false, rspValid := true, rsp := b.core.rsp }

/-- The block in the next cycle while a command is being executed, `n` cycles before its response: with none left, all
its effects are complete and the response is valid (R61). -/
def Block.computing (b : Block) (word : CmdWord) (imm : Imm) : Nat → Block
  | 0 => { b with core := b.core.afterCommand word imm, phase := .responding }
  | n + 1 => { b with phase := .busy word imm n }

/-- One rising edge of `clk` (R61, R300). -/
def Block.clockEdge (b : Block) (i : PortIn) : Block :=
  match i.rst, b.phase with
  | true, _ => { b with core := b.core.takeReset, phase := .idle }
  | false, .idle =>
    if i.cmdValid then
      ({ b with accepted := b.accepted + 1 } : Block).computing i.cmdWord i.cmdImm
        (Config.freeLatency b.accepted b.core i.cmdWord i.cmdImm)
    else b
  | false, .busy word imm left => b.computing word imm left
  | false, .responding => if i.rspReady then { b with phase := .idle } else b

/-- Consecutive clock edges. -/
def Block.clockEdges (b : Block) : List PortIn → Block
  | [] => b
  | i :: is => (b.clockEdge i).clockEdges is

end Sys2Proof.Machine
end

