-- ==== Sys2Proof/Safety.lean ====
section
/-! DEFINITION. The terms claims about CORE are stated in: the invariants of spec/10_state.md R21, R23, R28 over every
state, when CORE runs commands, what a fault leaves, and the outcome of a run (spec/70_reset_and_hazards.md R303). -/

namespace Sys2Proof

/-- The source registers of a command, `rs1` first (R66, R276). -/
def Instr.sources : Instr → List Reg
  | .ldi _ _ => []
  | .mov _ rs1 => [rs1]
  | .drop _ => []
  | .abs _ rs1 => [rs1]
  | .iszero rs1 => [rs1]
  | .isneg rs1 => [rs1]
  | .size rs1 => [rs1]
  | .clz rs1 => [rs1]
  | .ceq rs1 rs2 => [rs1, rs2]
  | .cne rs1 rs2 => [rs1, rs2]
  | .clt rs1 rs2 => [rs1, rs2]
  | .cle rs1 rs2 => [rs1, rs2]
  | .cgt rs1 rs2 => [rs1, rs2]
  | .cge rs1 rs2 => [rs1, rs2]
  | .add _ rs1 rs2 => [rs1, rs2]
  | .sub _ rs1 rs2 => [rs1, rs2]
  | .neg _ rs1 => [rs1]
  | .inc _ rs1 => [rs1]
  | .dec _ rs1 => [rs1]
  | .mul _ rs1 rs2 => [rs1, rs2]
  | .pow _ rs1 _ => [rs1]
  | .divmod _ _ rs1 rs2 => [rs1, rs2]
  | .div _ rs1 rs2 => [rs1, rs2]
  | .mod _ rs1 rs2 => [rs1, rs2]
  | .shl _ rs1 _ => [rs1]
  | .shr _ rs1 _ => [rs1]
  | .and _ rs1 rs2 => [rs1, rs2]
  | .or _ rs1 rs2 => [rs1, rs2]
  | .xor _ rs1 rs2 => [rs1, rs2]
  | .not _ rs1 => [rs1]
  | .parse _ _ _ => []
  | .parses _ _ _ => []
  | .format rs1 _ => [rs1]
  | .tbw _ _ => []
  | .tbr _ => []
  | .rdsr => []
  | .clrsr _ => []

/-- The destination registers of a command (R66). -/
def Instr.dests : Instr → List Reg
  | .ldi rd _ => [rd]
  | .mov rd _ => [rd]
  | .drop rd => [rd]
  | .abs rd _ => [rd]
  | .iszero _ => []
  | .isneg _ => []
  | .size _ => []
  | .clz _ => []
  | .ceq _ _ => []
  | .cne _ _ => []
  | .clt _ _ => []
  | .cle _ _ => []
  | .cgt _ _ => []
  | .cge _ _ => []
  | .add rd _ _ => [rd]
  | .sub rd _ _ => [rd]
  | .neg rd _ => [rd]
  | .inc rd _ => [rd]
  | .dec rd _ => [rd]
  | .mul rd _ _ => [rd]
  | .pow rd _ _ => [rd]
  | .divmod rd rd2 _ _ => [rd, rd2]
  | .div rd _ _ => [rd]
  | .mod rd _ _ => [rd]
  | .shl rd _ _ => [rd]
  | .shr rd _ _ => [rd]
  | .and rd _ _ => [rd]
  | .or rd _ _ => [rd]
  | .xor rd _ _ => [rd]
  | .not rd _ => [rd]
  | .parse rd _ _ => [rd]
  | .parses rd _ _ => [rd]
  | .format _ _ => []
  | .tbw _ _ => []
  | .tbr _ => []
  | .rdsr => []
  | .clrsr _ => []

end Sys2Proof

namespace Sys2Proof.Machine

/-- A magnitude of limbs in `[0, RADIX)` that is not empty and has no most-significant zero limb but that of `[0]`
(R11, R23(a), R23(c)). -/
abbrev NormalMag (w : Nat) (m : List Nat) : Prop :=
  (∀ l ∈ m, l < 2 ^ w) ∧ m ≠ [] ∧ (m.length = 1 ∨ top m ≠ 0)

/-- A normalised value: and zero is not negative (R23). -/
abbrev BigInt.Normal (w : Nat) (v : BigInt) : Prop := NormalMag w v.mag ∧ (val w v.mag = 0 → v.neg = false)

/-- Every register that holds a value holds a normalised one of at most `MAX_LIMBS` limbs (R21, R23). -/
abbrev State.RegsNormal (s : State) : Prop :=
  ∀ i : Reg, ∀ v ∈ s.x[i], v.Normal s.cfg.w ∧ fits s.cfg v.mag = true

/-- The text buffer is in its canonical form and lists no address outside `TBUF` (R40, R41). -/
abbrev State.TbufOk (s : State) : Prop := Tbuf.wf s.tbuf = true ∧ ∀ c ∈ s.tbuf, c.1 < s.cfg.tbufBytes

/-- HALT is set together with ALLOC, and both are cleared by reset only (R28). -/
abbrev State.HaltOk (s : State) : Prop := s.sr.getLsbD 2 = s.sr.getLsbD 7

/-- The invariant of the machine: admitted parameters (R5), normalised registers, a canonical text buffer, and HALT
with ALLOC. -/
abbrev State.Inv (s : State) : Prop := s.cfg.Legal ∧ s.RegsNormal ∧ s.TbufOk ∧ s.HaltOk

/-- Not halted: `SR.HALT` is 0 (R278). -/
abbrev State.Running (s : State) : Prop := s.sr.getLsbD 7 = false

/-- Register `i` holds the value `v` (R25). -/
abbrev State.Holds (s : State) (i : Reg) (v : BigInt) : Prop := s.x[i] = some v

/-- Register `i` holds no value: `V[i] = 0` (R25). -/
abbrev State.Empty (s : State) (i : Reg) : Prop := s.x[i] = none

/-! ### The states the rules leave, written out -/

/-- A command that only responds: status OK and the data `d`, nothing else changed (R70). -/
def State.answered (s : State) (d : BitVec 64) : State := { s with rsp := some ⟨0x00#8, d⟩ }

/-- A command that wrote register `rd` and responded (OK, d), nothing else changed (R12, R70). -/
def State.wrote (s : State) (rd : Reg) (v : BigInt) (d : BitVec 64) : State :=
  { s with x := s.x.set rd (some v), rsp := some ⟨0x00#8, d⟩ }

/-- A fault other than ALLOC: its `SR` bits set, its response given, nothing else changed (R279, R280). -/
def State.faulted (s : State) (bits status : BitVec 8) (d : BitVec 64) : State :=
  { s with sr := s.sr ||| bits, rsp := some ⟨status, d⟩ }

/-- ALLOC: as a fault, and the destination holds `o`, which the rules leave open (R274). -/
def State.exhausted (s : State) (rd : Reg) (o : Option BigInt) : State :=
  { s with x := s.x.set rd o, sr := s.sr ||| 0x84#8, rsp := some ⟨0x03#8, 0#64⟩ }

/-! ### Runs (R303) -/

/-- The responses of the next `k` steps, one per command, in order. -/
def State.responses (s : State) : Nat → List Response
  | 0 => []
  | k + 1 =>
    match s.input, step s with
    | .command _ _ :: _, .next t => t.rsp.toList ++ t.responses k
    | _, .next t => t.responses k
    | _, _ => []

/-- The faults of the next `k` steps: each response whose status is not OK, with its place among the responses. -/
def State.runFaults (s : State) (k : Nat) : List (Response × Nat) :=
  (s.responses k).zipIdx.filter fun p => p.1.status != 0x00#8

/-- The state after `k` steps. -/
def State.afterSteps (s : State) (k : Nat) : State :=
  match Host.Core.run { State := State, Fault := Fault, Refusal := Refusal, step := step, reset := State.reset } k s with
  | .next t => t
  | .fault _ => s
  | .refused _ => s

/-- A run of `k` steps that ended well, given the faults its program provokes on purpose: every response has status OK
and `SR` is 0, where it provokes none, and otherwise the faults are exactly the intended ones (R303;
notes/assumptions/25.md). -/
def State.endsWell (s : State) (k : Nat) (intended : List (Response × Nat)) : Bool :=
  decide (s.runFaults k = intended) && (decide (intended ≠ []) || decide ((s.afterSteps k).sr = 0x00#8))

/-- A run of `k` steps in which `SR.HALT` became 1, which only ALLOC does: it failed in the document's sense (R303). -/
def State.runFailed (s : State) (k : Nat) : Bool := (s.responses k).any fun r => r.status == 0x03#8

end Sys2Proof.Machine
end

