-- ==== Sys2Proof/Certificates/Slice0/Obligations.lean ====
section
/-! DEFINITION. The statements about CORE that the provers are given, each a `def Obligations.<Name> : Prop`, and the
vocabulary they share (`Sys2Proof.Claims`). Each docstring names the rule of spec/ the statement formalises. No
statement rests on the value of a free constant of Config. -/

namespace Sys2Proof.Claims

open Sys2Proof.Machine

/-! ### What a command names -/

/-- The text buffer range a command stores to, as address and length, computed from the same operands and the same
numeral its meaning uses; length 0 where it stores nothing (R239, R238). -/
def stored (i : Instr) (s : State) : Nat × Nat :=
  match i with
  | .tbw addr _ => (addr.toNat, 1)
  | .format rs1 addr =>
    match s.x[rs1] with
    | some v => (addr.toNat, (formatText s.cfg.w v).length)
    | none => (addr.toNat, 0)
  | _ => (0, 0)

/-- The first of some registers that holds no value. -/
def firstEmpty (s : State) : List Reg → Option Reg
  | [] => none
  | r :: rs => if s.valid r then firstEmpty s rs else some r

/-- Whether a register holds the value zero. -/
def holdsZero (s : State) (r : Reg) : Bool :=
  match s.x[r] with
  | some v => decide (v.ival s.cfg.w = 0)
  | none => false

/-- The text a command reads: the bytes of `TBUF` at `addr` to `addr + len - 1`, lowest address first (R12). -/
def textAt (s : State) (addr len : Addr) : List Byte :=
  (List.range len.toNat).map fun k => s.tbufByte (addr.toNat + k)

/-! ### The opcode table of spec/opcode_table.json, written out (R64, R65, R66) -/

/-- One row: opcode (the match value), word mask, imm mask, mnemonic. -/
structure Row where
  code : BitVec 8
  wordMask : BitVec 32
  immMask : BitVec 64
  mnemonic : String

def tableLimbStore : List Row :=
  [⟨0x01#8, 0xFFFFF0FF#32, 0x0000000000000000#64, "LDI"⟩,
   ⟨0x02#8, 0xFFFF00FF#32, 0xFFFFFFFFFFFFFFFF#64, "MOV"⟩,
   ⟨0x03#8, 0xFFFFF0FF#32, 0xFFFFFFFFFFFFFFFF#64, "DROP"⟩,
   ⟨0x04#8, 0xFFFF00FF#32, 0xFFFFFFFFFFFFFFFF#64, "ABS"⟩,
   ⟨0x05#8, 0xFFFF0FFF#32, 0xFFFFFFFFFFFFFFFF#64, "ISZERO"⟩,
   ⟨0x06#8, 0xFFFF0FFF#32, 0xFFFFFFFFFFFFFFFF#64, "ISNEG"⟩,
   ⟨0x07#8, 0xFFFF0FFF#32, 0xFFFFFFFFFFFFFFFF#64, "SIZE"⟩,
   ⟨0x08#8, 0xFFFF0FFF#32, 0xFFFFFFFFFFFFFFFF#64, "CLZ"⟩,
   ⟨0x09#8, 0xFFF00FFF#32, 0xFFFFFFFFFFFFFFFF#64, "CEQ"⟩,
   ⟨0x0A#8, 0xFFF00FFF#32, 0xFFFFFFFFFFFFFFFF#64, "CNE"⟩,
   ⟨0x0B#8, 0xFFF00FFF#32, 0xFFFFFFFFFFFFFFFF#64, "CLT"⟩,
   ⟨0x0C#8, 0xFFF00FFF#32, 0xFFFFFFFFFFFFFFFF#64, "CLE"⟩,
   ⟨0x0D#8, 0xFFF00FFF#32, 0xFFFFFFFFFFFFFFFF#64, "CGT"⟩,
   ⟨0x0E#8, 0xFFF00FFF#32, 0xFFFFFFFFFFFFFFFF#64, "CGE"⟩]

def tableArithmetic : List Row :=
  [⟨0x10#8, 0xFFF000FF#32, 0xFFFFFFFFFFFFFFFF#64, "ADD"⟩,
   ⟨0x11#8, 0xFFF000FF#32, 0xFFFFFFFFFFFFFFFF#64, "SUB"⟩,
   ⟨0x12#8, 0xFFFF00FF#32, 0xFFFFFFFFFFFFFFFF#64, "NEG"⟩,
   ⟨0x13#8, 0xFFFF00FF#32, 0xFFFFFFFFFFFFFFFF#64, "INC"⟩,
   ⟨0x14#8, 0xFFFF00FF#32, 0xFFFFFFFFFFFFFFFF#64, "DEC"⟩,
   ⟨0x20#8, 0xFFF000FF#32, 0xFFFFFFFFFFFFFFFF#64, "MUL"⟩,
   ⟨0x21#8, 0xFFFF00FF#32, 0x0000000000000000#64, "POW"⟩,
   ⟨0x30#8, 0xFF0000FF#32, 0xFFFFFFFFFFFFFFFF#64, "DIVMOD"⟩,
   ⟨0x31#8, 0xFFF000FF#32, 0xFFFFFFFFFFFFFFFF#64, "DIV"⟩,
   ⟨0x32#8, 0xFFF000FF#32, 0xFFFFFFFFFFFFFFFF#64, "MOD"⟩]

def tableBitwiseTextSystem : List Row :=
  [⟨0x40#8, 0xFFFF00FF#32, 0x0000000000000000#64, "SHL"⟩,
   ⟨0x41#8, 0xFFFF00FF#32, 0x0000000000000000#64, "SHR"⟩,
   ⟨0x42#8, 0xFFF000FF#32, 0xFFFFFFFFFFFFFFFF#64, "AND"⟩,
   ⟨0x43#8, 0xFFF000FF#32, 0xFFFFFFFFFFFFFFFF#64, "OR"⟩,
   ⟨0x44#8, 0xFFF000FF#32, 0xFFFFFFFFFFFFFFFF#64, "XOR"⟩,
   ⟨0x45#8, 0xFFFF00FF#32, 0xFFFFFFFFFFFFFFFF#64, "NOT"⟩,
   ⟨0x50#8, 0xFFFFF0FF#32, 0x0000000000000000#64, "PARSE"⟩,
   ⟨0x51#8, 0xFFFFF0FF#32, 0x0000000000000000#64, "PARSES"⟩,
   ⟨0x52#8, 0xFFFF0FFF#32, 0xFFFFFFFF00000000#64, "FORMAT"⟩,
   ⟨0x53#8, 0xFFFFFFFF#32, 0xFFFFFF0000000000#64, "TBW"⟩,
   ⟨0x54#8, 0xFFFFFFFF#32, 0xFFFFFFFF00000000#64, "TBR"⟩,
   ⟨0x60#8, 0xFFFFFFFF#32, 0xFFFFFFFFFFFFFFFF#64, "RDSR"⟩,
   ⟨0x61#8, 0xFFFFFFFF#32, 0xFFFFFFFFFFFFFF00#64, "CLRSR"⟩]

/-- The 37 rows. -/
def opcodeTable : List Row := tableLimbStore ++ tableArithmetic ++ tableBitwiseTextSystem

/-- A well-formed instance of the row: the word passes its mask, the immediate passes its own, and DIVMOD names two
different destinations (R64, R65, R67(e)). -/
def Row.Matches (r : Row) (word : CmdWord) (imm : Imm) : Prop :=
  word &&& r.wordMask = r.code.setWidth 32 ∧ imm &&& r.immMask = 0#64 ∧
    ¬(r.code = 0x30#8 ∧ word.extractLsb' 8 4 = word.extractLsb' 20 4)

/-! ### Shapes of the command rules -/

/-- "Encoding: opcode, format" of a command rule, read off the encoder's word. -/
def EncodedAs (i : Instr) (code : BitVec 8) (fmt : Format) : Prop :=
  (encode i).1.extractLsb' 0 8 = code ∧ i.op.fmt = fmt

/-- "Faults: UNINIT" of a command with one source register. -/
def ReadsOne (i : Instr) (rs1 : Reg) : Prop :=
  ∀ s : State, s.Running → s.Empty rs1 → exec i s = .next (s.faulted 0x10#8 0x05#8 (BitVec.ofNat 64 rs1.val))

/-- "Faults: UNINIT" of a command with two source registers, `rs1` examined first. -/
def ReadsTwo (i : Instr) (rs1 rs2 : Reg) : Prop :=
  ∀ s : State, s.Running →
    (s.Empty rs1 → exec i s = .next (s.faulted 0x10#8 0x05#8 (BitVec.ofNat 64 rs1.val))) ∧
    (∀ a, s.Holds rs1 a → s.Empty rs2 → exec i s = .next (s.faulted 0x10#8 0x05#8 (BitVec.ofNat 64 rs2.val)))

/-- The command writes `mk(z)` to `rd` and responds (OK, d), or ends with ALLOC if `mk(z)` has more than `MAX_LIMBS`
limbs; what `rd` then holds is left open (R274). -/
def Writes (i : Instr) (s : State) (rd : Reg) (z : Int) (d : BitVec 64) : Prop :=
  (fits s.cfg (mkInt s.cfg.w z).mag = true → exec i s = .next (s.wrote rd (mkInt s.cfg.w z) d)) ∧
  (fits s.cfg (mkInt s.cfg.w z).mag = false → ∃ o, exec i s = .next (s.exhausted rd o))

/-- The command writes `mk(z)` to `rd` and responds (OK, 0): "ALLOC cannot occur". -/
def WritesAlways (i : Instr) (s : State) (rd : Reg) (z : Int) : Prop :=
  exec i s = .next (s.wrote rd (mkInt s.cfg.w z) 0#64)

/-- A comparison command: opcode, format S2, UNINIT, and the relation on the integer values as response data. -/
def Compares (cmd : Reg → Reg → Instr) (code : BitVec 8) (test : Int → Int → Bool) : Prop :=
  ∀ rs1 rs2 : Reg, EncodedAs (cmd rs1 rs2) code .s2 ∧ ReadsTwo (cmd rs1 rs2) rs1 rs2 ∧
    ∀ (s : State) (a b : BigInt), s.Inv → s.Running → s.Holds rs1 a → s.Holds rs2 b →
      exec (cmd rs1 rs2) s =
        .next (s.answered (if test (a.ival s.cfg.w) (b.ival s.cfg.w) then 1#64 else 0#64))

/-- A command of format R3 whose result can be too long: the integer `f` of its operands. -/
def BinaryGrowing (cmd : Reg → Reg → Reg → Instr) (code : BitVec 8) (f : Int → Int → Int) : Prop :=
  ∀ rd rs1 rs2 : Reg, EncodedAs (cmd rd rs1 rs2) code .r3 ∧ ReadsTwo (cmd rd rs1 rs2) rs1 rs2 ∧
    ∀ (s : State) (a b : BigInt), s.Inv → s.Running → s.Holds rs1 a → s.Holds rs2 b →
      Writes (cmd rd rs1 rs2) s rd (f (a.ival s.cfg.w) (b.ival s.cfg.w)) 0#64

/-- A logic command of format R3: the operation on the magnitudes, negative as the signs say. -/
def Logic (cmd : Reg → Reg → Reg → Instr) (code : BitVec 8) (f : Nat → Nat → Nat) (sign : Bool → Bool → Bool) : Prop :=
  ∀ rd rs1 rs2 : Reg, EncodedAs (cmd rd rs1 rs2) code .r3 ∧ ReadsTwo (cmd rd rs1 rs2) rs1 rs2 ∧
    ∀ (s : State) (a b : BigInt), s.Inv → s.Running → s.Holds rs1 a → s.Holds rs2 b →
      WritesAlways (cmd rd rs1 rs2) s rd
        ((if sign a.neg b.neg then -1 else 1) * (f (val s.cfg.w a.mag) (val s.cfg.w b.mag) : Int))

/-- A command of format R2 whose result can be too long. -/
def UnaryGrowing (cmd : Reg → Reg → Instr) (code : BitVec 8) (f : Int → Int) : Prop :=
  ∀ rd rs1 : Reg, EncodedAs (cmd rd rs1) code .r2 ∧ ReadsOne (cmd rd rs1) rs1 ∧
    ∀ (s : State) (a : BigInt), s.Inv → s.Running → s.Holds rs1 a →
      Writes (cmd rd rs1) s rd (f (a.ival s.cfg.w)) 0#64

/-- A division command: UNINIT, then DIVZ on a zero divisor, which leaves every register as it was. -/
def Divides (i : Instr) (rs1 rs2 : Reg) : Prop :=
  ReadsTwo i rs1 rs2 ∧
    ∀ (s : State) (a b : BigInt), s.Running → s.Holds rs1 a → s.Holds rs2 b → b.ival s.cfg.w = 0 →
      exec i s = .next (s.faulted 0x01#8 0x01#8 0#64)

/-- `tdiv(a, b)` of R181. -/
def tdiv (a b : Int) : Int := a.sign * b.sign * ((a.natAbs / b.natAbs : Nat) : Int)

/-- `tmod(a, b)` of R181. -/
def tmod (a b : Int) : Int := a.sign * ((a.natAbs % b.natAbs : Nat) : Int)

/-- A magnitude: a non-empty sequence of limbs in `[0, RADIX)` (R11). -/
def Magnitude (w : Nat) (m : List Nat) : Prop := m ≠ [] ∧ ∀ l ∈ m, l < 2 ^ w

/-- The divisor's leading limb has its top bit set (R185). -/
def TopBitSet (w : Nat) (b : List Nat) : Prop := 2 ^ (w - 1) ≤ top b

/-! ### Numerals (R230, R235) -/

/-- The sign characters a numeral may start with. -/
def signTexts : List (List Byte) := [[], [0x2B#8], [0x2D#8]]

/-- `0` digits dropped from the front while more than one digit remains (R235). -/
def dropZeros : List Byte → List Byte
  | [] => []
  | [c] => [c]
  | c :: d :: cs => if c = 0x30#8 then dropZeros (d :: cs) else c :: d :: cs

/-- `canon(s)` of a numeral (R235). -/
def canon (t : List Byte) : List Byte :=
  if t.head? = some 0x2D#8 then
    if dropZeros t.tail = [0x30#8] then [0x30#8] else 0x2D#8 :: dropZeros t.tail
  else if t.head? = some 0x2B#8 then dropZeros t.tail
  else dropZeros t

end Sys2Proof.Claims

open Sys2Proof Sys2Proof.Machine Sys2Proof.Claims

/-! ## Encoding -/

/-- R62 to R66: decoding the encoding of a well-formed command gives it back, every operand at every value. -/
def Obligations.DecodeEncodeRoundTrip : Prop :=
  ∀ i : Instr, i.WellFormed → decode (encode i).1 (encode i).2 = .ok i

/-- R67: what decodes is the encoding of the command read, and well formed: no bit pattern but a command's own
encoding is accepted. -/
def Obligations.DecodeAcceptsOnlyEncodings : Prop :=
  ∀ (word : CmdWord) (imm : Imm) (i : Instr), decode word imm = .ok i → i.WellFormed ∧ encode i = (word, imm)

/-- R67 over the opcode table written out: an instance of a row decodes to that row's command, no 96 bits are an
instance of two rows, and what is an instance of none raises ILLCMD without any other effect. -/
def Obligations.DecodeIsStrictAndTotal : Prop :=
  ∀ (word : CmdWord) (imm : Imm),
    (∀ r ∈ opcodeTable, r.Matches word imm → ∃ i, decode word imm = .ok i ∧ i.op.mnemonic = r.mnemonic) ∧
    (∀ r ∈ opcodeTable, ∀ q ∈ opcodeTable, r.Matches word imm → q.Matches word imm → r.mnemonic = q.mnemonic) ∧
    ((∀ r ∈ opcodeTable, ¬r.Matches word imm) →
      (∃ e, decode word imm = .error e) ∧
      ∀ s : State, s.Running → runCommand word imm s = .next (s.faulted 0x08#8 0x04#8 (word.setWidth 64)))

/-- Words of spec/95_test_vectors.md section 2.0, one per family, and what they stand for. -/
def Obligations.SampleWordsDecode : Prop :=
  decode 0x00000101#32 0xFFFFFFFFFFFFFFFB#64 = .ok (.ldi 1 0xFFFFFFFFFFFFFFFB#64) ∧
  decode 0x00021310#32 0#64 = .ok (.add 3 1 2) ∧
  decode 0x00021320#32 0#64 = .ok (.mul 3 1 2) ∧
  decode 0x00521430#32 0#64 = .ok (.divmod 4 5 1 2) ∧
  decode 0x00001240#32 7#64 = .ok (.shl 2 1 7#64) ∧
  decode 0x00000150#32 0x0000001E00000100#64 = .ok (.parse 1 0x100#32 30#32) ∧
  decode 0x00000053#32 0x0000002D00000100#64 = .ok (.tbw 0x100#32 0x2D#8) ∧
  decode 0x00000061#32 0x000000000000007B#64 = .ok (.clrsr 0x7B#8) ∧
  decode 0#32 0#64 = .error .unassignedOpcode

/-! ## The machine -/

/-- R7, R61: a step on an offered command is the execution of the command its 96 bits decode to, on the state with that
command taken; with nothing offered a step changes nothing (the model's convention, notes/assumptions/17.md). -/
def Obligations.StepRunsDecodedCommand : Prop :=
  (∀ (s : State) (word : CmdWord) (imm : Imm) (rest : List HostEvent) (i : Instr),
    s.input = .command word imm :: rest → decode word imm = .ok i → step s = exec i { s with input := rest }) ∧
  (∀ s : State, s.input = [] → step s = .next s)

/-- R275: an illegal command sets ILLCMD and responds with its own word, and nothing else changes. -/
def Obligations.IllegalCommandTakesIllcmd : Prop :=
  ∀ (s : State) (word : CmdWord) (imm : Imm) (rest : List HostEvent) (e : DecodeError),
    s.input = .command word imm :: rest → s.Running → decode word imm = .error e →
      step s = .next (({ s with input := rest } : State).faulted 0x08#8 0x04#8 (word.setWidth 64))

/-- R278: while HALT is 1 every command but RDSR is refused, malformed ones too, and changes no state; RDSR executes;
HALT is set only by ALLOC and cleared only by reset. That a malformed RDSR is among the refused is the model's reading,
notes/assumptions/12.md. -/
def Obligations.HaltedRefusesAllButRdsr : Prop :=
  (∀ (s : State) (word : CmdWord) (imm : Imm) (rest : List HostEvent),
    s.input = .command word imm :: rest → s.sr.getLsbD 7 = true →
      (decode word imm = .ok .rdsr → step s = .next (({ s with input := rest } : State).answered (s.sr.setWidth 64))) ∧
      (decode word imm ≠ .ok .rdsr →
        step s = .next { s with input := rest, rsp := some ⟨0x07#8, 0#64⟩ })) ∧
  (∀ s t : State, step s = .next t →
    (s.sr.getLsbD 7 = false → t.sr.getLsbD 7 = true → t.rsp = some ⟨0x03#8, 0#64⟩) ∧
    (s.sr.getLsbD 7 = true → t.sr.getLsbD 7 = false → ∃ rest, s.input = .reset :: rest))

/-- R300: reset empties every register, clears `SR`, draws `TBUF` anew, leaves no response pending and abandons a
command in progress; while `rst` is 1 neither port is ready or valid, and CORE is idle in the first cycle after. -/
def Obligations.ResetTakesResetState : Prop :=
  (∀ (s : State) (rest : List HostEvent), s.input = .reset :: rest →
    ∃ t, step s = .next t ∧ (∀ r : Reg, t.Empty r) ∧ t.sr = 0x00#8 ∧ t.rsp = none ∧ t.cfg = s.cfg ∧ t.input = rest ∧
      ∀ a, t.tbufByte a = Config.freeTbufByte (s.resets + 1) a) ∧
  (∀ (b : Block) (i : PortIn), i.rst = true →
    (b.outputs true).cmdReady = false ∧ (b.outputs true).rspValid = false ∧
    (b.clockEdge i).core = b.core.takeReset ∧
    ((b.clockEdge i).outputs false).cmdReady = true ∧ ((b.clockEdge i).outputs false).rspValid = false)

/-- R34, with the defaults of R5: the state right after reset. -/
def Obligations.ResetStateValues : Prop :=
  (∀ r : Reg, State.reset.Empty r) ∧ State.reset.sr = 0x00#8 ∧ State.reset.rsp = none ∧
  State.reset.cfg = ⟨32, none, 32, 70, 4, 65536, .toggle⟩ ∧
  ∀ a, State.reset.tbufByte a = Config.freeTbufByte 0 a

/-- The invariant holds right after reset. -/
def Obligations.ResetMeetsInvariant : Prop := State.reset.Inv

/-- R23, R28, R40: every step keeps admitted parameters, normalised registers of at most `MAX_LIMBS` limbs, a canonical
text buffer inside `TBUF`, and HALT equal to ALLOC. -/
def Obligations.StepKeepsInvariant : Prop :=
  ∀ s t : State, s.Inv → step s = .next t → t.Inv

/-- R61, R70: every offered command, whatever its bits and whatever the state, is taken and answered in one step by
exactly one response, whose status is one of the eight codes; the parameters stay. -/
def Obligations.EveryCommandIsAnswered : Prop :=
  ∀ (s : State) (word : CmdWord) (imm : Imm) (rest : List HostEvent), s.input = .command word imm :: rest →
    ∃ t r, step s = .next t ∧ t.rsp = some r ∧ r.status.toNat ≤ 7 ∧ t.input = rest ∧ t.cfg = s.cfg ∧
      t.resets = s.resets

/-- R281: the status of a command is that of the first condition that applies, in the rule's order; where none of the
first six does, the command ends with OK or ALLOC. -/
def Obligations.FirstApplicableFaultIsReported : Prop :=
  ∀ (s t : State) (word : CmdWord) (imm : Imm) (c : BitVec 8) (d : BitVec 64),
    runCommand word imm s = .next t → t.rsp = some ⟨c, d⟩ →
    if s.sr.getLsbD 7 = true ∧ decode word imm ≠ .ok .rdsr then c = 0x07#8
    else
      match decode word imm with
      | .error _ => c = 0x04#8
      | .ok i =>
        if (firstEmpty s i.sources).isSome then c = 0x05#8
        else
          match i with
          | .tbw addr _ => c = if addr.toNat + 1 ≤ s.cfg.tbufBytes then 0x00#8 else 0x06#8
          | .tbr addr => c = if addr.toNat + 1 ≤ s.cfg.tbufBytes then 0x00#8 else 0x06#8
          | .parse _ addr len =>
            if s.cfg.tbufBytes < addr.toNat + len.toNat then c = 0x06#8
            else if parseText s.cfg.w (textAt s addr len) = none then c = 0x02#8
            else c = 0x00#8 ∨ c = 0x03#8
          | .parses _ addr len =>
            if s.cfg.tbufBytes < addr.toNat + len.toNat then c = 0x06#8 else c = 0x00#8 ∨ c = 0x03#8
          | .format _ _ =>
            c = if (stored i s).1 + (stored i s).2 ≤ s.cfg.tbufBytes then 0x00#8 else 0x06#8
          | .divmod _ _ _ rs2 | .div _ _ rs2 | .mod _ _ rs2 =>
            if holdsZero s rs2 then c = 0x01#8 else c = 0x00#8 ∨ c = 0x03#8
          | _ => c = 0x00#8 ∨ c = 0x03#8

/-- R276: a command that names an empty source register ends with UNINIT and the number of the first one, and nothing
else changes. -/
def Obligations.EmptySourceTakesUninit : Prop :=
  ∀ (s : State) (i : Instr) (r : Reg), i.WellFormed → s.Running → firstEmpty s i.sources = some r →
    exec i s = .next (s.faulted 0x10#8 0x05#8 (BitVec.ofNat 64 r.val))

/-- R277: TBW, TBR, PARSE, PARSES and FORMAT end with RANGE and the first address when the access leaves `TBUF`; no
byte and no register changes. -/
def Obligations.OutOfRangeTakesRange : Prop :=
  ∀ (s : State) (addr : Addr), s.Running →
    (s.cfg.tbufBytes < addr.toNat + 1 →
      (∀ byte, exec (.tbw addr byte) s = .next (s.faulted 0x20#8 0x06#8 (addr.setWidth 64))) ∧
      exec (.tbr addr) s = .next (s.faulted 0x20#8 0x06#8 (addr.setWidth 64))) ∧
    (∀ (rd : Reg) (len : Addr), s.cfg.tbufBytes < addr.toNat + len.toNat →
      exec (.parse rd addr len) s = .next (s.faulted 0x20#8 0x06#8 (addr.setWidth 64)) ∧
      exec (.parses rd addr len) s = .next (s.faulted 0x20#8 0x06#8 (addr.setWidth 64))) ∧
    (∀ (rs1 : Reg) (v : BigInt), s.Holds rs1 v → s.cfg.tbufBytes < addr.toNat + (formatText s.cfg.w v).length →
      exec (.format rs1 addr) s = .next (s.faulted 0x20#8 0x06#8 (addr.setWidth 64)))

/-- R280: a fault other than ALLOC leaves every register and every byte of `TBUF` as before and sets the one bit of its
cause (none for HALTED); ALLOC leaves everything but the destinations it names. -/
def Obligations.FaultsArePrecise : Prop :=
  ∀ (s t : State) (word : CmdWord) (imm : Imm) (c : BitVec 8) (d : BitVec 64),
    runCommand word imm s = .next t → t.rsp = some ⟨c, d⟩ → c ≠ 0x00#8 →
    t.tbuf = s.tbuf ∧ t.cfg = s.cfg ∧ t.resets = s.resets ∧ t.input = s.input ∧
    (c ≠ 0x03#8 → t.x = s.x ∧ t.sr = s.sr ||| (if c = 0x07#8 then 0x00#8 else BitVec.twoPow 8 (c.toNat - 1))) ∧
    (c = 0x03#8 → t.sr = s.sr ||| 0x84#8 ∧
      ∃ i, decode word imm = .ok i ∧ ∀ r : Reg, r ∉ i.dests → t.x[r] = s.x[r])

/-- R274: only LDI, ADD, SUB, INC, DEC, MUL, POW, SHL, PARSE and PARSES can end with ALLOC, only with a finite
`MAX_LIMBS`, and ALLOC sets ALLOC and HALT and responds 0. -/
def Obligations.OnlyGrowingCommandsTakeAlloc : Prop :=
  ∀ (s t : State) (i : Instr) (d : BitVec 64), s.Inv → exec i s = .next t → t.rsp = some ⟨0x03#8, d⟩ →
    i.op ∈ [Op.ldi, .add, .sub, .inc, .dec, .mul, .pow, .shl, .parse, .parses] ∧ s.cfg.maxLimbs ≠ none ∧
    t.sr = s.sr ||| 0x84#8 ∧ d = 0#64

/-- R29: `SR` bits are sticky: a command leaves a set bit set, except that CLRSR clears the clearable bits of its
mask. -/
def Obligations.StatusBitsAreSticky : Prop :=
  ∀ (s t : State) (i : Instr) (k : Nat), exec i s = .next t → s.sr.getLsbD k = true →
    (t.sr.getLsbD k = true ∨
      ∃ mask : BitVec 8, i = .clrsr mask ∧ mask.getLsbD k = true ∧ k ∈ [0, 1, 3, 4, 5, 6])

/-- R29: no command but RDSR reads `SR` to decide what it does, HALT apart: with another `SR` whose HALT is also 0 it
gives the same registers, the same text buffer and the same response. -/
def Obligations.StatusBitsDecideNothing : Prop :=
  ∀ (s t t' : State) (sr' : BitVec 8) (i : Instr), s.Running → sr'.getLsbD 7 = false → i ≠ .rdsr →
    exec i s = .next t → exec i { s with sr := sr' } = .next t' →
    t'.x = t.x ∧ t'.tbuf = t.tbuf ∧ t'.rsp = t.rsp

/-- R21: no command reads a register it does not name: two states that agree on the command's sources (and on all but
the registers) give the same response, the same `SR`, the same text buffer, and every register either untouched in both
or equal in both. -/
def Obligations.UnnamedRegistersAreNotRead : Prop :=
  ∀ (s t t' : State) (x' : Vector (Option BigInt) 16) (i : Instr), (∀ r ∈ i.sources, s.x[r] = x'[r]) →
    exec i s = .next t → exec i { s with x := x' } = .next t' →
    t'.rsp = t.rsp ∧ t'.sr = t.sr ∧ t'.tbuf = t.tbuf ∧
    ∀ r : Reg, t'.x[r] = t.x[r] ∨ (t.x[r] = s.x[r] ∧ t'.x[r] = x'[r])

/-! ## Frames -/

/-- R21, R26, R304: whatever a command does, every register it does not name as a destination keeps its value, and
parameters, reset count and the host's queue stay. -/
def Obligations.RegisterFrame : Prop :=
  ∀ (s t : State) (i : Instr), exec i s = .next t →
    t.cfg = s.cfg ∧ t.resets = s.resets ∧ t.input = s.input ∧ ∀ r : Reg, r ∉ i.dests → t.x[r] = s.x[r]

/-- R31, R47, R238, R239: every byte of `TBUF` outside the bytes TBW or FORMAT stores keeps its value, whatever the
command. -/
def Obligations.TextBufferFrame : Prop :=
  ∀ (s t : State) (i : Instr), exec i s = .next t →
    ∀ a, (a < (stored i s).1 ∨ (stored i s).1 + (stored i s).2 ≤ a) → t.tbufByte a = s.tbufByte a

/-- R28, R30: a command that ends well leaves `SR` as it was, except CLRSR, and PARSES on malformed text, which sets
PFAIL; a fault sets the bits of its status code and no other. -/
def Obligations.StatusRegisterFrame : Prop :=
  ∀ (s t : State) (i : Instr) (c : BitVec 8) (d : BitVec 64), exec i s = .next t → t.rsp = some ⟨c, d⟩ →
    (∀ mask, i ≠ .clrsr mask) →
    t.sr = s.sr ||| (if c = 0x00#8 then (if i.op = .parses ∧ d = 0#64 then 0x40#8 else 0x00#8)
      else if c = 0x07#8 then 0x00#8 else if c = 0x03#8 then 0x84#8 else BitVec.twoPow 8 (c.toNat - 1))

/-- R25: a register comes to hold a value only as a destination of a command, and stops holding one only by reset, by
DROP of it, or as a destination of a command that ended with ALLOC. -/
def Obligations.ValidBitsChangeOnlyAsStated : Prop :=
  ∀ (s t : State) (r : Reg), step s = .next t →
    (s.valid r = false → t.valid r = true →
      ∃ word imm rest i, s.input = .command word imm :: rest ∧ decode word imm = .ok i ∧ r ∈ i.dests ∧
        i.op ≠ .drop) ∧
    (s.valid r = true → t.valid r = false →
      (∃ rest, s.input = .reset :: rest) ∨
      ∃ word imm rest i, s.input = .command word imm :: rest ∧ decode word imm = .ok i ∧ r ∈ i.dests ∧
        (i = .drop r ∨ t.rsp = some ⟨0x03#8, 0#64⟩))

/-! ## Family 0: limb store -/

/-- R104: LDI writes the signed immediate. -/
def Obligations.LdiLoadsSignedImmediate : Prop :=
  ∀ (rd : Reg) (imm : Imm), EncodedAs (.ldi rd imm) 0x01#8 .di ∧
    ∀ s : State, s.Running → Writes (.ldi rd imm) s rd imm.toInt 0#64

/-- R105, R107: MOV copies; ABS copies with the sign cleared. ALLOC cannot occur. -/
def Obligations.MovAndAbsCopy : Prop :=
  ∀ rd rs1 : Reg, EncodedAs (.mov rd rs1) 0x02#8 .r2 ∧ ReadsOne (.mov rd rs1) rs1 ∧
    EncodedAs (.abs rd rs1) 0x04#8 .r2 ∧ ReadsOne (.abs rd rs1) rs1 ∧
    ∀ (s : State) (v : BigInt), s.Inv → s.Running → s.Holds rs1 v →
      exec (.mov rd rs1) s = .next (s.wrote rd v 0#64) ∧
      exec (.abs rd rs1) s = .next (s.wrote rd ⟨v.mag, false⟩ 0#64) ∧
      WritesAlways (.abs rd rs1) s rd |v.ival s.cfg.w|

/-- R106: DROP empties its register, whether or not it held a value, and changes nothing else. -/
def Obligations.DropEmptiesRegister : Prop :=
  ∀ rd : Reg, EncodedAs (.drop rd) 0x03#8 .d ∧
    ∀ s : State, s.Running → exec (.drop rd) s = .next { s with x := s.x.set rd none, rsp := some ⟨0x00#8, 0#64⟩ }

/-- R108 to R111: the queries respond with what the rules say and change nothing. The count CLZ responds is the number
of 0 bits above the highest 1 bit of the W-bit top limb, W if the limb is 0. -/
def Obligations.QueriesAnswer : Prop :=
  ∀ rs1 : Reg,
    EncodedAs (.iszero rs1) 0x05#8 .s1 ∧ EncodedAs (.isneg rs1) 0x06#8 .s1 ∧
    EncodedAs (.size rs1) 0x07#8 .s1 ∧ EncodedAs (.clz rs1) 0x08#8 .s1 ∧
    ReadsOne (.iszero rs1) rs1 ∧ ReadsOne (.isneg rs1) rs1 ∧ ReadsOne (.size rs1) rs1 ∧ ReadsOne (.clz rs1) rs1 ∧
    ∀ (s : State) (v : BigInt), s.Inv → s.Running → s.Holds rs1 v →
      exec (.iszero rs1) s = .next (s.answered (if v.ival s.cfg.w = 0 then 1#64 else 0#64)) ∧
      exec (.isneg rs1) s = .next (s.answered (if v.ival s.cfg.w < 0 then 1#64 else 0#64)) ∧
      exec (.size rs1) s = .next (s.answered (BitVec.ofNat 64 v.mag.length)) ∧
      ∃ n, exec (.clz rs1) s = .next (s.answered (BitVec.ofNat 64 n)) ∧ n ≤ s.cfg.w ∧
        (n < s.cfg.w → (top v.mag).testBit (s.cfg.w - 1 - n) = true) ∧
        ∀ j, j < n → (top v.mag).testBit (s.cfg.w - 1 - j) = false

/-- R112 to R118: the six comparisons respond with the relation on the integer values. -/
def Obligations.ComparisonsAreIntegerOrder : Prop :=
  Compares .ceq 0x09#8 (fun a b => decide (a = b)) ∧ Compares .cne 0x0A#8 (fun a b => decide (a ≠ b)) ∧
  Compares .clt 0x0B#8 (fun a b => decide (a < b)) ∧ Compares .cle 0x0C#8 (fun a b => decide (a ≤ b)) ∧
  Compares .cgt 0x0D#8 (fun a b => decide (a > b)) ∧ Compares .cge 0x0E#8 (fun a b => decide (a ≥ b))

/-! ## Family 1: additive -/

/-- R144, R145: ADD writes the exact sum and SUB the exact difference. -/
def Obligations.AddAndSubAreExact : Prop :=
  BinaryGrowing .add 0x10#8 (fun a b => a + b) ∧ BinaryGrowing .sub 0x11#8 (fun a b => a - b)

/-- R146: NEG writes the negated value; ALLOC cannot occur. -/
def Obligations.NegNegates : Prop :=
  ∀ rd rs1 : Reg, EncodedAs (.neg rd rs1) 0x12#8 .r2 ∧ ReadsOne (.neg rd rs1) rs1 ∧
    ∀ (s : State) (v : BigInt), s.Inv → s.Running → s.Holds rs1 v →
      WritesAlways (.neg rd rs1) s rd (-v.ival s.cfg.w)

/-- R147, R148: INC adds one and DEC subtracts one. -/
def Obligations.IncAndDecStepByOne : Prop :=
  UnaryGrowing .inc 0x13#8 (fun a => a + 1) ∧ UnaryGrowing .dec 0x14#8 (fun a => a - 1)

/-! ## Family 2: multiplicative -/

/-- R161: the half-width recombination is the exact limb product, with both words in range. -/
def Obligations.LimbProductIsExact : Prop :=
  ∀ w x y : Nat, w % 2 = 0 → 2 ≤ w → x < 2 ^ w → y < 2 ^ w →
    x * y = (mulLimb w x y).1 * 2 ^ w + (mulLimb w x y).2 ∧ (mulLimb w x y).2 < 2 ^ w ∧
      (mulLimb w x y).1 ≤ 2 ^ w - 2

/-- R166: for all magnitudes and every legal threshold the Karatsuba path and the schoolbook path return the same
normalised product, limb for limb. -/
def Obligations.KaratsubaAgreesWithSchoolbook : Prop :=
  ∀ (w t : Nat) (a b : List Nat), w % 2 = 0 → 2 ≤ w → 3 ≤ t → Magnitude w a → Magnitude w b →
    kmul w t a b = school w a b ∧ val w (kmul w t a b) = val w a * val w b ∧
      val w (school w a b) = val w a * val w b ∧ NormalMag w (kmul w t a b)

/-- R167: MUL writes the exact product. -/
def Obligations.MulIsExactProduct : Prop := BinaryGrowing .mul 0x20#8 (fun a b => a * b)

/-- R168, R169: POW writes the exact integer power. -/
def Obligations.PowIsExactPower : Prop :=
  ∀ (rd rs1 : Reg) (e : Imm), EncodedAs (.pow rd rs1 e) 0x21#8 .ri ∧ ReadsOne (.pow rd rs1 e) rs1 ∧
    ∀ (s : State) (v : BigInt), s.Inv → s.Running → s.Holds rs1 v →
      Writes (.pow rd rs1 e) s rd (v.ival s.cfg.w ^ e.toNat) 0#64

/-! ## Family 3: division -/

/-- R191: for all normalised magnitudes and all legal thresholds the recursive scheme, the quadratic fallback and the
dispatch return the one pair of quotient and remainder. -/
def Obligations.DividersAgree : Prop :=
  ∀ (c : Config) (a b : List Nat), c.Legal → NormalMag c.w a → NormalMag c.w b → val c.w b ≠ 0 →
    quadDiv c.w a b = (limbs c.w (val c.w a / val c.w b), limbs c.w (val c.w a % val c.w b)) ∧
    divmodMag c a b = (limbs c.w (val c.w a / val c.w b), limbs c.w (val c.w a % val c.w b)) ∧
    (cmpMag a b ≠ .lt →
      recursiveDivision c a b = (limbs c.w (val c.w a / val c.w b), limbs c.w (val c.w a % val c.w b)))

/-- R187, R188: the contracts of the 2n/n and the 3n/2n dividers under their preconditions. -/
def Obligations.DivisionHelpersMeetTheirContracts : Prop :=
  ∀ (c : Config) (z b : List Nat), c.Legal → NormalMag c.w z → NormalMag c.w b → TopBitSet c.w b →
    (val c.w z < val c.w b * 2 ^ (c.w * b.length) →
      divide2n1n c b.length z b b.length =
          (limbs c.w (val c.w z / val c.w b), limbs c.w (val c.w z % val c.w b)) ∧
        val c.w z / val c.w b < 2 ^ (c.w * b.length)) ∧
    (∀ k, b.length = 2 * k → val c.w z < val c.w b * 2 ^ (c.w * k) →
      divide3n2n c (divide2n1n c k) z b k =
          (limbs c.w (val c.w z / val c.w b), limbs c.w (val c.w z % val c.w b)) ∧
        val c.w z / val c.w b < 2 ^ (c.w * k))

/-- R189: the quotient estimate of the 3n/2n divider is never too small and is too large by at most 2. -/
def Obligations.QuotientEstimateIsOffByAtMostTwo : Prop :=
  ∀ (c : Config) (z b : List Nat) (k : Nat), c.Legal → NormalMag c.w z → NormalMag c.w b → TopBitSet c.w b →
    b.length = 2 * k → val c.w z < val c.w b * 2 ^ (c.w * k) →
    val c.w z / val c.w b ≤ val c.w (estimate3n2n c (divide2n1n c k) z b k).1 ∧
      val c.w (estimate3n2n c (divide2n1n c k) z b k).1 ≤ val c.w z / val c.w b + 2

/-- R193: DIVMOD writes the truncating quotient and remainder; a zero divisor is DIVZ and writes neither. Naming one
register twice is illegal (R73). -/
def Obligations.DivmodWritesQuotientAndRemainder : Prop :=
  ∀ rd rd2 rs1 rs2 : Reg, EncodedAs (.divmod rd rd2 rs1 rs2) 0x30#8 .r4 ∧
    (rd ≠ rd2 → Divides (.divmod rd rd2 rs1 rs2) rs1 rs2 ∧
      ∀ (s : State) (a b : BigInt), s.Inv → s.Running → s.Holds rs1 a → s.Holds rs2 b → b.ival s.cfg.w ≠ 0 →
        exec (.divmod rd rd2 rs1 rs2) s =
          .next { s with
            x := (s.x.set rd (some (mkInt s.cfg.w (tdiv (a.ival s.cfg.w) (b.ival s.cfg.w))))).set rd2
              (some (mkInt s.cfg.w (tmod (a.ival s.cfg.w) (b.ival s.cfg.w))))
            rsp := some ⟨0x00#8, 0#64⟩ }) ∧
    (rd = rd2 → ∀ s : State, s.Running →
      runCommand (encode (.divmod rd rd2 rs1 rs2)).1 (encode (.divmod rd rd2 rs1 rs2)).2 s =
        .next (s.faulted 0x08#8 0x04#8 ((encode (.divmod rd rd2 rs1 rs2)).1.setWidth 64)))

/-- R194, R195: DIV writes the truncating quotient and MOD the remainder; a zero divisor is DIVZ. -/
def Obligations.DivAndModTruncate : Prop :=
  ∀ rd rs1 rs2 : Reg,
    EncodedAs (.div rd rs1 rs2) 0x31#8 .r3 ∧ Divides (.div rd rs1 rs2) rs1 rs2 ∧
    EncodedAs (.mod rd rs1 rs2) 0x32#8 .r3 ∧ Divides (.mod rd rs1 rs2) rs1 rs2 ∧
    ∀ (s : State) (a b : BigInt), s.Inv → s.Running → s.Holds rs1 a → s.Holds rs2 b → b.ival s.cfg.w ≠ 0 →
      WritesAlways (.div rd rs1 rs2) s rd (tdiv (a.ival s.cfg.w) (b.ival s.cfg.w)) ∧
      WritesAlways (.mod rd rs1 rs2) s rd (tmod (a.ival s.cfg.w) (b.ival s.cfg.w))

/-- R149, R170: ADD and MUL are commutative and associative, MUL distributes over ADD and SUB, SUB then ADD restores,
as operations on normalised values. -/
def Obligations.ArithmeticLaws : Prop :=
  ∀ (c : Config) (a b d : BigInt), c.Legal → a.Normal c.w → b.Normal c.w → d.Normal c.w →
    addSigned c.w a b = addSigned c.w b a ∧
    addSigned c.w (addSigned c.w a b) d = addSigned c.w a (addSigned c.w b d) ∧
    addSigned c.w (subSigned c.w a b) b = a ∧
    mulSigned c a b = mulSigned c b a ∧
    mulSigned c (mulSigned c a b) d = mulSigned c a (mulSigned c b d) ∧
    mulSigned c a (addSigned c.w b d) = addSigned c.w (mulSigned c a b) (mulSigned c a d) ∧
    mulSigned c a (subSigned c.w b d) = subSigned c.w (mulSigned c a b) (mulSigned c a d)

/-- R180, R196: `b*(a/b) + a%b` is `a`, the remainder is smaller than the divisor and has the dividend's sign or is
zero, and dividing a product back gives the factor. -/
def Obligations.DivisionLaws : Prop :=
  ∀ (c : Config) (a b : BigInt), c.Legal → a.Normal c.w → b.Normal c.w → b.ival c.w ≠ 0 →
    addSigned c.w (mulSigned c b (quotSigned c a b)) (remSigned c a b) = a ∧
    ((remSigned c a b).ival c.w).natAbs < (b.ival c.w).natAbs ∧
    ((remSigned c a b).ival c.w = 0 ∨ ((remSigned c a b).ival c.w).sign = (a.ival c.w).sign) ∧
    quotSigned c (mulSigned c a b) b = a ∧ remSigned c (mulSigned c a b) b = zeroInt ∧
    quotSigned c b b = oneInt

/-! ## Family 4: shifts and logic -/

/-- R213, R214: SHL multiplies by `2^s`; SHR divides the magnitude by `2^s`, the sign kept. -/
def Obligations.ShiftsScaleByPowersOfTwo : Prop :=
  ∀ (rd rs1 : Reg) (n : Imm),
    EncodedAs (.shl rd rs1 n) 0x40#8 .ri ∧ ReadsOne (.shl rd rs1 n) rs1 ∧
    EncodedAs (.shr rd rs1 n) 0x41#8 .ri ∧ ReadsOne (.shr rd rs1 n) rs1 ∧
    ∀ (s : State) (v : BigInt), s.Inv → s.Running → s.Holds rs1 v →
      Writes (.shl rd rs1 n) s rd (v.ival s.cfg.w * 2 ^ n.toNat) 0#64 ∧
      WritesAlways (.shr rd rs1 n) s rd
        ((v.ival s.cfg.w).sign * (((v.ival s.cfg.w).natAbs / 2 ^ n.toNat : Nat) : Int))

/-- R216 to R218: AND, OR and XOR act on the magnitudes, the sign being the same combination of the signs. -/
def Obligations.LogicActsOnSignAndMagnitude : Prop :=
  Logic .and 0x42#8 (fun a b => a &&& b) (fun a b => a && b) ∧
  Logic .or 0x43#8 (fun a b => a ||| b) (fun a b => a || b) ∧
  Logic .xor 0x44#8 (fun a b => a ^^^ b) (fun a b => a != b)

/-- R219: NOT complements exactly the limbs the operand has; its sign under either value of `CPL_SIGN`. -/
def Obligations.NotComplementsLimbs : Prop :=
  ∀ rd rs1 : Reg, EncodedAs (.not rd rs1) 0x45#8 .r2 ∧ ReadsOne (.not rd rs1) rs1 ∧
    ∀ (s : State) (v : BigInt), s.Inv → s.Running → s.Holds rs1 v →
      (s.cfg.cplSign = .toggle → WritesAlways (.not rd rs1) s rd
        ((if v.neg then 1 else -1) * (2 ^ (s.cfg.w * v.mag.length) - 1 - (val s.cfg.w v.mag : Int)))) ∧
      (s.cfg.cplSign = .keep → WritesAlways (.not rd rs1) s rd
        ((if v.neg then -1 else 1) * (2 ^ (s.cfg.w * v.mag.length) - 1 - (val s.cfg.w v.mag : Int))))

/-- R220: the laws of shifts and logic on normalised values, and where complementing twice gives the value back. -/
def Obligations.ShiftAndLogicLaws : Prop :=
  ∀ (c : Config) (v : BigInt), c.Legal → v.Normal c.w →
    (∀ n, normalize (shrMag c.w (normalize (shlMag c.w v.mag n) v.neg).mag n)
      (normalize (shlMag c.w v.mag n) v.neg).neg = v) ∧
    normalize (andLimbs v.mag v.mag) (v.neg && v.neg) = v ∧
    normalize (orLimbs v.mag v.mag) (v.neg || v.neg) = v ∧
    normalize (xorLimbs v.mag v.mag) (v.neg ^^ v.neg) = zeroInt ∧
    ((v = zeroInt ∨ top v.mag ≠ 2 ^ c.w - 1) →
      normalize (notLimbs c.w (normalize (notLimbs c.w v.mag) (cplNeg c v.neg)).mag)
        (cplNeg c (normalize (notLimbs c.w v.mag) (cplNeg c v.neg)).neg) = v)

/-! ## Family 5: text -/

/-- R230, R231: `parse_text` accepts exactly the numerals, an optional sign and then one or more digits, and yields
their value. The character codes are R44's, from general knowledge (notes/assumptions/15.md). -/
def Obligations.ParseTextIsTheNumeralGrammar : Prop :=
  ∀ (w : Nat) (t : List Byte) (v : BigInt), 1 ≤ w →
    (parseText w t = some v ↔
      ∃ p ∈ signTexts, ∃ ds : List Nat, ds ≠ [] ∧ (∀ d ∈ ds, d ≤ 9) ∧
        t = p ++ ds.map (fun d => BitVec.ofNat 8 (0x30 + d)) ∧
        v = mkInt w ((if p = [0x2D#8] then -1 else 1) * (Nat.ofDigits 10 ds.reverse : Int)))

/-- R233: `format_text` writes `0`, or the digits most significant first with no leading zero, after `-` exactly for a
negative value. The character codes are R44's, from general knowledge (notes/assumptions/15.md). -/
def Obligations.FormatTextIsTheCanonicalNumeral : Prop :=
  ∀ (w : Nat) (v : BigInt), 1 ≤ w → v.Normal w →
    formatText w v =
      if v.ival w = 0 then [0x30#8]
      else (if v.ival w < 0 then [0x2D#8] else []) ++
        ((Nat.digits 10 (v.ival w).natAbs).reverse.map fun d => BitVec.ofNat 8 (0x30 + d))

/-- R235: formatting a parsed numeral gives its canonical form, and parsing a formatted value gives the value.
The character codes are R44's, from general knowledge (notes/assumptions/15.md). -/
def Obligations.TextRoundTrip : Prop :=
  (∀ (w : Nat) (t : List Byte) (v : BigInt), 1 ≤ w → parseText w t = some v → formatText w v = canon t) ∧
  (∀ (w : Nat) (v : BigInt), 1 ≤ w → v.Normal w → parseText w (formatText w v) = some v)

/-- R232: the digit-serial and the divide-and-conquer parser both return the magnitude of the digits' sum, for every
base size. The magnitude of ten is `limbs(10)` (notes/assumptions/22.md). -/
def Obligations.ParsersAgree : Prop :=
  ∀ (c : Config) (ds : List Nat) (k0 : Nat), c.Legal → 1 ≤ k0 → (∀ d ∈ ds, d ≤ 9) →
    parseSerial c [0] ds = limbs c.w (Nat.ofDigits 10 ds.reverse) ∧
    parseDc c k0 ds.length ds = limbs c.w (Nat.ofDigits 10 ds.reverse)

/-- R234: the digit-serial and the divide-and-conquer formatter both return the decimal digits, for every base size and
every admissible choice of the power of ten. The magnitude of ten is `limbs(10)` (notes/assumptions/22.md), and the digit
codes are R44's, from general knowledge (notes/assumptions/15.md). -/
def Obligations.FormattersAgree : Prop :=
  ∀ (c : Config) (m : List Nat) (f0 : Nat) (e : List Nat → Nat), c.Legal → NormalMag c.w m → val c.w m ≠ 0 →
    4 ≤ f0 → (∀ z, NormalMag c.w z → f0 < bitlen c.w z → 1 ≤ e z ∧ 10 ^ e z ≤ val c.w z) →
    formatSerial c m = (Nat.digits 10 (val c.w m)).reverse.map (fun d => BitVec.ofNat 8 (0x30 + d)) ∧
    formatDc c f0 e (val c.w m) m = (Nat.digits 10 (val c.w m)).reverse.map (fun d => BitVec.ofNat 8 (0x30 + d))

/-- R236: PARSE writes the value of exactly the `len` bytes at `addr`, or ends with FMT on malformed text, after the
range check; a value too long is ALLOC. -/
def Obligations.ParseWritesNumeralValue : Prop :=
  ∀ (rd : Reg) (addr len : Addr), EncodedAs (.parse rd addr len) 0x50#8 .di ∧
    ∀ s : State, s.Running →
      (s.cfg.tbufBytes < addr.toNat + len.toNat →
        exec (.parse rd addr len) s = .next (s.faulted 0x20#8 0x06#8 (addr.setWidth 64))) ∧
      (addr.toNat + len.toNat ≤ s.cfg.tbufBytes →
        (parseText s.cfg.w (textAt s addr len) = none →
          exec (.parse rd addr len) s = .next (s.faulted 0x02#8 0x02#8 0#64)) ∧
        ∀ v, parseText s.cfg.w (textAt s addr len) = some v →
          (fits s.cfg v.mag = true → exec (.parse rd addr len) s = .next (s.wrote rd v 0#64)) ∧
          (fits s.cfg v.mag = false → ∃ o, exec (.parse rd addr len) s = .next (s.exhausted rd o)))

/-- R237: PARSES as PARSE, but malformed text sets PFAIL and responds (OK, 0) with the register unchanged, and success
responds (OK, 1). -/
def Obligations.ParsesReportsFailureWithoutFault : Prop :=
  ∀ (rd : Reg) (addr len : Addr), EncodedAs (.parses rd addr len) 0x51#8 .di ∧
    ∀ s : State, s.Running →
      (s.cfg.tbufBytes < addr.toNat + len.toNat →
        exec (.parses rd addr len) s = .next (s.faulted 0x20#8 0x06#8 (addr.setWidth 64))) ∧
      (addr.toNat + len.toNat ≤ s.cfg.tbufBytes →
        (parseText s.cfg.w (textAt s addr len) = none →
          exec (.parses rd addr len) s =
            .next { s with sr := s.sr ||| 0x40#8, rsp := some ⟨0x00#8, 0#64⟩ }) ∧
        ∀ v, parseText s.cfg.w (textAt s addr len) = some v →
          (fits s.cfg v.mag = true → exec (.parses rd addr len) s = .next (s.wrote rd v 1#64)) ∧
          (fits s.cfg v.mag = false → ∃ o, exec (.parses rd addr len) s = .next (s.exhausted rd o)))

/-- R238: FORMAT writes the numeral at `addr`, first character lowest, responds its length, and changes nothing else;
RANGE is decided on the full length. -/
def Obligations.FormatWritesNumeral : Prop :=
  ∀ (rs1 : Reg) (addr : Addr), EncodedAs (.format rs1 addr) 0x52#8 .si ∧ ReadsOne (.format rs1 addr) rs1 ∧
    ∀ (s : State) (v : BigInt), s.Running → s.Holds rs1 v →
      (s.cfg.tbufBytes < addr.toNat + (formatText s.cfg.w v).length →
        exec (.format rs1 addr) s = .next (s.faulted 0x20#8 0x06#8 (addr.setWidth 64))) ∧
      (addr.toNat + (formatText s.cfg.w v).length ≤ s.cfg.tbufBytes →
        ∃ t, exec (.format rs1 addr) s = .next t ∧
          t = { s with tbuf := t.tbuf, rsp := some ⟨0x00#8, BitVec.ofNat 64 (formatText s.cfg.w v).length⟩ } ∧
          (∀ k b, (formatText s.cfg.w v)[k]? = some b → t.tbufByte (addr.toNat + k) = b) ∧
          ∀ a, (a < addr.toNat ∨ addr.toNat + (formatText s.cfg.w v).length ≤ a) → t.tbufByte a = s.tbufByte a)

/-- R239: TBW stores its byte at its address and changes nothing else, or ends with RANGE. -/
def Obligations.TbwStoresByte : Prop :=
  ∀ (addr : Addr) (byte : Byte), EncodedAs (.tbw addr byte) 0x53#8 .i ∧
    ∀ s : State, s.Running →
      (s.cfg.tbufBytes ≤ addr.toNat →
        exec (.tbw addr byte) s = .next (s.faulted 0x20#8 0x06#8 (addr.setWidth 64))) ∧
      (addr.toNat < s.cfg.tbufBytes →
        ∃ t, exec (.tbw addr byte) s = .next t ∧
          t = { s with tbuf := t.tbuf, rsp := some ⟨0x00#8, 0#64⟩ } ∧
          t.tbufByte addr.toNat = byte ∧ ∀ a, a ≠ addr.toNat → t.tbufByte a = s.tbufByte a)

/-- R240: TBR responds the byte, zero extended, and changes nothing, or ends with RANGE. -/
def Obligations.TbrReadsByte : Prop :=
  ∀ addr : Addr, EncodedAs (.tbr addr) 0x54#8 .i ∧
    ∀ s : State, s.Running →
      (s.cfg.tbufBytes ≤ addr.toNat →
        exec (.tbr addr) s = .next (s.faulted 0x20#8 0x06#8 (addr.setWidth 64))) ∧
      (addr.toNat < s.cfg.tbufBytes →
        exec (.tbr addr) s = .next (s.answered ((s.tbufByte addr.toNat).setWidth 64)))

/-! ## Family 6: system -/

/-- R260: RDSR responds `SR`, zero extended, halted or not, and changes nothing; with a non-zero unused field it is
illegal. -/
def Obligations.RdsrReadsStatus : Prop :=
  EncodedAs .rdsr 0x60#8 .z ∧
  (∀ (word : CmdWord) (imm : Imm), word.extractLsb' 0 8 = 0x60#8 →
    (decode word imm = .ok .rdsr ↔ word = 0x00000060#32 ∧ imm = 0#64)) ∧
  ∀ s : State, exec .rdsr s = .next (s.answered (s.sr.setWidth 64))

/-- R261: CLRSR clears the bits of its mask that it can clear, never ALLOC or HALT, and sets none; it is illegal with
`cmd_imm[63:8] != 0` and refused when halted. -/
def Obligations.ClrsrClearsMaskedBits : Prop :=
  ∀ mask : BitVec 8, EncodedAs (.clrsr mask) 0x61#8 .i ∧
    (∀ s : State, s.Running →
      ∃ t, exec (.clrsr mask) s = .next t ∧ t = { s with sr := t.sr, rsp := some ⟨0x00#8, 0#64⟩ } ∧
        ∀ k, t.sr.getLsbD k = (s.sr.getLsbD k && !(mask.getLsbD k && decide (k ∈ [0, 1, 3, 4, 5, 6])))) ∧
    (∀ s : State, s.sr.getLsbD 7 = true → exec (.clrsr mask) s = .next (s.faulted 0x00#8 0x07#8 0#64)) ∧
    ∀ imm : Imm, imm.extractLsb' 8 56 ≠ 0#56 → ∃ e, decode 0x00000061#32 imm = .error e

/-! ## The ports -/

/-- R61, R309: a command accepted at a clock edge is followed, for every finite latency, 0 included, by as many cycles
in which CORE is neither ready nor responding, then by its response with all its effects complete; the response is held
until the host takes it, and CORE is ready in the next cycle. The state reached is the one the command level gives. -/
def Obligations.HandshakeRefinesCommandLevel : Prop :=
  ∀ b : Block,
    (∀ (i : PortIn) (is : List PortIn), b.phase = .idle → i.rst = false → i.cmdValid = true →
      (∀ j ∈ is, j.rst = false) →
      (b.outputs false).cmdReady = true ∧
      runCommand i.cmdWord i.cmdImm b.core = .next (b.core.afterCommand i.cmdWord i.cmdImm) ∧
      (is.length ≤ Config.freeLatency b.accepted b.core i.cmdWord i.cmdImm →
        (((b.clockEdge i).clockEdges is).outputs false).cmdReady = false ∧
        ((((b.clockEdge i).clockEdges is).outputs false).rspValid = true ↔
          is.length = Config.freeLatency b.accepted b.core i.cmdWord i.cmdImm)) ∧
      (is.length = Config.freeLatency b.accepted b.core i.cmdWord i.cmdImm →
        (b.clockEdge i).clockEdges is =
          ⟨b.core.afterCommand i.cmdWord i.cmdImm, .responding, b.accepted + 1⟩)) ∧
    (b.phase = .responding →
      (b.outputs false).cmdReady = false ∧ (b.outputs false).rspValid = true ∧ (b.outputs false).rsp = b.core.rsp ∧
      (∀ is : List PortIn, (∀ j ∈ is, j.rst = false ∧ j.rspReady = false) → b.clockEdges is = b) ∧
      ∀ i : PortIn, i.rst = false → i.rspReady = true →
        ((b.clockEdge i).outputs false).cmdReady = true ∧ ((b.clockEdge i).outputs false).rspValid = false ∧
        (b.clockEdge i).core = b.core)
end

