-- ==== Sys2Proof/Laws/Magnitude.lean ====
section
/-! SUPPORT. Magnitudes and values (spec/00_scope.md R11, spec/10_state.md R24, spec/40_limb_store.md R101 to R103):
what each primitive does to `val`, that normal magnitudes are determined by their value, and that the limb-wise
comparisons are the comparisons of the integers. -/

namespace Sys2Proof.Machine

/-- Every limb is in `[0, RADIX)`. -/
abbrev LimbsOk (w : Nat) (m : List Nat) : Prop := ∀ l ∈ m, l < 2 ^ w

@[simp] theorem val_nil (w : Nat) : val w [] = 0 := rfl

@[simp] theorem val_cons (w l : Nat) (m : List Nat) : val w (l :: m) = l + 2 ^ w * val w m := rfl

theorem val_append (w : Nat) (a b : List Nat) : val w (a ++ b) = val w a + 2 ^ (w * a.length) * val w b := by
  induction a with
  | nil => simp
  | cons l a ih => simp [ih, Nat.mul_add, pow_add, Nat.mul_succ]; ring

@[simp] theorem val_replicate_zero (w n : Nat) : val w (List.replicate n 0) = 0 := by
  induction n with
  | zero => rfl
  | succ n ih => simp [List.replicate_succ, ih]

theorem val_lt {w : Nat} {m : List Nat} (h : LimbsOk w m) : val w m < 2 ^ (w * m.length) := by
  induction m with
  | nil => simp
  | cons l m ih =>
    have hl : l < 2 ^ w := h l (by simp)
    have hm := ih fun k hk => h k (by simp [hk])
    have hs : 2 ^ (w * (l :: m).length) = 2 ^ w * 2 ^ (w * m.length) := by
      rw [List.length_cons, Nat.mul_succ, pow_add, Nat.mul_comm]
    rw [hs, val_cons]
    have : 2 ^ w * (val w m + 1) ≤ 2 ^ w * 2 ^ (w * m.length) := Nat.mul_le_mul_left _ hm
    rw [Nat.mul_add] at this
    omega

/-! ### normalisation -/

theorem stripTop_cons (l : Nat) (m : List Nat) :
    stripTop (l :: m) = if stripTop m = [] then (if l = 0 then [] else [l]) else l :: stripTop m := by
  rw [stripTop]
  cases stripTop m <;> simp

@[simp] theorem val_stripTop (w : Nat) (m : List Nat) : val w (stripTop m) = val w m := by
  induction m with
  | nil => rfl
  | cons l m ih =>
    rw [stripTop_cons]
    by_cases h : stripTop m = []
    · have h0 : val w m = 0 := by rw [← ih, h]; rfl
      by_cases hl : l = 0 <;> simp [h, hl, h0]
    · simp [h, ih]

theorem mem_of_mem_stripTop {l : Nat} {m : List Nat} (h : l ∈ stripTop m) : l ∈ m := by
  induction m with
  | nil => simp [stripTop] at h
  | cons k m ih =>
    rw [stripTop_cons] at h
    split at h
    · split at h
      · simp at h
      · simp_all
    · rcases List.mem_cons.1 h with rfl | h
      · simp
      · simp [ih h]

theorem top_stripTop {m : List Nat} (h : stripTop m ≠ []) : top (stripTop m) ≠ 0 := by
  induction m with
  | nil => simp [stripTop] at h
  | cons l m ih =>
    rw [stripTop_cons] at h ⊢
    by_cases hm : stripTop m = []
    · by_cases hl : l = 0
      · simp [hm, hl] at h
      · simp [hm, hl, top]
    · have := ih hm
      simp only [hm, if_false]
      obtain ⟨k, t, hk⟩ := List.exists_cons_of_ne_nil hm
      rw [hk] at this ⊢
      simpa [top] using this

theorem stripTop_length_le (m : List Nat) : (stripTop m).length ≤ m.length := by
  induction m with
  | nil => simp [stripTop]
  | cons l m ih =>
    rw [stripTop_cons]
    split
    · split <;> simp
    · simpa using ih

theorem normMag_eq (m : List Nat) : normMag m = if stripTop m = [] then [0] else stripTop m := by
  rw [normMag]
  cases stripTop m <;> simp

/-- `norm_mag` keeps the value (R101). -/
@[simp] theorem val_normMag (w : Nat) (m : List Nat) : val w (normMag m) = val w m := by
  rw [normMag_eq]
  split
  · rename_i h
    have := val_stripTop w m
    rw [h] at this
    simpa using this
  · simp

/-- `norm_mag` of limbs in range is a normal magnitude (R101, R23). -/
theorem normalMag_normMag {w : Nat} {m : List Nat} (h : LimbsOk w m) : NormalMag w (normMag m) := by
  rw [normMag_eq]
  split
  · exact ⟨by simp, by simp, by simp⟩
  · rename_i hm
    exact ⟨fun l hl => h l (mem_of_mem_stripTop hl), hm, .inr (top_stripTop hm)⟩

theorem length_normMag_le {m : List Nat} (h : m ≠ []) : (normMag m).length ≤ m.length := by
  rw [normMag_eq]
  split
  · exact List.length_pos_iff.2 h
  · exact stripTop_length_le m

/-! ### normal magnitudes are determined by their value (R24) -/

theorem NormalMag.tail {w l : Nat} {m : List Nat} (h : NormalMag w (l :: m)) (hm : m ≠ []) : NormalMag w m := by
  obtain ⟨k, t, rfl⟩ := List.exists_cons_of_ne_nil hm
  refine ⟨fun x hx => h.1 x (by simp [hx]), hm, ?_⟩
  rcases h.2.2 with h1 | h1
  · simp at h1
  · exact .inr (by simpa [top] using h1)

theorem NormalMag.val_pos {w : Nat} {m : List Nat} (h : NormalMag w m) (hl : 1 < m.length) : 0 < val w m := by
  induction m with
  | nil => simp at hl
  | cons l m ih =>
    have hm : m ≠ [] := by rintro rfl; simp at hl
    have hpos : 0 < val w m := by
      by_cases h1 : m.length = 1
      · obtain ⟨k, rfl⟩ := List.length_eq_one_iff.1 h1
        have := h.2.2
        simp [top] at this
        simpa using Nat.pos_of_ne_zero this
      · exact ih (h.tail hm) (by have := List.length_pos_iff.2 hm; omega)
    rw [val_cons]
    have : 0 < 2 ^ w * val w m := Nat.mul_pos (by positivity) hpos
    omega

theorem NormalMag.ext {w : Nat} {a b : List Nat} (ha : NormalMag w a) (hb : NormalMag w b)
    (h : val w a = val w b) : a = b := by
  induction a generalizing b with
  | nil => exact absurd rfl ha.2.1
  | cons l a ih =>
    obtain ⟨k, b, rfl⟩ := List.exists_cons_of_ne_nil hb.2.1
    have hl : l < 2 ^ w := ha.1 l (by simp)
    have hk : k < 2 ^ w := hb.1 k (by simp)
    rw [val_cons, val_cons] at h
    have hlk : l = k := by
      have := congrArg (· % 2 ^ w) h
      simpa [Nat.add_mul_mod_self_left, Nat.mod_eq_of_lt hl, Nat.mod_eq_of_lt hk] using this
    have hv : val w a = val w b := by
      subst hlk
      exact Nat.eq_of_mul_eq_mul_left (by positivity : 0 < 2 ^ w) (by omega)
    subst hlk
    congr 1
    by_cases h1 : a = []
    · subst h1
      by_contra hb'
      have := hb.tail (Ne.symm hb')
      have hb0 : val w b = 0 := by rw [← hv]; rfl
      by_cases hl1 : b.length = 1
      · obtain ⟨c, rfl⟩ := List.length_eq_one_iff.1 hl1
        have h2 := hb.2.2
        simp [top] at h2 hb0
        exact h2 hb0
      · have hp := this.val_pos (by have := List.length_pos_iff.2 this.2.1; omega)
        omega
    · by_cases h2 : b = []
      · subst h2
        have hA := ha.tail h1
        have ha0 : val w a = 0 := by rw [hv]; rfl
        by_cases hl1 : a.length = 1
        · obtain ⟨c, rfl⟩ := List.length_eq_one_iff.1 hl1
          have h3 := ha.2.2
          simp [top] at h3 ha0
          exact absurd ha0 h3
        · have hp := hA.val_pos (by have := List.length_pos_iff.2 hA.2.1; omega)
          omega
      · exact ih (ha.tail h1) (hb.tail h2) hv

theorem limbsAux_spec {w : Nat} (hw : 1 ≤ w) (fuel n : Nat) (h : n ≤ fuel) :
    val w (limbsAux w fuel n) = n ∧ LimbsOk w (limbsAux w fuel n) ∧
      (n ≠ 0 → limbsAux w fuel n ≠ [] ∧ top (limbsAux w fuel n) ≠ 0) := by
  induction fuel generalizing n with
  | zero =>
    obtain rfl : n = 0 := by omega
    simp [limbsAux, LimbsOk]
  | succ fuel ih =>
    rw [limbsAux]
    by_cases hn : n = 0
    · simp [hn, LimbsOk]
    have h2 : 2 ≤ 2 ^ w := by simpa using Nat.pow_le_pow_right (by norm_num : 1 ≤ 2) hw
    have hlt : n / 2 ^ w < n := Nat.div_lt_self (Nat.pos_of_ne_zero hn) (by omega)
    obtain ⟨hv, hl, ht⟩ := ih (n / 2 ^ w) (by omega)
    simp only [hn, if_false, ne_eq, not_false_eq_true, forall_const]
    refine ⟨?_, ?_, by simp, ?_⟩
    · rw [val_cons, hv]; exact Nat.mod_add_div n _
    · intro l hm
      rcases List.mem_cons.1 hm with rfl | hm
      · exact Nat.mod_lt _ (by omega)
      · exact hl l hm
    · by_cases hq : n / 2 ^ w = 0
      · have : limbsAux w fuel (n / 2 ^ w) = [] := by
          rw [hq]; cases fuel <;> simp [limbsAux]
        rw [this]
        have hmod : n % 2 ^ w = n := Nat.mod_eq_of_lt ((Nat.div_eq_zero_iff.1 hq).resolve_left (by omega))
        simpa [top, hmod] using hn
      · obtain ⟨hne, ht⟩ := ht hq
        obtain ⟨k, t, hk⟩ := List.exists_cons_of_ne_nil hne
        rw [hk] at ht ⊢
        simpa [top] using ht

/-- `val(limbs(n)) = n` (R11). -/
@[simp] theorem val_limbs {w : Nat} (hw : 1 ≤ w) (n : Nat) : val w (limbs w n) = n := by
  rw [limbs]
  split
  · simp_all
  · exact (limbsAux_spec hw n n le_rfl).1

/-- `limbs(n)` is a normal magnitude (R11). -/
theorem normalMag_limbs {w : Nat} (hw : 1 ≤ w) (n : Nat) : NormalMag w (limbs w n) := by
  rw [limbs]
  split
  · exact ⟨by simp, by simp, by simp⟩
  · rename_i h
    obtain ⟨-, hl, ht⟩ := limbsAux_spec hw n n le_rfl
    exact ⟨hl, (ht h).1, .inr (ht h).2⟩

/-- The normal magnitude of a value is `limbs` of it (R24). -/
theorem NormalMag.eq_limbs {w : Nat} (hw : 1 ≤ w) {m : List Nat} (h : NormalMag w m) : m = limbs w (val w m) :=
  h.ext (normalMag_limbs hw _) (by rw [val_limbs hw])

theorem normMag_eq_limbs {w : Nat} (hw : 1 ≤ w) {m : List Nat} (h : LimbsOk w m) : normMag m = limbs w (val w m) := by
  rw [(normalMag_normMag h).eq_limbs hw, val_normMag]

theorem NormalMag.val_eq_zero_iff {w : Nat} {m : List Nat} (h : NormalMag w m) : val w m = 0 ↔ m = [0] := by
  constructor
  · intro h0
    exact h.ext ⟨by simp, by simp, by simp⟩ (by simpa using h0)
  · rintro rfl; rfl

theorem NormalMag.normMag_self {w : Nat} {m : List Nat} (hw : 1 ≤ w) (h : NormalMag w m) : normMag m = m := by
  rw [normMag_eq_limbs hw h.1, ← h.eq_limbs hw]

theorem length_limbs_le_of_le {w a b : Nat} (hw : 1 ≤ w) (h : a ≤ b) : (limbs w a).length ≤ (limbs w b).length := by
  by_contra hlt
  have ha := normalMag_limbs hw a
  have hlen : 1 < (limbs w a).length := by
    have := List.length_pos_iff.2 (normalMag_limbs hw b).2.1
    omega
  have htop : top (limbs w a) ≠ 0 := ha.2.2.resolve_left (by omega)
  have h1 : 2 ^ (w * ((limbs w a).length - 1)) ≤ a := by
    rcases List.eq_nil_or_concat (limbs w a) with h0 | ⟨m, l, h0⟩
    · rw [h0] at hlen; simp at hlen
    · have hv : val w (limbs w a) = a := val_limbs hw a
      rw [h0] at hv htop ⊢
      simp [top] at htop
      rw [List.concat_eq_append, val_append] at hv
      simp at hv ⊢
      have : 2 ^ (w * m.length) * 1 ≤ 2 ^ (w * m.length) * l := Nat.mul_le_mul_left _ (Nat.pos_of_ne_zero htop)
      omega
  have h2 : b < 2 ^ (w * (limbs w b).length) := by
    have := val_lt (normalMag_limbs hw b).1
    rwa [val_limbs hw] at this
  have h3 : 2 ^ (w * (limbs w b).length) ≤ 2 ^ (w * ((limbs w a).length - 1)) :=
    Nat.pow_le_pow_right (by norm_num) (Nat.mul_le_mul_left _ (by omega))
  omega

/-! ### values -/

@[simp] theorem ival_mkInt {w : Nat} (hw : 1 ≤ w) (z : Int) : (mkInt w z).ival w = z := by
  simp only [mkInt, BigInt.ival, val_limbs hw]
  by_cases h : z < 0 <;> simp only [h, decide_true, decide_false, if_true, if_false, Bool.false_eq_true] <;> omega

/-- `mk(z)` is normalised (R24). -/
theorem normal_mkInt {w : Nat} (hw : 1 ≤ w) (z : Int) : (mkInt w z).Normal w := by
  refine ⟨normalMag_limbs hw _, fun h => ?_⟩
  simp only [mkInt, val_limbs hw] at h ⊢
  simp; omega

/-- `normalize(m, neg) = mk(ival)`, for limbs in range (R101). -/
theorem normalize_eq_mkInt {w : Nat} (hw : 1 ≤ w) {m : List Nat} (h : LimbsOk w m) (neg : Bool) :
    normalize m neg = mkInt w (if neg then -(val w m : Int) else val w m) := by
  have hn := normMag_eq_limbs hw h
  have hz : normMag m = [0] ↔ val w m = 0 := by
    rw [← (normalMag_normMag h).val_eq_zero_iff, val_normMag]
  rw [normalize, mkInt]
  congr 1
  · rw [hn]; cases neg <;> simp
  · by_cases h0 : val w m = 0
    · cases neg <;> simp [hz.2 h0, h0]
    · have : normMag m ≠ [0] := fun hc => h0 (hz.1 hc)
      cases neg <;> simp [this]; omega

theorem ival_normalize (w : Nat) (m : List Nat) (neg : Bool) (h : LimbsOk w m) (hw : 1 ≤ w) :
    (normalize m neg).ival w = if neg then -(val w m : Int) else val w m := by
  rw [normalize_eq_mkInt hw h, ival_mkInt hw]

/-- The one normalised value of an integer is `mk` of it (R24). -/
theorem BigInt.Normal.eq_mkInt {w : Nat} (hw : 1 ≤ w) {v : BigInt} (h : v.Normal w) : v = mkInt w (v.ival w) := by
  obtain ⟨hm, hz⟩ := h
  cases v with
  | mk m neg =>
    simp only [mkInt, BigInt.ival] at *
    congr 1
    · rw [hm.eq_limbs hw]
      cases neg <;> simp [val_limbs hw]
    · cases neg
      · simp
      · by_cases h0 : val w m = 0
        · exact absurd (hz h0) (by simp)
        · simp; omega

theorem natAbs_ival (w : Nat) (v : BigInt) : (v.ival w).natAbs = val w v.mag := by
  rw [BigInt.ival]; split <;> simp

theorem BigInt.Normal.neg_eq {w : Nat} {v : BigInt} (h : v.Normal w) : v.neg = decide (v.ival w < 0) := by
  have hz := h.2
  rw [BigInt.ival]
  cases hv : v.neg
  · simp
  · have : val w v.mag ≠ 0 := fun h0 => by simp [hz h0] at hv
    simp; omega

/-! ### comparison (R102, R103) -/

theorem compare_nat_eq {a b : Nat} : compare a b = if a < b then .lt else if a = b then .eq else .gt := by
  rcases Nat.lt_trichotomy a b with h | h | h
  · rw [Nat.compare_eq_lt.2 h, if_pos h]
  · rw [Nat.compare_eq_eq.2 h, if_neg (by omega), if_pos h]
  · rw [Nat.compare_eq_gt.2 h, if_neg (by omega), if_neg (by omega)]

theorem cmpLimbs_eq {w : Nat} {a b : List Nat} (ha : LimbsOk w a) (hb : LimbsOk w b) (h : a.length = b.length) :
    cmpLimbs a b = compare (val w a) (val w b) := by
  induction a generalizing b with
  | nil =>
    obtain rfl := List.length_eq_zero_iff.1 h.symm
    simp [cmpLimbs]
  | cons l a ih =>
    cases b with
    | nil => simp at h
    | cons k b =>
      have hl : l < 2 ^ w := ha l (by simp)
      have hk : k < 2 ^ w := hb k (by simp)
      rw [cmpLimbs, ih (fun x hx => ha x (by simp [hx])) (fun x hx => hb x (by simp [hx])) (by simpa using h),
        val_cons, val_cons]
      rcases Nat.lt_trichotomy (val w a) (val w b) with hlt | heq | hgt
      · have : 2 ^ w * (val w a + 1) ≤ 2 ^ w * val w b := Nat.mul_le_mul_left _ hlt
        rw [Nat.mul_add] at this
        have hs : l + 2 ^ w * val w a < k + 2 ^ w * val w b := by omega
        rw [Nat.compare_eq_lt.2 hlt, Nat.compare_eq_lt.2 hs]; rfl
      · rw [heq, compare_nat_eq, compare_nat_eq, compare_nat_eq]
        simp
      · have : 2 ^ w * (val w b + 1) ≤ 2 ^ w * val w a := Nat.mul_le_mul_left _ hgt
        rw [Nat.mul_add] at this
        have hs : k + 2 ^ w * val w b < l + 2 ^ w * val w a := by omega
        rw [Nat.compare_eq_gt.2 hgt, Nat.compare_eq_gt.2 hs]; rfl

theorem NormalMag.val_lt_of_length_lt {w : Nat} (hw : 1 ≤ w) {a b : List Nat} (ha : NormalMag w a)
    (hb : NormalMag w b) (h : a.length < b.length) : val w a < val w b := by
  by_contra hge
  have := length_limbs_le_of_le hw (Nat.le_of_not_lt hge)
  rw [← ha.eq_limbs hw, ← hb.eq_limbs hw] at this
  omega

/-- `cmp_mag` compares the values (R102). -/
theorem cmpMag_eq {w : Nat} (hw : 1 ≤ w) {a b : List Nat} (ha : NormalMag w a) (hb : NormalMag w b) :
    cmpMag a b = compare (val w a) (val w b) := by
  rw [cmpMag]
  rcases Nat.lt_trichotomy a.length b.length with h | h | h
  · rw [Nat.compare_eq_lt.2 h, Nat.compare_eq_lt.2 (ha.val_lt_of_length_lt hw hb h)]; rfl
  · rw [Nat.compare_eq_eq.2 h, cmpLimbs_eq ha.1 hb.1 h]; rfl
  · rw [Nat.compare_eq_gt.2 h, Nat.compare_eq_gt.2 (hb.val_lt_of_length_lt hw ha h)]; rfl

/-- `cmp` compares the integers (R103, R118). -/
theorem cmpInt_eq {w : Nat} (hw : 1 ≤ w) {a b : BigInt} (ha : a.Normal w) (hb : b.Normal w) :
    cmpInt a b = compare (a.ival w) (b.ival w) := by
  have hza := ha.2
  have hzb := hb.2
  rw [cmpInt, cmpMag_eq hw ha.1 hb.1]
  cases hna : a.neg <;> cases hnb : b.neg <;> simp only [BigInt.ival, hna, hnb] <;> simp
  · rw [compare_nat_eq]
    rcases Nat.lt_trichotomy (val w a.mag) (val w b.mag) with h | h | h
    · rw [if_pos h, Int.compare_eq_lt.2 (by omega)]
    · rw [h]; simp
    · rw [if_neg (by omega), if_neg (by omega), Int.compare_eq_gt.2 (by omega)]
  · have : val w b.mag ≠ 0 := fun h => by simp [hzb h] at hnb
    rw [Int.compare_eq_gt.2 (by omega)]
  · have : val w a.mag ≠ 0 := fun h => by simp [hza h] at hna
    rw [Int.compare_eq_lt.2 (by omega)]
  · rw [compare_nat_eq]
    rcases Nat.lt_trichotomy (val w a.mag) (val w b.mag) with h | h | h
    · rw [if_pos h, Int.compare_eq_gt.2 (by omega)]; rfl
    · rw [h]; simp
    · rw [if_neg (by omega), if_neg (by omega), Int.compare_eq_lt.2 (by omega)]; rfl

/-! ### bit length (R11) -/

/-- The most significant limb at its place is a lower bound of the value. -/
theorem top_mul_le_val (w : Nat) {m : List Nat} (h : m ≠ []) : top m * 2 ^ (w * (m.length - 1)) ≤ val w m := by
  have hm : m.dropLast ++ [m.getLast h] = m := List.dropLast_append_getLast h
  have ht : top m = m.getLast h := by rw [top, List.getLastD_eq_getLast?, List.getLast?_eq_getLast_of_ne_nil h]; rfl
  have := val_append w m.dropLast [m.getLast h]
  rw [hm, List.length_dropLast, val_cons, val_nil] at this
  rw [this, ht, Nat.mul_comm]
  simp

/-- A non-zero value has its highest bit at place `bitlen - 1` or above. -/
theorem two_pow_bitlen_le {w : Nat} {m : List Nat} (h : NormalMag w m) (h0 : val w m ≠ 0) :
    2 ^ (bitlen w m - 1) ≤ val w m := by
  have htop : top m ≠ 0 := by
    rcases h.2.2 with hl | ht
    · obtain ⟨l, rfl⟩ := List.length_eq_one_iff.1 hl
      intro hz
      simp [top] at hz
      simp [hz] at h0
    · exact ht
  have hmem : top m ∈ m := by
    rw [top, List.getLastD_eq_getLast?, List.getLast?_eq_getLast_of_ne_nil h.2.1]
    exact List.getLast_mem h.2.1
  have hlog : (top m).log2 < w := (Nat.log2_lt htop).2 (h.1 _ hmem)
  have hb : bitlen w m - 1 = (top m).log2 + w * (m.length - 1) := by
    rw [bitlen, if_neg h0, clzLimb, if_neg htop, Nat.mul_comm w]
    omega
  rw [hb, pow_add]
  exact (Nat.mul_le_mul_right _ (Nat.log2_self_le htop)).trans (top_mul_le_val w h.2.1)

end Sys2Proof.Machine
end

