-- ==== Sys2Proof/Laws/Additive.lean ====
section
/-! SUPPORT. The adder and the subtractor (spec/41_additive.md R140 to R143): their values, and that their limbs stay in
range. -/

namespace Sys2Proof.Machine

theorem val_headD_tail (w : Nat) (m : List Nat) : val w m = m.headD 0 + 2 ^ w * val w m.tail := by
  cases m <;> simp

theorem LimbsOk.headD {w : Nat} {m : List Nat} (h : LimbsOk w m) : m.headD 0 < 2 ^ w := by
  cases m with
  | nil => simp
  | cons l m => exact h l (by simp)

theorem LimbsOk.tail {w : Nat} {m : List Nat} (h : LimbsOk w m) : LimbsOk w m.tail := fun l hl =>
  h l (List.mem_of_mem_tail hl)

theorem limbsOk_cons {w l : Nat} {m : List Nat} : LimbsOk w (l :: m) ↔ l < 2 ^ w ∧ LimbsOk w m := by
  simp [LimbsOk]

/-- The carry loop adds (R140). -/
theorem addLoop_spec {w : Nat} (hw : 1 ≤ w) (n : Nat) (a b : List Nat) (c : Nat) (ha : LimbsOk w a) (hb : LimbsOk w b)
    (hc : c ≤ 1) (hla : a.length ≤ n) (hlb : b.length ≤ n) :
    val w (addLoop w n a b c) = val w a + val w b + c ∧ LimbsOk w (addLoop w n a b c) := by
  have h2 : 2 ≤ 2 ^ w := by simpa using Nat.pow_le_pow_right (by norm_num : 1 ≤ 2) hw
  induction n generalizing a b c with
  | zero =>
    obtain rfl := List.length_eq_zero_iff.1 (Nat.le_zero.1 hla)
    obtain rfl := List.length_eq_zero_iff.1 (Nat.le_zero.1 hlb)
    rw [addLoop]
    split
    · refine ⟨by simp; omega, fun l hl => ?_⟩
      simp at hl; omega
    · refine ⟨by simp; omega, by simp [LimbsOk]⟩
  | succ n ih =>
    have hA := ha.headD
    have hB := hb.headD
    have hta : a.tail.length ≤ n := by simp; omega
    have htb : b.tail.length ≤ n := by simp; omega
    rw [addLoop, val_headD_tail w a, val_headD_tail w b]
    split
    · obtain ⟨hv, hl⟩ := ih a.tail b.tail 1 ha.tail hb.tail le_rfl hta htb
      refine ⟨?_, limbsOk_cons.2 ⟨by omega, hl⟩⟩
      rw [val_cons, hv]
      simp only [Nat.mul_add, Nat.mul_one]
      omega
    · obtain ⟨hv, hl⟩ := ih a.tail b.tail 0 ha.tail hb.tail (by omega) hta htb
      refine ⟨?_, limbsOk_cons.2 ⟨by omega, hl⟩⟩
      rw [val_cons, hv]
      simp only [Nat.mul_add, Nat.mul_zero]
      omega

/-- `val(add_mag(a, b)) = val(a) + val(b)` (R140). -/
theorem val_addMag {w : Nat} (hw : 1 ≤ w) {a b : List Nat} (ha : LimbsOk w a) (hb : LimbsOk w b) :
    val w (addMag w a b) = val w a + val w b := by
  simpa [addMag] using (addLoop_spec hw _ a b 0 ha hb (by omega) (le_max_left _ _) (le_max_right _ _)).1

theorem limbsOk_addMag {w : Nat} (hw : 1 ≤ w) {a b : List Nat} (ha : LimbsOk w a) (hb : LimbsOk w b) :
    LimbsOk w (addMag w a b) :=
  (addLoop_spec hw _ a b 0 ha hb (by omega) (le_max_left _ _) (le_max_right _ _)).2

/-- The borrow loop keeps limbs in range, whatever its operands. -/
theorem limbsOk_subLoop {w : Nat} (a b : List Nat) (c : Nat) (ha : LimbsOk w a) (hb : LimbsOk w b) (hc : c ≤ 1) :
    LimbsOk w (subLoop w a b c) := by
  induction a generalizing b c with
  | nil => simp [subLoop, LimbsOk]
  | cons l a ih =>
    have hl : l < 2 ^ w := ha l (by simp)
    rw [subLoop]
    split
    · exact limbsOk_cons.2 ⟨by omega, ih _ _ ha.tail hb.tail (by omega)⟩
    · exact limbsOk_cons.2 ⟨by omega, ih _ _ ha.tail hb.tail (by omega)⟩

/-- The borrow loop subtracts, where the minuend is no shorter and no smaller (R141). -/
theorem val_subLoop {w : Nat} (a b : List Nat) (c : Nat) (ha : LimbsOk w a) (hb : LimbsOk w b) (hc : c ≤ 1)
    (hlen : b.length ≤ a.length) (h : val w b + c ≤ val w a) :
    val w (subLoop w a b c) + (val w b + c) = val w a := by
  induction a generalizing b c with
  | nil =>
    obtain rfl := List.length_eq_zero_iff.1 (Nat.le_zero.1 hlen)
    simp at h
    simp [subLoop, h]
  | cons l a ih =>
    have hl : l < 2 ^ w := ha l (by simp)
    have hB := hb.headD
    have hlen' : b.tail.length ≤ a.length := by simp at hlen ⊢; omega
    rw [val_headD_tail w b, val_cons] at h
    rw [subLoop, val_headD_tail w b, val_cons]
    split
    · have hle : val w b.tail + 1 ≤ val w a := by
        by_contra hlt
        have : 2 ^ w * val w a ≤ 2 ^ w * val w b.tail := Nat.mul_le_mul_left _ (by omega)
        omega
      have := ih b.tail 1 ha.tail hb.tail le_rfl hlen' hle
      rw [val_cons, ← this]
      simp only [Nat.mul_add, Nat.mul_one]
      omega
    · have hle : val w b.tail + 0 ≤ val w a := by
        by_contra hlt
        have : 2 ^ w * (val w a + 1) ≤ 2 ^ w * val w b.tail := Nat.mul_le_mul_left _ (by omega)
        rw [Nat.mul_add] at this
        omega
      have := ih b.tail 0 ha.tail hb.tail (by omega) hlen' hle
      rw [val_cons, ← this]
      simp only [Nat.mul_add, Nat.mul_zero]
      omega

/-- `sub_mag` is always a normal magnitude. -/
theorem normalMag_subMag {w : Nat} {a b : List Nat} (ha : LimbsOk w a) (hb : LimbsOk w b) :
    NormalMag w (subMag w a b) :=
  normalMag_normMag (limbsOk_subLoop a b 0 ha hb (by omega))

/-- `val(sub_mag(a, b)) = val(a) - val(b)` where `val(a) >= val(b)` (R141). -/
theorem val_subMag {w : Nat} (hw : 1 ≤ w) {a b : List Nat} (ha : NormalMag w a) (hb : NormalMag w b)
    (h : val w b ≤ val w a) : val w (subMag w a b) = val w a - val w b := by
  have hlen : b.length ≤ a.length := by
    by_contra hlt
    have := ha.val_lt_of_length_lt hw hb (by omega)
    omega
  have := val_subLoop a b 0 ha.1 hb.1 (by omega) hlen (by omega)
  rw [subMag, val_normMag]
  omega

/-- `add_signed` is the exact sum (R142). -/
theorem addSigned_eq {w : Nat} (hw : 1 ≤ w) {a b : BigInt} (ha : a.Normal w) (hb : b.Normal w) :
    addSigned w a b = mkInt w (a.ival w + b.ival w) := by
  have hadd := normalize_eq_mkInt hw (limbsOk_addMag hw ha.1.1 hb.1.1)
  have hab := normalize_eq_mkInt hw (normalMag_subMag ha.1.1 hb.1.1).1
  have hba := normalize_eq_mkInt hw (normalMag_subMag hb.1.1 ha.1.1).1
  rw [addSigned]
  split
  · rename_i hs
    rw [hadd, val_addMag hw ha.1.1 hb.1.1, BigInt.ival, BigInt.ival, hs]
    cases b.neg <;> simp <;> congr 1; omega
  · rename_i hs
    rw [cmpMag_eq hw ha.1 hb.1]
    rcases Nat.lt_trichotomy (val w a.mag) (val w b.mag) with h | h | h
    · rw [Nat.compare_eq_lt.2 h]
      simp only
      rw [hba, val_subMag hw hb.1 ha.1 h.le, BigInt.ival, BigInt.ival]
      cases hna : a.neg <;> cases hnb : b.neg <;> simp_all <;> congr 1 <;> omega
    · rw [Nat.compare_eq_eq.2 h]
      simp only
      rw [BigInt.ival, BigInt.ival]
      cases hna : a.neg <;> cases hnb : b.neg <;> simp_all [mkInt, limbs, zeroInt]
    · rw [Nat.compare_eq_gt.2 h]
      simp only
      rw [hab, val_subMag hw ha.1 hb.1 h.le, BigInt.ival, BigInt.ival]
      cases hna : a.neg <;> cases hnb : b.neg <;> simp_all <;> congr 1 <;> omega

/-- `sub_signed` is the exact difference (R143). -/
theorem subSigned_eq {w : Nat} (hw : 1 ≤ w) {a b : BigInt} (ha : a.Normal w) (hb : b.Normal w) :
    subSigned w a b = mkInt w (a.ival w - b.ival w) := by
  have hadd := normalize_eq_mkInt hw (limbsOk_addMag hw ha.1.1 hb.1.1)
  have hab := normalize_eq_mkInt hw (normalMag_subMag ha.1.1 hb.1.1).1
  have hba := normalize_eq_mkInt hw (normalMag_subMag hb.1.1 ha.1.1).1
  rw [subSigned]
  split
  · rename_i hs
    rw [hadd, val_addMag hw ha.1.1 hb.1.1, BigInt.ival, BigInt.ival]
    cases hna : a.neg <;> cases hnb : b.neg <;> simp_all <;> congr 1 <;> omega
  · rename_i hs
    rw [cmpMag_eq hw ha.1 hb.1]
    rcases Nat.lt_trichotomy (val w a.mag) (val w b.mag) with h | h | h
    · rw [Nat.compare_eq_lt.2 h]
      simp only
      rw [hba, val_subMag hw hb.1 ha.1 h.le, BigInt.ival, BigInt.ival]
      cases hna : a.neg <;> cases hnb : b.neg <;> simp_all <;> congr 1 <;> omega
    · rw [Nat.compare_eq_eq.2 h]
      simp only
      rw [BigInt.ival, BigInt.ival]
      cases hna : a.neg <;> cases hnb : b.neg <;> simp_all [mkInt, limbs, zeroInt]
    · rw [Nat.compare_eq_gt.2 h]
      simp only
      rw [hab, val_subMag hw ha.1 hb.1 h.le, BigInt.ival, BigInt.ival]
      cases hna : a.neg <;> cases hnb : b.neg <;> simp_all <;> congr 1 <;> omega

end Sys2Proof.Machine
end

