-- ==== Sys2Proof/Laws/Bitwise.lean ====
section
/-! SUPPORT. Shifts and logic (spec/44_bitwise_shift.md R211, R212, R215): their values, and that their limbs stay in
range. -/

namespace Sys2Proof.Machine

theorem limbsOk_append {w : Nat} {a b : List Nat} (ha : LimbsOk w a) (hb : LimbsOk w b) : LimbsOk w (a ++ b) := by
  intro l hl
  rcases List.mem_append.1 hl with h | h
  · exact ha l h
  · exact hb l h

theorem limbsOk_replicate_zero (w n : Nat) : LimbsOk w (List.replicate n 0) := by
  intro l hl
  obtain ⟨-, rfl⟩ := List.mem_replicate.1 hl
  positivity

theorem limbsOk_drop {w : Nat} {m : List Nat} (h : LimbsOk w m) (n : Nat) : LimbsOk w (m.drop n) := fun l hl =>
  h l (List.mem_of_mem_drop hl)

theorem limbsOk_take {w : Nat} {m : List Nat} (h : LimbsOk w m) (n : Nat) : LimbsOk w (m.take n) := fun l hl =>
  h l (List.mem_of_mem_take hl)

/-! ### left shift (R211) -/

theorem shlLoop_spec {w r : Nat} (hr : r < w) (a : List Nat) (c : Nat) (ha : LimbsOk w a) (hc : c < 2 ^ r) :
    val w (shlLoop w r a c) = val w a * 2 ^ r + c ∧ LimbsOk w (shlLoop w r a c) := by
  have hw2 : 2 ^ w = 2 ^ (w - r) * 2 ^ r := by rw [← pow_add]; congr 1; omega
  have hrw : 2 ^ r < 2 ^ w := Nat.pow_lt_pow_right (by norm_num) hr
  induction a generalizing c with
  | nil =>
    rw [shlLoop]
    split
    · exact ⟨by simp, limbsOk_cons.2 ⟨by omega, by simp [LimbsOk]⟩⟩
    · refine ⟨?_, by simp [LimbsOk]⟩
      have : c = 0 := by
        by_contra h
        have hr0 : r = 0 := by by_contra h'; simp_all
        simp [hr0] at hc; omega
      simp [this]
  | cons l a ih =>
    have hl : l < 2 ^ w := ha l (by simp)
    rw [shlLoop]
    split
    · rename_i h0
      have hc0 : c = 0 := by simp [h0] at hc; omega
      obtain ⟨hv, ho⟩ := ih c ha.tail hc
      refine ⟨?_, limbsOk_cons.2 ⟨hl, ho⟩⟩
      rw [val_cons, hv, val_cons, hc0, h0]
      simp
    · have hq : l / 2 ^ (w - r) < 2 ^ r := Nat.div_lt_of_lt_mul (by rw [← hw2]; exact hl)
      obtain ⟨hv, ho⟩ := ih (l / 2 ^ (w - r)) ha.tail hq
      have hmod : l * 2 ^ r % 2 ^ w = l % 2 ^ (w - r) * 2 ^ r := by
        rw [hw2, Nat.mul_mod_mul_right]
      have hdm := Nat.mod_add_div l (2 ^ (w - r))
      have hlt : l % 2 ^ (w - r) * 2 ^ r + 2 ^ r ≤ 2 ^ w := by
        have := Nat.mod_lt l (show 0 < 2 ^ (w - r) by positivity)
        calc l % 2 ^ (w - r) * 2 ^ r + 2 ^ r = (l % 2 ^ (w - r) + 1) * 2 ^ r := by ring
          _ ≤ 2 ^ (w - r) * 2 ^ r := Nat.mul_le_mul_right _ this
          _ = 2 ^ w := hw2.symm
      refine ⟨?_, limbsOk_cons.2 ⟨by rw [hmod]; omega, ho⟩⟩
      rw [val_cons, hv, val_cons, hmod, Nat.mul_add]
      have : 2 ^ w * (l / 2 ^ (w - r)) = 2 ^ (w - r) * (l / 2 ^ (w - r)) * 2 ^ r := by rw [hw2]; ring
      rw [this]
      calc l % 2 ^ (w - r) * 2 ^ r + c + (2 ^ w * (val w a * 2 ^ r) + 2 ^ (w - r) * (l / 2 ^ (w - r)) * 2 ^ r)
          = (l % 2 ^ (w - r) + 2 ^ (w - r) * (l / 2 ^ (w - r)) + 2 ^ w * val w a) * 2 ^ r + c := by ring
        _ = (l + 2 ^ w * val w a) * 2 ^ r + c := by rw [hdm]

theorem pow_split {w : Nat} (s : Nat) : 2 ^ s = 2 ^ (s % w) * 2 ^ (w * (s / w)) := by
  rw [← pow_add, Nat.mod_add_div]

theorem shl_body_spec {w : Nat} (hw : 1 ≤ w) {a : List Nat} (ha : LimbsOk w a) (s : Nat) :
    val w (List.replicate (s / w) 0 ++ shlLoop w (s % w) a 0) = val w a * 2 ^ s ∧
      LimbsOk w (List.replicate (s / w) 0 ++ shlLoop w (s % w) a 0) := by
  obtain ⟨hv, ho⟩ := shlLoop_spec (Nat.mod_lt s hw) a 0 ha (by positivity)
  refine ⟨?_, limbsOk_append (limbsOk_replicate_zero _ _) ho⟩
  rw [val_append, val_replicate_zero, hv, List.length_replicate, pow_split (w := w) s]
  ring

/-- `val(shl_mag(a, s)) = val(a) * 2^s` (R211). -/
theorem val_shlMag {w : Nat} (hw : 1 ≤ w) {a : List Nat} (ha : LimbsOk w a) (s : Nat) :
    val w (shlMag w a s) = val w a * 2 ^ s := by
  rw [shlMag, val_normMag, (shl_body_spec hw ha s).1]

theorem normalMag_shlMag {w : Nat} (hw : 1 ≤ w) {a : List Nat} (ha : LimbsOk w a) (s : Nat) :
    NormalMag w (shlMag w a s) :=
  normalMag_normMag (shl_body_spec hw ha s).2

/-! ### right shift (R212) -/

theorem shrLoop_spec {w r : Nat} (hr : r < w) (a : List Nat) (ha : LimbsOk w a) :
    val w (shrLoop w r a) = val w a / 2 ^ r ∧ LimbsOk w (shrLoop w r a) := by
  have hw2 : 2 ^ w = 2 ^ (w - r) * 2 ^ r := by rw [← pow_add]; congr 1; omega
  have hp : 0 < 2 ^ r := by positivity
  induction a with
  | nil => simp [shrLoop, LimbsOk]
  | cons l a ih =>
    have hl : l < 2 ^ w := ha l (by simp)
    obtain ⟨hv, ho⟩ := ih ha.tail
    rw [shrLoop]
    split
    · rename_i h0
      refine ⟨?_, limbsOk_cons.2 ⟨hl, ho⟩⟩
      rw [val_cons, hv, val_cons, h0]
      simp
    · have hmod : a.headD 0 * 2 ^ (w - r) % 2 ^ w = a.headD 0 % 2 ^ r * 2 ^ (w - r) := by
        rw [hw2, Nat.mul_comm (2 ^ (w - r)) (2 ^ r), Nat.mul_mod_mul_right]
      have hq : l / 2 ^ r < 2 ^ (w - r) := Nat.div_lt_of_lt_mul (by rw [Nat.mul_comm, ← hw2]; exact hl)
      have hlt : a.headD 0 % 2 ^ r * 2 ^ (w - r) + 2 ^ (w - r) ≤ 2 ^ w := by
        have := Nat.mod_lt (a.headD 0) hp
        calc a.headD 0 % 2 ^ r * 2 ^ (w - r) + 2 ^ (w - r) = (a.headD 0 % 2 ^ r + 1) * 2 ^ (w - r) := by ring
          _ ≤ 2 ^ r * 2 ^ (w - r) := Nat.mul_le_mul_right _ this
          _ = 2 ^ w := by rw [hw2, Nat.mul_comm]
      have hdiv : (l + 2 ^ w * val w a) / 2 ^ r = l / 2 ^ r + 2 ^ (w - r) * val w a := by
        rw [show 2 ^ w * val w a = 2 ^ (w - r) * val w a * 2 ^ r by rw [hw2]; ring, Nat.add_mul_div_right _ _ hp]
      have htail : val w a = a.headD 0 % 2 ^ r + 2 ^ r * (val w a / 2 ^ r) := by
        have h1 : val w a % 2 ^ r = a.headD 0 % 2 ^ r := by
          rw [val_headD_tail w a, hw2]
          rw [show 2 ^ (w - r) * 2 ^ r * val w a.tail = 2 ^ r * (2 ^ (w - r) * val w a.tail) by ring,
            Nat.add_mul_mod_self_left]
        rw [← h1, Nat.mod_add_div]
      refine ⟨?_, limbsOk_cons.2 ⟨by rw [hmod]; omega, ho⟩⟩
      rw [val_cons, hv, val_cons, hmod, hdiv, htail, hw2]
      have e : (a.headD 0 % 2 ^ r + 2 ^ r * (val w a / 2 ^ r)) / 2 ^ r = val w a / 2 ^ r := by rw [← htail]
      rw [e]; ring

theorem val_drop {w : Nat} {a : List Nat} (ha : LimbsOk w a) (n : Nat) : val w (a.drop n) = val w a / 2 ^ (w * n) := by
  by_cases hn : a.length ≤ n
  · rw [List.drop_eq_nil_of_le hn, val_nil, Nat.div_eq_of_lt]
    exact (val_lt ha).trans_le (Nat.pow_le_pow_right (by norm_num) (Nat.mul_le_mul_left _ hn))
  · have hl : (a.take n).length = n := by simp; omega
    have h1 := val_append w (a.take n) (a.drop n)
    rw [List.take_append_drop, hl] at h1
    have h2 := val_lt (limbsOk_take ha n)
    rw [hl] at h2
    rw [h1, Nat.add_mul_div_left _ _ (by positivity), Nat.div_eq_of_lt h2, Nat.zero_add]

theorem val_take {w : Nat} {a : List Nat} (ha : LimbsOk w a) (n : Nat) : val w (a.take n) = val w a % 2 ^ (w * n) := by
  by_cases hn : a.length ≤ n
  · rw [List.take_of_length_le hn, Nat.mod_eq_of_lt]
    exact (val_lt ha).trans_le (Nat.pow_le_pow_right (by norm_num) (Nat.mul_le_mul_left _ hn))
  · have hl : (a.take n).length = n := by simp; omega
    have h1 := val_append w (a.take n) (a.drop n)
    rw [List.take_append_drop, hl] at h1
    have h2 := val_lt (limbsOk_take ha n)
    rw [hl] at h2
    rw [h1, Nat.add_mul_mod_self_left, Nat.mod_eq_of_lt h2]

/-- `val(shr_mag(a, s)) = val(a) div 2^s` (R212). -/
theorem val_shrMag {w : Nat} (hw : 1 ≤ w) {a : List Nat} (ha : LimbsOk w a) (s : Nat) :
    val w (shrMag w a s) = val w a / 2 ^ s := by
  rw [shrMag]
  split
  · rename_i h
    rw [Nat.div_eq_of_lt]
    · rfl
    refine (val_lt ha).trans_le (Nat.pow_le_pow_right (by norm_num) ?_)
    calc w * a.length ≤ w * (s / w) := Nat.mul_le_mul_left _ h
      _ ≤ s := Nat.mul_div_le s w
  · rw [val_normMag, (shrLoop_spec (Nat.mod_lt s hw) _ (limbsOk_drop ha _)).1, val_drop ha, Nat.div_div_eq_div_mul,
      ← pow_add, Nat.div_add_mod]

theorem normalMag_shrMag {w : Nat} (hw : 1 ≤ w) {a : List Nat} (ha : LimbsOk w a) (s : Nat) :
    NormalMag w (shrMag w a s) := by
  rw [shrMag]
  split
  · exact ⟨by simp, by simp, by simp⟩
  · exact normalMag_normMag (shrLoop_spec (Nat.mod_lt s hw) _ (limbsOk_drop ha _)).2

/-! ### slices (R197) -/

theorem val_loLimbs {w : Nat} {a : List Nat} (ha : LimbsOk w a) (q : Nat) :
    val w (loLimbs a q) = val w a % 2 ^ (w * q) := by rw [loLimbs, val_normMag, val_take ha]

theorem val_hiLimbs {w : Nat} {a : List Nat} (ha : LimbsOk w a) (q : Nat) :
    val w (hiLimbs a q) = val w a / 2 ^ (w * q) := by rw [hiLimbs, val_normMag, val_drop ha]

theorem normalMag_loLimbs {w : Nat} {a : List Nat} (ha : LimbsOk w a) (q : Nat) : NormalMag w (loLimbs a q) :=
  normalMag_normMag (limbsOk_take ha q)

theorem normalMag_hiLimbs {w : Nat} {a : List Nat} (ha : LimbsOk w a) (q : Nat) : NormalMag w (hiLimbs a q) :=
  normalMag_normMag (limbsOk_drop ha q)

theorem val_shlLimbs (w : Nat) (z : List Nat) (q : Nat) : val w (shlLimbs z q) = val w z * 2 ^ (w * q) := by
  rw [shlLimbs]
  split
  · rename_i h; simp [h]
  · rw [val_append, val_replicate_zero, List.length_replicate]; ring

/-! ### logic (R215) -/

/-- A limb-wise operation on padded operands is the operation on their values, for the bitwise operations. -/
theorem padLimbs_bitwise {w : Nat} (f : Bool → Bool → Bool) (hf : f false false = false) (n : Nat) (a b : List Nat)
    (ha : LimbsOk w a) (hb : LimbsOk w b) :
    val w (padLimbs (Nat.bitwise f) n a b) = Nat.bitwise f (val w a) (val w b) % 2 ^ (w * n) ∧
      LimbsOk w (padLimbs (Nat.bitwise f) n a b) := by
  induction n generalizing a b with
  | zero => simp [padLimbs, LimbsOk, Nat.mod_one]
  | succ n ih =>
    obtain ⟨hv, ho⟩ := ih a.tail b.tail ha.tail hb.tail
    have hA := ha.headD
    have hB := hb.headD
    have hlt : Nat.bitwise f (a.headD 0) (b.headD 0) < 2 ^ w := Nat.bitwise_lt_two_pow hA hB
    rw [padLimbs]
    refine ⟨?_, limbsOk_cons.2 ⟨hlt, ho⟩⟩
    rw [val_cons, hv, val_headD_tail w a, val_headD_tail w b]
    apply Nat.eq_of_testBit_eq
    intro i
    rw [Nat.add_comm, Nat.testBit_two_pow_mul_add _ hlt, Nat.testBit_mod_two_pow, Nat.testBit_bitwise hf,
      Nat.add_comm (a.headD 0), Nat.add_comm (b.headD 0), Nat.testBit_mod_two_pow, Nat.testBit_bitwise hf (2 ^ w * _ + _),
      Nat.testBit_two_pow_mul_add _ hA, Nat.testBit_two_pow_mul_add _ hB]
    by_cases hi : i < w
    · have : i < w * (n + 1) := by rw [Nat.mul_succ]; omega
      simp [hi, this]
    · have : i - w < w * n ↔ i < w * (n + 1) := by rw [Nat.mul_succ]; omega
      simp [hi, this, Nat.testBit_bitwise hf]

theorem pow_len_le {w m n : Nat} (h : m ≤ n) : 2 ^ (w * m) ≤ 2 ^ (w * n) :=
  Nat.pow_le_pow_right (by norm_num) (Nat.mul_le_mul_left _ h)

/-- The limbs of AND: `val(a) and val(b)`; truncating drops nothing (R215). -/
theorem val_andLimbs {w : Nat} {a b : List Nat} (ha : LimbsOk w a) (hb : LimbsOk w b) :
    val w (andLimbs a b) = val w a &&& val w b ∧ LimbsOk w (andLimbs a b) := by
  obtain ⟨hv, ho⟩ := padLimbs_bitwise and rfl (min a.length b.length) a b ha hb
  refine ⟨?_, ho⟩
  refine hv.trans (Nat.mod_eq_of_lt ?_)
  change val w a &&& val w b < _
  rcases le_total a.length b.length with h | h
  · rw [min_eq_left h]; exact Nat.and_le_left.trans_lt (val_lt ha)
  · rw [min_eq_right h]; exact Nat.and_le_right.trans_lt (val_lt hb)

theorem val_orLimbs {w : Nat} {a b : List Nat} (ha : LimbsOk w a) (hb : LimbsOk w b) :
    val w (orLimbs a b) = val w a ||| val w b ∧ LimbsOk w (orLimbs a b) := by
  obtain ⟨hv, ho⟩ := padLimbs_bitwise or rfl (max a.length b.length) a b ha hb
  exact ⟨hv.trans (Nat.mod_eq_of_lt (Nat.or_lt_two_pow ((val_lt ha).trans_le (pow_len_le (le_max_left _ _)))
    ((val_lt hb).trans_le (pow_len_le (le_max_right _ _))))), ho⟩

theorem val_xorLimbs {w : Nat} {a b : List Nat} (ha : LimbsOk w a) (hb : LimbsOk w b) :
    val w (xorLimbs a b) = val w a ^^^ val w b ∧ LimbsOk w (xorLimbs a b) := by
  obtain ⟨hv, ho⟩ := padLimbs_bitwise bne rfl (max a.length b.length) a b ha hb
  exact ⟨hv.trans (Nat.mod_eq_of_lt (Nat.xor_lt_two_pow ((val_lt ha).trans_le (pow_len_le (le_max_left _ _)))
    ((val_lt hb).trans_le (pow_len_le (le_max_right _ _))))), ho⟩

/-- The limbs of NOT: `RADIX^len - 1 - val` over the operand's own limbs (R219). -/
theorem val_notLimbs {w : Nat} {m : List Nat} (h : LimbsOk w m) :
    val w (notLimbs w m) = 2 ^ (w * m.length) - 1 - val w m ∧ LimbsOk w (notLimbs w m) := by
  have hp : 0 < 2 ^ w := by positivity
  induction m with
  | nil => simp [notLimbs, LimbsOk]
  | cons l m ih =>
    have hl : l < 2 ^ w := h l (by simp)
    obtain ⟨hv, ho⟩ := ih h.tail
    have hb := val_lt h.tail
    refine ⟨?_, limbsOk_cons.2 ⟨show 2 ^ w - 1 - l < 2 ^ w by omega, ho⟩⟩
    have hstep : val w (notLimbs w (l :: m)) = (2 ^ w - 1 - l) + 2 ^ w * val w (notLimbs w m) := rfl
    have hlen : 2 ^ (w * (l :: m).length) = 2 ^ w * 2 ^ (w * m.length) := by
      rw [List.length_cons, Nat.mul_succ, pow_add, Nat.mul_comm]
    have hsub : 2 ^ w * (2 ^ (w * m.length) - 1 - val w m) + 2 ^ w * (1 + val w m) = 2 ^ w * 2 ^ (w * m.length) := by
      rw [← Nat.mul_add]; congr 1
      simp only [List.tail_cons] at hb
      omega
    rw [hstep, hv, hlen, val_cons]
    simp only [Nat.mul_add, Nat.mul_one] at hsub
    simp only [List.tail_cons] at *
    omega

end Sys2Proof.Machine
end

