-- ==== Sys2Proof/Laws/Decode.lean ====
section
/-! SUPPORT. The fields of a packed command word and of a packed immediate read back (spec/30_encoding.md R63, R65). -/

namespace Sys2Proof

theorem extract_append_low {n m : Nat} (x : BitVec n) (y : BitVec m) : (x ++ y).extractLsb' 0 m = y := by
  ext j hj
  simp [BitVec.getLsbD_append, hj]

theorem extract_append_high {n m : Nat} (x : BitVec n) (y : BitVec m) (k l : Nat) :
    (x ++ y).extractLsb' (m + k) l = x.extractLsb' k l := by
  ext j hj
  simp only [BitVec.getElem_extractLsb', BitVec.getLsbD_append]
  rw [if_neg (by omega)]
  congr 1
  omega

theorem extract_append_within {n m : Nat} (x : BitVec n) (y : BitVec m) (k l : Nat) (h : k + l ≤ m) :
    (x ++ y).extractLsb' k l = y.extractLsb' k l := by
  ext j hj
  simp only [BitVec.getElem_extractLsb', BitVec.getLsbD_append]
  rw [if_pos (by omega)]

theorem extract_self {n : Nat} (x : BitVec n) : x.extractLsb' 0 n = x := by
  ext j hj
  simp

theorem packWord_opcode (code : BitVec 8) (f : Fields) : (packWord code f).extractLsb' 0 8 = code := by
  refine (extract_append_within (n := 8) (m := 24) _ _ 0 8 (by omega)).trans ?_
  refine (extract_append_within (n := 4) (m := 20) _ _ 0 8 (by omega)).trans ?_
  refine (extract_append_within (n := 4) (m := 16) _ _ 0 8 (by omega)).trans ?_
  refine (extract_append_within (n := 4) (m := 12) _ _ 0 8 (by omega)).trans ?_
  exact extract_append_low (n := 4) (m := 8) _ _

theorem packWord_rd (code : BitVec 8) (f : Fields) : (packWord code f).extractLsb' 8 4 = regBits f.rd := by
  refine (extract_append_within (n := 8) (m := 24) _ _ 8 4 (by omega)).trans ?_
  refine (extract_append_within (n := 4) (m := 20) _ _ 8 4 (by omega)).trans ?_
  refine (extract_append_within (n := 4) (m := 16) _ _ 8 4 (by omega)).trans ?_
  refine (extract_append_within (n := 4) (m := 12) _ _ 8 4 (by omega)).trans ?_
  exact (extract_append_high (n := 4) (m := 8) _ _ 0 4).trans (extract_self _)

theorem packWord_rs1 (code : BitVec 8) (f : Fields) : (packWord code f).extractLsb' 12 4 = regBits f.rs1 := by
  refine (extract_append_within (n := 8) (m := 24) _ _ 12 4 (by omega)).trans ?_
  refine (extract_append_within (n := 4) (m := 20) _ _ 12 4 (by omega)).trans ?_
  refine (extract_append_within (n := 4) (m := 16) _ _ 12 4 (by omega)).trans ?_
  exact (extract_append_high (n := 4) (m := 12) _ _ 0 4).trans (extract_self _)

theorem packWord_rs2 (code : BitVec 8) (f : Fields) : (packWord code f).extractLsb' 16 4 = regBits f.rs2 := by
  refine (extract_append_within (n := 8) (m := 24) _ _ 16 4 (by omega)).trans ?_
  refine (extract_append_within (n := 4) (m := 20) _ _ 16 4 (by omega)).trans ?_
  exact (extract_append_high (n := 4) (m := 16) _ _ 0 4).trans (extract_self _)

theorem packWord_rd2 (code : BitVec 8) (f : Fields) : (packWord code f).extractLsb' 20 4 = regBits f.rd2 := by
  refine (extract_append_within (n := 8) (m := 24) _ _ 20 4 (by omega)).trans ?_
  exact (extract_append_high (n := 4) (m := 20) _ _ 0 4).trans (extract_self _)

theorem packWord_zero (code : BitVec 8) (f : Fields) : (packWord code f).extractLsb' 24 8 = 0#8 :=
  (extract_append_high (n := 8) (m := 24) _ _ 0 8).trans (extract_self _)

theorem immAddr_append (hi : BitVec 32) (a : Addr) : immAddr (hi ++ a) = a :=
  extract_append_low (n := 32) (m := 32) hi a

theorem immLen_append (len a : Addr) : immLen (len ++ a) = len :=
  (extract_append_high (n := 32) (m := 32) len a 0 32).trans (extract_self len)

theorem immByte_append (b : Byte) (a : Addr) : immByte ((0#24 ++ b) ++ a) = b :=
  (extract_append_high (n := 32) (m := 32) (0#24 ++ b) a 0 8).trans (extract_append_low (n := 24) (m := 8) 0#24 b)

theorem immLow8_append (hi : BitVec 56) (m : BitVec 8) : immLow8 (hi ++ m) = m :=
  extract_append_low (n := 56) (m := 8) hi m

end Sys2Proof
end

