-- ==== Sys2Proof/Laws/State.lean ====
section
/-! SUPPORT. Each field of the state after each named update, true by definition, so that no later proof unfolds a
record update. -/

namespace Sys2Proof.Machine

variable (s : State)

/-! ### respond -/

@[simp] theorem State.respond_cfg (d : BitVec 64) : (s.respond d).cfg = s.cfg := rfl
@[simp] theorem State.respond_x (d : BitVec 64) : (s.respond d).x = s.x := rfl
@[simp] theorem State.respond_sr (d : BitVec 64) : (s.respond d).sr = s.sr := rfl
@[simp] theorem State.respond_tbuf (d : BitVec 64) : (s.respond d).tbuf = s.tbuf := rfl
@[simp] theorem State.respond_resets (d : BitVec 64) : (s.respond d).resets = s.resets := rfl
@[simp] theorem State.respond_input (d : BitVec 64) : (s.respond d).input = s.input := rfl
@[simp] theorem State.respond_rsp (d : BitVec 64) : (s.respond d).rsp = some ⟨0x00#8, d⟩ := rfl

/-! ### takeFault -/

@[simp] theorem State.takeFault_cfg (f : CmdFault) : (s.takeFault f).cfg = s.cfg := rfl
@[simp] theorem State.takeFault_x (f : CmdFault) : (s.takeFault f).x = s.loseRegs f.dests := rfl
@[simp] theorem State.takeFault_sr (f : CmdFault) : (s.takeFault f).sr = s.sr ||| f.srBits := rfl
@[simp] theorem State.takeFault_tbuf (f : CmdFault) : (s.takeFault f).tbuf = s.tbuf := rfl
@[simp] theorem State.takeFault_resets (f : CmdFault) : (s.takeFault f).resets = s.resets := rfl
@[simp] theorem State.takeFault_input (f : CmdFault) : (s.takeFault f).input = s.input := rfl
@[simp] theorem State.takeFault_rsp (f : CmdFault) : (s.takeFault f).rsp = some ⟨f.status, f.info⟩ := rfl

/-! ### takeReset -/

@[simp] theorem State.takeReset_cfg : (s.takeReset).cfg = s.cfg := rfl
@[simp] theorem State.takeReset_x : (s.takeReset).x = Vector.replicate 16 none := rfl
@[simp] theorem State.takeReset_sr : (s.takeReset).sr = 0x00#8 := rfl
@[simp] theorem State.takeReset_tbuf : (s.takeReset).tbuf = [] := rfl
@[simp] theorem State.takeReset_resets : (s.takeReset).resets = s.resets + 1 := rfl
@[simp] theorem State.takeReset_input : (s.takeReset).input = s.input := rfl
@[simp] theorem State.takeReset_rsp : (s.takeReset).rsp = none := rfl

/-! ### offer -/

@[simp] theorem State.offer_cfg (word : CmdWord) (imm : Imm) : (s.offer word imm).cfg = s.cfg := rfl
@[simp] theorem State.offer_x (word : CmdWord) (imm : Imm) : (s.offer word imm).x = s.x := rfl
@[simp] theorem State.offer_sr (word : CmdWord) (imm : Imm) : (s.offer word imm).sr = s.sr := rfl
@[simp] theorem State.offer_tbuf (word : CmdWord) (imm : Imm) : (s.offer word imm).tbuf = s.tbuf := rfl
@[simp] theorem State.offer_resets (word : CmdWord) (imm : Imm) : (s.offer word imm).resets = s.resets := rfl
@[simp] theorem State.offer_input (word : CmdWord) (imm : Imm) : (s.offer word imm).input = .command word imm :: s.input := rfl
@[simp] theorem State.offer_rsp (word : CmdWord) (imm : Imm) : (s.offer word imm).rsp = s.rsp := rfl

/-! ### answered -/

@[simp] theorem State.answered_cfg (d : BitVec 64) : (s.answered d).cfg = s.cfg := rfl
@[simp] theorem State.answered_x (d : BitVec 64) : (s.answered d).x = s.x := rfl
@[simp] theorem State.answered_sr (d : BitVec 64) : (s.answered d).sr = s.sr := rfl
@[simp] theorem State.answered_tbuf (d : BitVec 64) : (s.answered d).tbuf = s.tbuf := rfl
@[simp] theorem State.answered_resets (d : BitVec 64) : (s.answered d).resets = s.resets := rfl
@[simp] theorem State.answered_input (d : BitVec 64) : (s.answered d).input = s.input := rfl
@[simp] theorem State.answered_rsp (d : BitVec 64) : (s.answered d).rsp = some ⟨0x00#8, d⟩ := rfl

/-! ### wrote -/

@[simp] theorem State.wrote_cfg (rd : Reg) (v : BigInt) (d : BitVec 64) : (s.wrote rd v d).cfg = s.cfg := rfl
@[simp] theorem State.wrote_x (rd : Reg) (v : BigInt) (d : BitVec 64) : (s.wrote rd v d).x = s.x.set rd (some v) := rfl
@[simp] theorem State.wrote_sr (rd : Reg) (v : BigInt) (d : BitVec 64) : (s.wrote rd v d).sr = s.sr := rfl
@[simp] theorem State.wrote_tbuf (rd : Reg) (v : BigInt) (d : BitVec 64) : (s.wrote rd v d).tbuf = s.tbuf := rfl
@[simp] theorem State.wrote_resets (rd : Reg) (v : BigInt) (d : BitVec 64) : (s.wrote rd v d).resets = s.resets := rfl
@[simp] theorem State.wrote_input (rd : Reg) (v : BigInt) (d : BitVec 64) : (s.wrote rd v d).input = s.input := rfl
@[simp] theorem State.wrote_rsp (rd : Reg) (v : BigInt) (d : BitVec 64) : (s.wrote rd v d).rsp = some ⟨0x00#8, d⟩ := rfl

/-! ### faulted -/

@[simp] theorem State.faulted_cfg (bits status : BitVec 8) (d : BitVec 64) : (s.faulted bits status d).cfg = s.cfg := rfl
@[simp] theorem State.faulted_x (bits status : BitVec 8) (d : BitVec 64) : (s.faulted bits status d).x = s.x := rfl
@[simp] theorem State.faulted_sr (bits status : BitVec 8) (d : BitVec 64) : (s.faulted bits status d).sr = s.sr ||| bits := rfl
@[simp] theorem State.faulted_tbuf (bits status : BitVec 8) (d : BitVec 64) : (s.faulted bits status d).tbuf = s.tbuf := rfl
@[simp] theorem State.faulted_resets (bits status : BitVec 8) (d : BitVec 64) : (s.faulted bits status d).resets = s.resets := rfl
@[simp] theorem State.faulted_input (bits status : BitVec 8) (d : BitVec 64) : (s.faulted bits status d).input = s.input := rfl
@[simp] theorem State.faulted_rsp (bits status : BitVec 8) (d : BitVec 64) : (s.faulted bits status d).rsp = some ⟨status, d⟩ := rfl

/-! ### exhausted -/

@[simp] theorem State.exhausted_cfg (rd : Reg) (o : Option BigInt) : (s.exhausted rd o).cfg = s.cfg := rfl
@[simp] theorem State.exhausted_x (rd : Reg) (o : Option BigInt) : (s.exhausted rd o).x = s.x.set rd o := rfl
@[simp] theorem State.exhausted_sr (rd : Reg) (o : Option BigInt) : (s.exhausted rd o).sr = s.sr ||| 0x84#8 := rfl
@[simp] theorem State.exhausted_tbuf (rd : Reg) (o : Option BigInt) : (s.exhausted rd o).tbuf = s.tbuf := rfl
@[simp] theorem State.exhausted_resets (rd : Reg) (o : Option BigInt) : (s.exhausted rd o).resets = s.resets := rfl
@[simp] theorem State.exhausted_input (rd : Reg) (o : Option BigInt) : (s.exhausted rd o).input = s.input := rfl
@[simp] theorem State.exhausted_rsp (rd : Reg) (o : Option BigInt) : (s.exhausted rd o).rsp = some ⟨0x03#8, 0#64⟩ := rfl

/-! ### what each fault records (R70, R279) -/

@[simp] theorem CmdFault.dests_divz : CmdFault.divz.dests = [] := rfl
@[simp] theorem CmdFault.dests_fmt : CmdFault.fmt.dests = [] := rfl
@[simp] theorem CmdFault.dests_alloc (ds : List Reg) : (CmdFault.alloc ds).dests = ds := rfl
@[simp] theorem CmdFault.dests_illcmd (w : CmdWord) : (CmdFault.illcmd w).dests = [] := rfl
@[simp] theorem CmdFault.dests_uninit (r : Reg) : (CmdFault.uninit r).dests = [] := rfl
@[simp] theorem CmdFault.dests_range (a : Addr) : (CmdFault.range a).dests = [] := rfl
@[simp] theorem CmdFault.dests_halted : CmdFault.halted.dests = [] := rfl

@[simp] theorem State.loseRegs_nil : s.loseRegs [] = s.x := rfl

/-- A fault other than ALLOC is the fault state the rules write out (R280). -/
theorem State.takeFault_eq_faulted (f : CmdFault) (h : f.dests = []) :
    s.takeFault f = s.faulted f.srBits f.status f.info := by
  simp [State.takeFault, State.faulted, h]

theorem State.takeFault_alloc_one (rd : Reg) : s.takeFault (.alloc [rd]) = s.exhausted rd (s.freeDest rd) := rfl

theorem State.respond_eq_answered (d : BitVec 64) : s.respond d = s.answered d := rfl

end Sys2Proof.Machine
end

