-- ==== Sys2Proof/Laws/Ops.lean ====
section
/-! SUPPORT. What each shared operation can do, said once: the text buffer (spec/20_memory.md R43, R47, R49), operand
reads, register writes and the halted test (spec/00_scope.md R12, spec/60_exceptions.md R278). -/

namespace Sys2Proof.Machine

/-! ### The text buffer -/

theorem Tbuf.read_write_self (m : List Host.Cell) (k : Nat) (v : Byte) : Tbuf.read (Tbuf.write m k v) k = some v := by
  induction m with
  | nil => simp [Tbuf.write, Tbuf.read]
  | cons c m ih =>
    obtain ⟨a, b⟩ := c
    rw [Tbuf.write]
    split
    · simp [Tbuf.read]
    · split
      · simp [Tbuf.read]
      · rw [Tbuf.read, if_neg (by assumption), ih]

theorem Tbuf.read_write_of_ne (m : List Host.Cell) {k a : Nat} (v : Byte) (h : a ≠ k) :
    Tbuf.read (Tbuf.write m k v) a = Tbuf.read m a := by
  induction m with
  | nil => simp [Tbuf.write, Tbuf.read, h]
  | cons c m ih =>
    obtain ⟨a', b⟩ := c
    rw [Tbuf.write]
    split
    · rw [Tbuf.read, if_neg h]
    · split
      · subst_vars
        rw [Tbuf.read, if_neg h, Tbuf.read, if_neg h]
      · rw [Tbuf.read, Tbuf.read, ih]

/-- A stored text reads back byte for byte, and every other byte is as before (R43, R47). -/
theorem Tbuf.read_writeAll (m : List Host.Cell) (k : Nat) (t : List Byte) (a : Nat) :
    Tbuf.read (Tbuf.writeAll m k t) a =
      if k ≤ a ∧ a < k + t.length then t[a - k]? else Tbuf.read m a := by
  induction t generalizing m k with
  | nil => rw [Tbuf.writeAll, if_neg (by simp)]
  | cons b t ih =>
    rw [Tbuf.writeAll, ih]
    by_cases h1 : k + 1 ≤ a ∧ a < k + 1 + t.length
    · rw [if_pos h1, if_pos (by simp only [List.length_cons]; omega), show a - k = (a - (k + 1)) + 1 by omega]
      simp
    · rw [if_neg h1]
      by_cases h2 : a = k
      · subst h2
        rw [Tbuf.read_write_self, if_pos (by simp)]
        simp
      · rw [Tbuf.read_write_of_ne _ _ h2, if_neg (by simp only [List.length_cons]; omega)]

theorem Tbuf.wf_cons {c : Host.Cell} {m : List Host.Cell} :
    Tbuf.wf (c :: m) = true ↔ (∀ d ∈ m.head?, c.1 < d.1) ∧ Tbuf.wf m = true := by
  cases m with
  | nil => simp [Tbuf.wf]
  | cons d m => obtain ⟨a, b⟩ := c; obtain ⟨a', b'⟩ := d; simp [Tbuf.wf]

theorem Tbuf.head_write {m : List Host.Cell} {k : Nat} {v : Byte} {d : Host.Cell}
    (h : d ∈ (Tbuf.write m k v).head?) : d.1 = k ∨ ∃ e ∈ m.head?, d.1 = e.1 := by
  cases m with
  | nil => simp [Tbuf.write] at h; subst h; exact .inl rfl
  | cons c m =>
    obtain ⟨a, b⟩ := c
    rw [Tbuf.write] at h
    split at h
    · simp at h; subst h; exact .inl rfl
    · split at h
      · simp at h; subst h; exact .inl rfl
      · simp at h; subst h; exact .inr ⟨(a, b), by simp⟩

/-- A write keeps the canonical form. -/
theorem Tbuf.wf_write {m : List Host.Cell} (h : Tbuf.wf m = true) (k : Nat) (v : Byte) :
    Tbuf.wf (Tbuf.write m k v) = true := by
  induction m with
  | nil => rfl
  | cons c m ih =>
    obtain ⟨a, b⟩ := c
    have hc := Tbuf.wf_cons.1 h
    rw [Tbuf.write]
    split
    · exact Tbuf.wf_cons.2 ⟨by simpa using by assumption, h⟩
    · split
      · subst_vars
        exact Tbuf.wf_cons.2 ⟨hc.1, hc.2⟩
      · refine Tbuf.wf_cons.2 ⟨fun d hd => ?_, ih hc.2⟩
        rcases Tbuf.head_write hd with h1 | ⟨e, he, h1⟩
        · simp; omega
        · have := hc.1 e he
          omega

theorem Tbuf.wf_writeAll {m : List Host.Cell} (h : Tbuf.wf m = true) (k : Nat) (t : List Byte) :
    Tbuf.wf (Tbuf.writeAll m k t) = true := by
  induction t generalizing m k with
  | nil => exact h
  | cons b t ih => exact ih (Tbuf.wf_write h k b) (k + 1)

theorem Tbuf.mem_write {m : List Host.Cell} {k : Nat} {v : Byte} {c : Host.Cell} (h : c ∈ Tbuf.write m k v) :
    c.1 = k ∨ c ∈ m := by
  induction m with
  | nil => simp [Tbuf.write] at h; subst h; exact .inl rfl
  | cons d m ih =>
    obtain ⟨a, b⟩ := d
    rw [Tbuf.write] at h
    split at h
    · rcases List.mem_cons.1 h with rfl | h
      · exact .inl rfl
      · exact .inr h
    · split at h
      · rcases List.mem_cons.1 h with rfl | h
        · exact .inl rfl
        · exact .inr (by simp [h])
      · rcases List.mem_cons.1 h with rfl | h
        · exact .inr (by simp)
        · rcases ih h with h | h
          · exact .inl h
          · exact .inr (by simp [h])

/-- A write lists only addresses it stores to beside those listed before. -/
theorem Tbuf.mem_writeAll {m : List Host.Cell} {k : Nat} {t : List Byte} {c : Host.Cell}
    (h : c ∈ Tbuf.writeAll m k t) : (k ≤ c.1 ∧ c.1 < k + t.length) ∨ c ∈ m := by
  induction t generalizing m k with
  | nil => exact .inr h
  | cons b t ih =>
    rcases ih h with h1 | h1
    · left; simp only [List.length_cons]; omega
    · rcases Tbuf.mem_write h1 with h2 | h2
      · left; simp only [List.length_cons]; omega
      · exact .inr h2

theorem Tbuf.read_eq_none_of_lt {m : List Host.Cell} (h : Tbuf.wf m = true) {k : Nat}
    (hk : ∀ d ∈ m.head?, k < d.1) : Tbuf.read m k = none := by
  induction m with
  | nil => rfl
  | cons c m ih =>
    obtain ⟨a, b⟩ := c
    have hc := Tbuf.wf_cons.1 h
    have ha : k < a := hk (a, b) (by simp)
    rw [Tbuf.read, if_neg (by omega)]
    refine ih hc.2 fun d hd => ?_
    have := hc.1 d hd
    simp only at this
    omega

/-- Canonical buffers that read alike are the same list, so equal memories are equal data. -/
theorem Tbuf.ext {m n : List Host.Cell} (hm : Tbuf.wf m = true) (hn : Tbuf.wf n = true)
    (h : ∀ k, Tbuf.read m k = Tbuf.read n k) : m = n := by
  induction m generalizing n with
  | nil =>
    cases n with
    | nil => rfl
    | cons c n => have := h c.1; simp [Tbuf.read] at this
  | cons c m ih =>
    cases n with
    | nil => have := h c.1; simp [Tbuf.read] at this
    | cons d n =>
      obtain ⟨a, b⟩ := c
      obtain ⟨a', b'⟩ := d
      have hc := Tbuf.wf_cons.1 hm
      have hd := Tbuf.wf_cons.1 hn
      have haa : a = a' := by
        rcases Nat.lt_trichotomy a a' with h1 | h1 | h1
        · have h2 := h a
          rw [Tbuf.read_eq_none_of_lt hn (by simpa using h1)] at h2
          simp [Tbuf.read] at h2
        · exact h1
        · have h2 := h a'
          rw [Tbuf.read_eq_none_of_lt hm (by simpa using h1)] at h2
          simp [Tbuf.read] at h2
      subst haa
      have hbb : b = b' := by have := h a; simpa [Tbuf.read] using this
      subst hbb
      congr 1
      refine ih hc.2 hd.2 fun k => ?_
      by_cases hk : k = a
      · subst hk
        rw [Tbuf.read_eq_none_of_lt hc.2 fun e he => hc.1 e he, Tbuf.read_eq_none_of_lt hd.2 fun e he => hd.1 e he]
      · have := h k
        rwa [Tbuf.read, if_neg hk, Tbuf.read, if_neg hk] at this

@[simp] theorem State.length_bytesFrom (s : State) (a n : Nat) : (s.bytesFrom a n).length = n := by
  induction n generalizing a with
  | zero => rfl
  | succ n ih => simp [State.bytesFrom, ih]

/-- MemRead's bytes stand lowest address first (R12, R43). -/
theorem State.getElem_bytesFrom (s : State) (a n i : Nat) (h : i < n) :
    (s.bytesFrom a n)[i]? = some (s.tbufByte (a + i)) := by
  induction n generalizing a i with
  | zero => omega
  | succ n ih =>
    cases i with
    | zero => rfl
    | succ i =>
      rw [State.bytesFrom, List.getElem?_cons_succ, ih (a + 1) i (by omega), show a + 1 + i = a + (i + 1) by omega]

/-! ### Operands and results -/

theorem State.halted_eq (s : State) : s.halted = s.sr.getLsbD 7 := rfl

/-- The halted test, both ways (R278). -/
@[simp] theorem State.unlessHalted_running {s : State} (h : s.Running) (t : State) : s.unlessHalted t = .next t := by
  have : s.halted = false := h
  simp [State.unlessHalted, this]

theorem State.unlessHalted_halted {s : State} (h : s.sr.getLsbD 7 = true) (t : State) :
    s.unlessHalted t = .next (s.faulted 0x00#8 0x07#8 0#64) := by
  have : s.halted = true := h
  simp [State.unlessHalted, this, s.takeFault_eq_faulted .halted rfl]
  rfl

theorem State.unlessHalted_cases (s t : State) :
    s.unlessHalted t = .next t ∧ s.Running ∨
      s.unlessHalted t = .next (s.faulted 0x00#8 0x07#8 0#64) ∧ s.sr.getLsbD 7 = true := by
  cases h : s.sr.getLsbD 7
  · exact .inl ⟨State.unlessHalted_running h t, h⟩
  · exact .inr ⟨State.unlessHalted_halted h t, rfl⟩

/-- Reading a register that holds a value. -/
@[simp] theorem State.withSource_holds {s : State} {i : Reg} {v : BigInt} (h : s.Holds i v) (k : BigInt → State) :
    s.withSource i k = k v := by
  have h' : s.x[i] = some v := h
  simp [State.withSource, h']

/-- Reading one that holds none: UNINIT (R276). -/
@[simp] theorem State.withSource_empty {s : State} {i : Reg} (h : s.Empty i) (k : BigInt → State) :
    s.withSource i k = s.faulted 0x10#8 0x05#8 (BitVec.ofNat 64 i.val) := by
  have h' : s.x[i] = none := h
  simp only [State.withSource, h']
  exact s.takeFault_eq_faulted (.uninit i) rfl

theorem State.withSource_cases (s : State) (i : Reg) (k : BigInt → State) :
    (∃ v, s.Holds i v ∧ s.withSource i k = k v) ∨
      s.Empty i ∧ s.withSource i k = s.faulted 0x10#8 0x05#8 (BitVec.ofNat 64 i.val) := by
  cases h : s.x[i] with
  | none => exact .inr ⟨h, State.withSource_empty h k⟩
  | some v => exact .inl ⟨v, h, State.withSource_holds h k⟩

/-- Two sources: both hold values, or the first that does not is reported (R276, R281). -/
theorem State.withSources_cases (s : State) (rs1 rs2 : Reg) (k : BigInt → BigInt → State) :
    (∃ a b, s.Holds rs1 a ∧ s.Holds rs2 b ∧ s.withSources rs1 rs2 k = k a b) ∨
      ∃ i, s.Empty i ∧ (i = rs1 ∨ i = rs2) ∧
        s.withSources rs1 rs2 k = s.faulted 0x10#8 0x05#8 (BitVec.ofNat 64 i.val) := by
  rcases s.withSource_cases rs1 (fun a => s.withSource rs2 fun b => k a b) with ⟨a, ha, h1⟩ | ⟨h, h1⟩
  · rcases s.withSource_cases rs2 (fun b => k a b) with ⟨b, hb, h2⟩ | ⟨h, h2⟩
    · exact .inl ⟨a, b, ha, hb, h1.trans h2⟩
    · exact .inr ⟨rs2, h, .inr rfl, h1.trans h2⟩
  · exact .inr ⟨rs1, h, .inl rfl, h1⟩

/-- Reading text: in range, or RANGE (R43, R277). -/
theorem State.withText_cases (s : State) (addr : Addr) (n : Nat) (k : List Byte → State) :
    addr.toNat + n ≤ s.cfg.tbufBytes ∧ s.withText addr n k = k (s.bytesFrom addr.toNat n) ∨
      s.cfg.tbufBytes < addr.toNat + n ∧ s.withText addr n k = s.faulted 0x20#8 0x06#8 (addr.setWidth 64) := by
  by_cases h : addr.toNat + n ≤ s.cfg.tbufBytes
  · exact .inl ⟨h, by simp [State.withText, State.inRange, h]⟩
  · refine .inr ⟨by omega, ?_⟩
    simp only [State.withText, State.inRange, h, decide_false, Bool.false_eq_true, if_false]
    exact s.takeFault_eq_faulted (.range addr) rfl

/-- Storing text: in range, or RANGE and no byte written (R43, R277). -/
theorem State.storeText_cases (s : State) (addr : Addr) (t : List Byte) (d : BitVec 64) :
    addr.toNat + t.length ≤ s.cfg.tbufBytes ∧
        s.storeText addr t d = { s with tbuf := Tbuf.writeAll s.tbuf addr.toNat t, rsp := some ⟨0x00#8, d⟩ } ∨
      s.cfg.tbufBytes < addr.toNat + t.length ∧
        s.storeText addr t d = s.faulted 0x20#8 0x06#8 (addr.setWidth 64) := by
  by_cases h : addr.toNat + t.length ≤ s.cfg.tbufBytes
  · exact .inl ⟨h, by simp [State.storeText, State.inRange, h]⟩
  · refine .inr ⟨by omega, ?_⟩
    simp only [State.storeText, State.inRange, h, decide_false, Bool.false_eq_true, if_false]
    exact s.takeFault_eq_faulted (.range addr) rfl

/-- Writing a register: the value fits, or ALLOC (R12, R274). -/
theorem State.writeBack_cases (s : State) (rd : Reg) (v : BigInt) (d : BitVec 64) :
    fits s.cfg v.mag = true ∧ s.writeBack rd v d = s.wrote rd v d ∨
      fits s.cfg v.mag = false ∧ s.writeBack rd v d = s.exhausted rd (s.freeDest rd) := by
  cases h : fits s.cfg v.mag
  · exact .inr ⟨rfl, by simp [State.writeBack, h, s.takeFault_alloc_one]⟩
  · exact .inl ⟨rfl, by simp [State.writeBack, h, State.wrote]⟩

/-- Writing DIVMOD's two registers: both values fit, or ALLOC (R193, R274). -/
theorem State.writeBack2_cases (s : State) (rd rd2 : Reg) (q r : BigInt) :
    (fits s.cfg q.mag = true ∧ fits s.cfg r.mag = true) ∧
        s.writeBack2 rd rd2 q r =
          { s with x := (s.x.set rd (some q)).set rd2 (some r), rsp := some ⟨0x00#8, 0#64⟩ } ∨
      ¬(fits s.cfg q.mag = true ∧ fits s.cfg r.mag = true) ∧
        s.writeBack2 rd rd2 q r = s.takeFault (.alloc [rd, rd2]) := by
  by_cases h : fits s.cfg q.mag = true ∧ fits s.cfg r.mag = true
  · exact .inl ⟨h, by simp [State.writeBack2, h]⟩
  · refine .inr ⟨h, ?_⟩
    rw [State.writeBack2, if_neg (by simpa using h)]

/-- What a destination holds after ALLOC is a value a register can hold, or none (R21, R23, R274). -/
theorem State.freeDest_cases (s : State) (r : Reg) :
    s.freeDest r = none ∨ ∃ z, s.freeDest r = some (mkInt s.cfg.w z) ∧ fits s.cfg (mkInt s.cfg.w z).mag = true := by
  rw [State.freeDest]
  split
  · exact .inl rfl
  · split
    · exact .inr ⟨_, rfl, by assumption⟩
    · exact .inl rfl

end Sys2Proof.Machine
end

