-- ==== Sys2Proof/Laws/Exec.lean ====
section
/-! SUPPORT. Everything a command can do, said once: the inversion lemma of `exec`, so that a claim about all commands
needs one case per kind of effect and never unfolds a meaning. -/

namespace Sys2Proof.Machine

/-- The kinds of effect a command can have. -/
inductive Effect (i : Instr) (s : State) : State → Prop where
  /-- Refused while halted (R278). -/
  | halted (h : s.sr.getLsbD 7 = true) (hi : i ≠ .rdsr) : Effect i s (s.faulted 0x00#8 0x07#8 0#64)
  /-- DIVMOD with one destination (R73). -/
  | illegal (h : s.Running) (rd rs1 rs2 : Reg) (hi : i = .divmod rd rd rs1 rs2) (word : CmdWord) :
      Effect i s (s.faulted 0x08#8 0x04#8 (word.setWidth 64))
  /-- UNINIT (R276). -/
  | uninit (h : s.Running) (r : Reg) (hr : r ∈ i.sources) (he : s.Empty r) :
      Effect i s (s.faulted 0x10#8 0x05#8 (BitVec.ofNat 64 r.val))
  /-- RANGE (R277). -/
  | range (h : s.Running) (addr : Addr) : Effect i s (s.faulted 0x20#8 0x06#8 (addr.setWidth 64))
  /-- DIVZ (R271). -/
  | divz (h : s.Running) : Effect i s (s.faulted 0x01#8 0x01#8 0#64)
  /-- FMT (R272). -/
  | fmt (h : s.Running) : Effect i s (s.faulted 0x02#8 0x02#8 0#64)
  /-- ALLOC (R274). -/
  | alloc (h : s.Running) (hd : i.dests ≠ []) (ho : i.op ≠ .drop) : Effect i s (s.takeFault (.alloc i.dests))
  /-- A response and nothing else. -/
  | answered (d : BitVec 64) (h : s.Running ∨ i = .rdsr) (hi : i.dests = []) (ho : i.op ≠ .clrsr) :
      Effect i s (s.answered d)
  /-- One register written. -/
  | wrote (h : s.Running) (rd : Reg) (v : BigInt) (d : BitVec 64) (hi : i.dests = [rd]) (ho : i.op ≠ .drop)
      (hd : i.op = .parses → d = 1#64) (hf : fits s.cfg v.mag = true) : Effect i s (s.wrote rd v d)
  /-- DIVMOD's two registers written (R193). -/
  | wrote2 (h : s.Running) (rd rd2 : Reg) (q r : BigInt) (hi : i.dests = [rd, rd2]) (ho : i.op = .divmod)
      (hq : fits s.cfg q.mag = true) (hr : fits s.cfg r.mag = true) :
      Effect i s { s with x := (s.x.set rd (some q)).set rd2 (some r), rsp := some ⟨0x00#8, 0#64⟩ }
  /-- DROP (R106). -/
  | dropped (h : s.Running) (rd : Reg) (hi : i = .drop rd) :
      Effect i s { s with x := s.x.set rd none, rsp := some ⟨0x00#8, 0#64⟩ }
  /-- PARSES on malformed text (R237). -/
  | pfail (h : s.Running) (hi : i.op = .parses) :
      Effect i s { s with sr := s.sr ||| srPfail, rsp := some ⟨0x00#8, 0#64⟩ }
  /-- TBW (R239). -/
  | byteStored (h : s.Running) (addr : Addr) (byte : Byte) (hi : i = .tbw addr byte)
      (hr : addr.toNat + 1 ≤ s.cfg.tbufBytes) :
      Effect i s { s with tbuf := Tbuf.writeAll s.tbuf addr.toNat [byte], rsp := some ⟨0x00#8, 0#64⟩ }
  /-- FORMAT (R238). -/
  | textStored (h : s.Running) (rs1 : Reg) (addr : Addr) (v : BigInt) (hi : i = .format rs1 addr) (hv : s.Holds rs1 v)
      (hr : addr.toNat + (formatText s.cfg.w v).length ≤ s.cfg.tbufBytes) :
      Effect i s { s with
        tbuf := Tbuf.writeAll s.tbuf addr.toNat (formatText s.cfg.w v)
        rsp := some ⟨0x00#8, count (formatText s.cfg.w v).length⟩ }
  /-- CLRSR (R261). -/
  | cleared (h : s.Running) (mask : BitVec 8) (hi : i = .clrsr mask) :
      Effect i s { s with sr := clearedSr s.sr mask, rsp := some ⟨0x00#8, 0#64⟩ }

/-- The halted test in front of every command but RDSR. -/
theorem effect_unlessHalted {i : Instr} {s t : State} (hi : i ≠ .rdsr) (h : s.Running → Effect i s t) :
    ∃ u, s.unlessHalted t = .next u ∧ Effect i s u := by
  rcases s.unlessHalted_cases t with ⟨he, hr⟩ | ⟨he, hh⟩
  · exact ⟨t, he, h hr⟩
  · exact ⟨_, he, .halted hh hi⟩

theorem effect_withSource {i : Instr} {s : State} (h : s.Running) {rs1 : Reg} {k : BigInt → State}
    (hs : rs1 ∈ i.sources) (hk : ∀ v, s.Holds rs1 v → Effect i s (k v)) : Effect i s (s.withSource rs1 k) := by
  rcases s.withSource_cases rs1 k with ⟨v, hv, he⟩ | ⟨hv, he⟩ <;> rw [he]
  · exact hk v hv
  · exact .uninit h rs1 hs hv

theorem effect_withSources {i : Instr} {s : State} (h : s.Running) {rs1 rs2 : Reg} {k : BigInt → BigInt → State}
    (hs : i.sources = [rs1, rs2]) (hk : ∀ a b, s.Holds rs1 a → s.Holds rs2 b → Effect i s (k a b)) :
    Effect i s (s.withSources rs1 rs2 k) :=
  effect_withSource h (by simp [hs]) fun a ha => effect_withSource h (by simp [hs]) fun b hb => hk a b ha hb

theorem effect_writeBack {i : Instr} {s : State} (h : s.Running) {rd : Reg} {v : BigInt} {d : BitVec 64}
    (hd : i.dests = [rd]) (ho : i.op ≠ .drop) (hp : i.op = .parses → d = 1#64) : Effect i s (s.writeBack rd v d) := by
  rcases s.writeBack_cases rd v d with ⟨hf, he⟩ | ⟨-, he⟩ <;> rw [he]
  · exact .wrote h rd v d hd ho hp hf
  · have := Effect.alloc (i := i) (s := s) h (by simp [hd]) ho
    rwa [hd] at this

theorem effect_respond {i : Instr} {s : State} (h : s.Running) (d : BitVec 64) (hd : i.dests = [])
    (ho : i.op ≠ .clrsr) : Effect i s (s.respond d) :=
  .answered d (.inl h) hd ho

theorem effect_withText {i : Instr} {s : State} (h : s.Running) {addr : Addr} {n : Nat} {k : List Byte → State}
    (hk : ∀ t, Effect i s (k t)) : Effect i s (s.withText addr n k) := by
  rcases s.withText_cases addr n k with ⟨-, he⟩ | ⟨-, he⟩ <;> rw [he]
  · exact hk _
  · exact .range h addr

theorem effect_withDivision {i : Instr} {s : State} (h : s.Running) {rs1 rs2 : Reg} {k : BigInt → BigInt → State}
    (hs : i.sources = [rs1, rs2]) (hk : ∀ a b, s.Holds rs1 a → s.Holds rs2 b → Effect i s (k a b)) :
    Effect i s (withDivision rs1 rs2 s k) := by
  refine effect_withSources h hs fun a b ha hb => ?_
  split
  · rw [s.takeFault_eq_faulted .divz rfl]
    exact .divz h
  · exact hk a b ha hb

/-- Every command has a next state, and its effect is one of the kinds above. -/
theorem exec_effect (i : Instr) (s : State) : ∃ t, exec i s = .next t ∧ Effect i s t := by
  cases i with
  | ldi rd imm => exact effect_unlessHalted (by simp) fun h => effect_writeBack h rfl (by simp [Instr.op]) (by simp [Instr.op])
  | mov rd rs1 | abs rd rs1 | neg rd rs1 | inc rd rs1 | dec rd rs1 | not rd rs1 | pow rd rs1 e | shl rd rs1 e
  | shr rd rs1 e =>
    exact effect_unlessHalted (by simp) fun h =>
      effect_withSource h (by simp [Instr.sources]) fun v _ =>
        effect_writeBack h rfl (by simp [Instr.op]) (by simp [Instr.op])
  | drop rd => exact effect_unlessHalted (by simp) fun h => .dropped h rd rfl
  | iszero rs1 | isneg rs1 | size rs1 | clz rs1 =>
    exact effect_unlessHalted (by simp) fun h =>
      effect_withSource h (by simp [Instr.sources]) fun v _ => effect_respond h _ rfl (by simp [Instr.op])
  | ceq rs1 rs2 | cne rs1 rs2 | clt rs1 rs2 | cle rs1 rs2 | cgt rs1 rs2 | cge rs1 rs2 =>
    exact effect_unlessHalted (by simp) fun h =>
      effect_withSources h rfl fun a b _ _ => effect_respond h _ rfl (by simp [Instr.op])
  | add rd rs1 rs2 | sub rd rs1 rs2 | mul rd rs1 rs2 | and rd rs1 rs2 | or rd rs1 rs2 | xor rd rs1 rs2 =>
    exact effect_unlessHalted (by simp) fun h =>
      effect_withSources h rfl fun a b _ _ => effect_writeBack h rfl (by simp [Instr.op]) (by simp [Instr.op])
  | div rd rs1 rs2 | mod rd rs1 rs2 =>
    exact effect_unlessHalted (by simp) fun h =>
      effect_withDivision h rfl fun a b _ _ => effect_writeBack h rfl (by simp [Instr.op]) (by simp [Instr.op])
  | divmod rd rd2 rs1 rs2 =>
    refine effect_unlessHalted (by simp) fun h => ?_
    split
    · rename_i hd
      subst hd
      rw [s.takeFault_eq_faulted (.illcmd _) rfl]
      exact .illegal h rd rs1 rs2 rfl _
    · refine effect_withDivision h rfl fun a b _ _ => ?_
      rcases s.writeBack2_cases rd rd2 (quotSigned s.cfg a b) (remSigned s.cfg a b) with ⟨hf, he⟩ | ⟨-, he⟩ <;> rw [he]
      · exact .wrote2 h rd rd2 _ _ rfl rfl hf.1 hf.2
      · exact .alloc h (by simp [Instr.dests]) (by simp [Instr.op])
  | parse rd addr len =>
    refine effect_unlessHalted (by simp) fun h => effect_withText h fun t => ?_
    split
    · rw [s.takeFault_eq_faulted .fmt rfl]
      exact .fmt h
    · exact effect_writeBack h rfl (by simp [Instr.op]) (by simp [Instr.op])
  | parses rd addr len =>
    refine effect_unlessHalted (by simp) fun h => effect_withText h fun t => ?_
    split
    · exact .pfail h rfl
    · exact effect_writeBack h rfl (by simp [Instr.op]) fun _ => rfl
  | format rs1 addr =>
    refine effect_unlessHalted (by simp) fun h => effect_withSource h (by simp [Instr.sources]) fun v hv => ?_
    rcases s.storeText_cases addr (formatText s.cfg.w v) (count (formatText s.cfg.w v).length) with ⟨hr, he⟩ | ⟨-, he⟩
      <;> rw [he]
    · exact .textStored h rs1 addr v rfl hv hr
    · exact .range h addr
  | tbw addr byte =>
    refine effect_unlessHalted (by simp) fun h => ?_
    rcases s.storeText_cases addr [byte] 0#64 with ⟨hr, he⟩ | ⟨-, he⟩ <;> rw [he]
    · exact .byteStored h addr byte rfl hr
    · exact .range h addr
  | tbr addr =>
    exact effect_unlessHalted (by simp) fun h =>
      effect_withText h fun t => effect_respond h _ rfl (by simp [Instr.op])
  | rdsr => exact ⟨_, rfl, .answered _ (.inr rfl) rfl (by simp [Instr.op])⟩
  | clrsr mask => exact effect_unlessHalted (by simp) fun h => .cleared h mask rfl

/-- The inversion form: what a next state of a command looks like. -/
theorem effect_of_exec {i : Instr} {s t : State} (h : exec i s = .next t) : Effect i s t := by
  obtain ⟨u, hu, he⟩ := exec_effect i s
  rw [h] at hu
  cases hu
  exact he

end Sys2Proof.Machine
end

