-- ==== Sys2Proof/Laws/Handshake.lean ====
section
/-! SUPPORT. What one clock edge does in each phase of the port model (spec/30_encoding.md R61,
spec/70_reset_and_hazards.md R300), and where a command stands some clock edges after its acceptance. -/

namespace Sys2Proof.Machine

variable (b : Block) (word : CmdWord) (imm : Imm)

@[simp] theorem Block.computing_zero :
    b.computing word imm 0 = { b with core := b.core.afterCommand word imm, phase := .responding } := rfl

@[simp] theorem Block.computing_succ (n : Nat) : b.computing word imm (n + 1) = { b with phase := .busy word imm n } := rfl

/-- Reset, from every phase (R300). -/
theorem Block.clockEdge_reset {i : PortIn} (h : i.rst = true) :
    b.clockEdge i = { b with core := b.core.takeReset, phase := .idle } := by
  simp only [Block.clockEdge, h]

/-- Acceptance of a command (R61). -/
theorem Block.clockEdge_accept {i : PortIn} (hr : i.rst = false) (hp : b.phase = .idle) (hv : i.cmdValid = true) :
    b.clockEdge i = ({ b with accepted := b.accepted + 1 } : Block).computing i.cmdWord i.cmdImm
      (Config.freeLatency b.accepted b.core i.cmdWord i.cmdImm) := by
  simp only [Block.clockEdge, hr, hp, hv, if_true]

/-- One cycle of a command being executed. -/
theorem Block.clockEdge_computing_succ {i : PortIn} (hr : i.rst = false) (n : Nat) :
    (b.computing word imm (n + 1)).clockEdge i = b.computing word imm n := by
  cases n <;> simp [Block.clockEdge, hr]

/-- As many cycles of a command being executed as there are port inputs without a reset. -/
theorem Block.clockEdges_computing {is : List PortIn} (h : ∀ j ∈ is, j.rst = false) (n : Nat) :
    (b.computing word imm (n + is.length)).clockEdges is = b.computing word imm n := by
  induction is with
  | nil => rfl
  | cons j is ih =>
    rw [Block.clockEdges, List.length_cons, ← Nat.add_assoc, Block.clockEdge_computing_succ b word imm (h j (by simp))]
    exact ih fun j hj => h j (by simp [hj])

end Sys2Proof.Machine
end

