-- ==== Sys2Proof/Laws/PerInstr.lean ====
section
/-! SUPPORT. What every encoding satisfies, one lemma per constructor (spec/30_encoding.md R64, R65): the opcode stands
under the word mask with nothing else, and no immediate bit stands under the imm mask. -/

namespace Sys2Proof.Laws.EncodesStrictly

/-- The word and the immediate of a command are strict (R64, R65). -/
def Statement (i : Instr) : Prop :=
  (encode i).1 &&& i.op.fmt.wordMask = i.op.code.setWidth 32 ∧ (encode i).2 &&& i.op.immMask = 0#64

/-! ### The word mask (R64) -/

/-- A word from its six fields, bits 31:24 first (R63). -/
abbrev fieldWord (zero : BitVec 8) (rd2 rs2 rs1 rd : BitVec 4) (op : BitVec 8) : CmdWord :=
  zero ++ (rd2 ++ (rs2 ++ (rs1 ++ (rd ++ op))))

theorem fieldWord_zero (code : BitVec 8) : fieldWord 0#8 0#4 0#4 0#4 0#4 code = code.setWidth 32 := by
  revert code
  decide

theorem regBits_zero : regBits 0 = 0#4 := rfl

/-- A mask acts on the fields one by one. -/
theorem packWord_and (code : BitVec 8) (f : Fields) (m3 m2 m1 m0 : BitVec 4) :
    packWord code f &&& fieldWord 0xFF#8 m3 m2 m1 m0 0xFF#8 =
      fieldWord 0#8 (regBits f.rd2 &&& m3) (regBits f.rs2 &&& m2) (regBits f.rs1 &&& m1) (regBits f.rd &&& m0)
        code := by
  refine (BitVec.and_append (w := 8) (v := 24)).trans ?_
  rw [BitVec.zero_and]
  congr 1
  refine (BitVec.and_append (w := 4) (v := 20)).trans ?_
  congr 1
  refine (BitVec.and_append (w := 4) (v := 16)).trans ?_
  congr 1
  refine (BitVec.and_append (w := 4) (v := 12)).trans ?_
  congr 1
  refine (BitVec.and_append (w := 4) (v := 8)).trans ?_
  congr 1
  exact BitVec.and_allOnes (w := 8)

theorem word_r4 (code : BitVec 8) (f : Fields) : packWord code f &&& Format.r4.wordMask = code.setWidth 32 := by
  refine (packWord_and code f 0#4 0#4 0#4 0#4).trans ?_
  simp only [BitVec.and_zero, fieldWord_zero]

theorem word_r3 (code : BitVec 8) (f : Fields) (h3 : f.rd2 = 0) :
    packWord code f &&& Format.r3.wordMask = code.setWidth 32 := by
  refine (packWord_and code f 0xF#4 0#4 0#4 0#4).trans ?_
  simp only [h3, regBits_zero, BitVec.and_zero, BitVec.zero_and, fieldWord_zero]

theorem word_r2 (code : BitVec 8) (f : Fields) (h3 : f.rd2 = 0) (h2 : f.rs2 = 0) :
    packWord code f &&& Format.r2.wordMask = code.setWidth 32 := by
  refine (packWord_and code f 0xF#4 0xF#4 0#4 0#4).trans ?_
  simp only [h3, h2, regBits_zero, BitVec.and_zero, BitVec.zero_and, fieldWord_zero]

theorem word_d (code : BitVec 8) (f : Fields) (h3 : f.rd2 = 0) (h2 : f.rs2 = 0) (h1 : f.rs1 = 0) :
    packWord code f &&& Format.d.wordMask = code.setWidth 32 := by
  refine (packWord_and code f 0xF#4 0xF#4 0xF#4 0#4).trans ?_
  simp only [h3, h2, h1, regBits_zero, BitVec.and_zero, BitVec.zero_and, fieldWord_zero]

theorem word_s1 (code : BitVec 8) (f : Fields) (h3 : f.rd2 = 0) (h2 : f.rs2 = 0) (h0 : f.rd = 0) :
    packWord code f &&& Format.s1.wordMask = code.setWidth 32 := by
  refine (packWord_and code f 0xF#4 0xF#4 0#4 0xF#4).trans ?_
  simp only [h3, h2, h0, regBits_zero, BitVec.and_zero, BitVec.zero_and, fieldWord_zero]

theorem word_s2 (code : BitVec 8) (f : Fields) (h3 : f.rd2 = 0) (h0 : f.rd = 0) :
    packWord code f &&& Format.s2.wordMask = code.setWidth 32 := by
  refine (packWord_and code f 0xF#4 0#4 0#4 0xF#4).trans ?_
  simp only [h3, h0, regBits_zero, BitVec.and_zero, BitVec.zero_and, fieldWord_zero]

theorem word_z (code : BitVec 8) (f : Fields) (h3 : f.rd2 = 0) (h2 : f.rs2 = 0) (h1 : f.rs1 = 0) (h0 : f.rd = 0) :
    packWord code f &&& Format.z.wordMask = code.setWidth 32 := by
  refine (packWord_and code f 0xF#4 0xF#4 0xF#4 0xF#4).trans ?_
  simp only [h3, h2, h1, h0, regBits_zero, BitVec.zero_and, fieldWord_zero]

/-! ### The imm mask (R65) -/

theorem imm_free (v : Imm) : v &&& 0x0000000000000000#64 = 0#64 := BitVec.and_zero

theorem imm_unused : 0#64 &&& 0xFFFFFFFFFFFFFFFF#64 = 0#64 := rfl

theorem imm_addr (a : Addr) : (0#32 ++ a : Imm) &&& 0xFFFFFFFF00000000#64 = 0#64 := by
  refine (BitVec.and_append (w := 32) (v := 32) (x₂ := 0xFFFFFFFF#32) (y₂ := 0#32)).trans ?_
  rw [BitVec.zero_and, BitVec.and_zero]
  rfl

theorem imm_tbw (a : Addr) (b : Byte) : ((0#24 ++ b) ++ a : Imm) &&& 0xFFFFFF0000000000#64 = 0#64 := by
  refine (BitVec.and_append (w := 32) (v := 32) (x₂ := 0xFFFFFF#24 ++ 0#8) (y₂ := 0#32)).trans ?_
  rw [BitVec.and_append, BitVec.zero_and, BitVec.and_zero, BitVec.and_zero]
  rfl

theorem imm_mask (m : BitVec 8) : (0#56 ++ m : Imm) &&& 0xFFFFFFFFFFFFFF00#64 = 0#64 := by
  refine (BitVec.and_append (w := 56) (v := 8) (x₂ := 0xFFFFFFFFFFFFFF#56) (y₂ := 0#8)).trans ?_
  rw [BitVec.zero_and, BitVec.and_zero]
  rfl

/-! ### One lemma per constructor -/

theorem ldi (rd : Reg) (imm : Imm) : Statement (.ldi rd imm) :=
  ⟨word_d _ _ rfl rfl rfl, imm_free _⟩

theorem mov (rd : Reg) (rs1 : Reg) : Statement (.mov rd rs1) :=
  ⟨word_r2 _ _ rfl rfl, imm_unused⟩

theorem drop (rd : Reg) : Statement (.drop rd) :=
  ⟨word_d _ _ rfl rfl rfl, imm_unused⟩

theorem abs (rd : Reg) (rs1 : Reg) : Statement (.abs rd rs1) :=
  ⟨word_r2 _ _ rfl rfl, imm_unused⟩

theorem iszero (rs1 : Reg) : Statement (.iszero rs1) :=
  ⟨word_s1 _ _ rfl rfl rfl, imm_unused⟩

theorem isneg (rs1 : Reg) : Statement (.isneg rs1) :=
  ⟨word_s1 _ _ rfl rfl rfl, imm_unused⟩

theorem size (rs1 : Reg) : Statement (.size rs1) :=
  ⟨word_s1 _ _ rfl rfl rfl, imm_unused⟩

theorem clz (rs1 : Reg) : Statement (.clz rs1) :=
  ⟨word_s1 _ _ rfl rfl rfl, imm_unused⟩

theorem ceq (rs1 : Reg) (rs2 : Reg) : Statement (.ceq rs1 rs2) :=
  ⟨word_s2 _ _ rfl rfl, imm_unused⟩

theorem cne (rs1 : Reg) (rs2 : Reg) : Statement (.cne rs1 rs2) :=
  ⟨word_s2 _ _ rfl rfl, imm_unused⟩

theorem clt (rs1 : Reg) (rs2 : Reg) : Statement (.clt rs1 rs2) :=
  ⟨word_s2 _ _ rfl rfl, imm_unused⟩

theorem cle (rs1 : Reg) (rs2 : Reg) : Statement (.cle rs1 rs2) :=
  ⟨word_s2 _ _ rfl rfl, imm_unused⟩

theorem cgt (rs1 : Reg) (rs2 : Reg) : Statement (.cgt rs1 rs2) :=
  ⟨word_s2 _ _ rfl rfl, imm_unused⟩

theorem cge (rs1 : Reg) (rs2 : Reg) : Statement (.cge rs1 rs2) :=
  ⟨word_s2 _ _ rfl rfl, imm_unused⟩

theorem add (rd : Reg) (rs1 : Reg) (rs2 : Reg) : Statement (.add rd rs1 rs2) :=
  ⟨word_r3 _ _ rfl, imm_unused⟩

theorem sub (rd : Reg) (rs1 : Reg) (rs2 : Reg) : Statement (.sub rd rs1 rs2) :=
  ⟨word_r3 _ _ rfl, imm_unused⟩

theorem neg (rd : Reg) (rs1 : Reg) : Statement (.neg rd rs1) :=
  ⟨word_r2 _ _ rfl rfl, imm_unused⟩

theorem inc (rd : Reg) (rs1 : Reg) : Statement (.inc rd rs1) :=
  ⟨word_r2 _ _ rfl rfl, imm_unused⟩

theorem dec (rd : Reg) (rs1 : Reg) : Statement (.dec rd rs1) :=
  ⟨word_r2 _ _ rfl rfl, imm_unused⟩

theorem mul (rd : Reg) (rs1 : Reg) (rs2 : Reg) : Statement (.mul rd rs1 rs2) :=
  ⟨word_r3 _ _ rfl, imm_unused⟩

theorem pow (rd : Reg) (rs1 : Reg) (e : Imm) : Statement (.pow rd rs1 e) :=
  ⟨word_r2 _ _ rfl rfl, imm_free _⟩

theorem divmod (rd : Reg) (rd2 : Reg) (rs1 : Reg) (rs2 : Reg) : Statement (.divmod rd rd2 rs1 rs2) :=
  ⟨word_r4 _ _, imm_unused⟩

theorem div (rd : Reg) (rs1 : Reg) (rs2 : Reg) : Statement (.div rd rs1 rs2) :=
  ⟨word_r3 _ _ rfl, imm_unused⟩

theorem mod (rd : Reg) (rs1 : Reg) (rs2 : Reg) : Statement (.mod rd rs1 rs2) :=
  ⟨word_r3 _ _ rfl, imm_unused⟩

theorem shl (rd : Reg) (rs1 : Reg) (amount : Imm) : Statement (.shl rd rs1 amount) :=
  ⟨word_r2 _ _ rfl rfl, imm_free _⟩

theorem shr (rd : Reg) (rs1 : Reg) (amount : Imm) : Statement (.shr rd rs1 amount) :=
  ⟨word_r2 _ _ rfl rfl, imm_free _⟩

theorem and (rd : Reg) (rs1 : Reg) (rs2 : Reg) : Statement (.and rd rs1 rs2) :=
  ⟨word_r3 _ _ rfl, imm_unused⟩

theorem or (rd : Reg) (rs1 : Reg) (rs2 : Reg) : Statement (.or rd rs1 rs2) :=
  ⟨word_r3 _ _ rfl, imm_unused⟩

theorem xor (rd : Reg) (rs1 : Reg) (rs2 : Reg) : Statement (.xor rd rs1 rs2) :=
  ⟨word_r3 _ _ rfl, imm_unused⟩

theorem not (rd : Reg) (rs1 : Reg) : Statement (.not rd rs1) :=
  ⟨word_r2 _ _ rfl rfl, imm_unused⟩

theorem parse (rd : Reg) (addr : Addr) (len : Addr) : Statement (.parse rd addr len) :=
  ⟨word_d _ _ rfl rfl rfl, imm_free _⟩

theorem parses (rd : Reg) (addr : Addr) (len : Addr) : Statement (.parses rd addr len) :=
  ⟨word_d _ _ rfl rfl rfl, imm_free _⟩

theorem format (rs1 : Reg) (addr : Addr) : Statement (.format rs1 addr) :=
  ⟨word_s1 _ _ rfl rfl rfl, imm_addr _⟩

theorem tbw (addr : Addr) (byte : Byte) : Statement (.tbw addr byte) :=
  ⟨word_z _ _ rfl rfl rfl rfl, imm_tbw _ _⟩

theorem tbr (addr : Addr) : Statement (.tbr addr) :=
  ⟨word_z _ _ rfl rfl rfl rfl, imm_addr _⟩

theorem rdsr : Statement (.rdsr) :=
  ⟨word_z _ _ rfl rfl rfl rfl, imm_unused⟩

theorem clrsr (mask : BitVec 8) : Statement (.clrsr mask) :=
  ⟨word_z _ _ rfl rfl rfl rfl, imm_mask _⟩

end Sys2Proof.Laws.EncodesStrictly
end

