-- ==== Sys2Proof/Tests/Slice0.lean ====
section
/-! SUPPORT. Tests of the model, each expected result taken from spec/95_test_vectors.md or from the rule named, and for
every statement of Certificates/Slice0 that has hypotheses a concrete state and operands that meet them. -/

namespace Sys2Proof.Tests

open Sys2Proof.Machine Sys2Proof.Claims

/-! ### Small states -/

/-- The state after reset with some registers loaded. -/
def load (c : Config) (vs : List (Reg × BigInt)) : State :=
  { State.reset with cfg := c, x := vs.foldl (fun x p => x.set p.1 (some p.2)) (Vector.replicate 16 none) }

/-- Bytes placed in the text buffer. -/
def place (s : State) (addr : Nat) (t : List Byte) : State := { s with tbuf := Tbuf.writeAll s.tbuf addr t }

/-- The state a command leaves. -/
def after (i : Instr) (s : State) : State :=
  match exec i s with
  | .next t => t
  | .fault _ => s
  | .refused _ => s

theorem exec_after (i : Instr) (s : State) : exec i s = .next (after i s) := by
  obtain ⟨t, ht, -⟩ := exec_effect i s
  simp [after, ht]

/-- The state a step leaves. -/
def stepped (s : State) : State :=
  match step s with
  | .next t => t
  | .fault _ => s
  | .refused _ => s

/-- What a command responds. -/
def answer (i : Instr) (s : State) : Option Response := (after i s).rsp

def small : Config := { Config.default with tbufBytes := 16 }
def oneLimb : Config := { Config.default with maxLimbs := some 1 }
def keepSign : Config := { Config.default with cplSign := .keep }
def byteLimbs : Config := { Config.default with w := 8, bzT := 2, bzGap := 0 }

/-- `x1 = -5`, `x2 = 3`, `x3 = 0`, the others empty; `12a` in the text buffer. -/
def demo : State := place (load small [(1, ⟨[5], true⟩), (2, ⟨[3], false⟩), (3, zeroInt)]) 0 [0x31#8, 0x32#8, 0x61#8]

/-- `MAX_LIMBS = 1`, `x1 = 2^32 - 1`, `x2 = 1`; `4294967296` in the text buffer. -/
def tight : State :=
  place (load oneLimb [(1, ⟨[0xFFFFFFFF], false⟩), (2, oneInt)]) 0
    [0x34#8, 0x32#8, 0x39#8, 0x34#8, 0x39#8, 0x36#8, 0x37#8, 0x32#8, 0x39#8, 0x36#8]

/-- `demo` halted. -/
def stuck : State := { demo with sr := 0x84#8 }

/-! ### WellFormed: the one check refuses the ill-formed term, and so does the decoder -/

theorem test_illformed_divmod : ¬(Instr.divmod 4 4 1 2).WellFormed ∧ (Instr.divmod 4 5 1 2).WellFormed ∧
    decode (encode (.divmod 4 4 1 2)).1 (encode (.divmod 4 4 1 2)).2 = .error .sameDestination := by decide

/-! ### Decoding: the instance of every command in spec/95_test_vectors.md section 2.0, both ways -/

theorem test_decode_ldi : decode 0x00000101#32 0xFFFFFFFFFFFFFFFB#64 = .ok (.ldi 1 0xFFFFFFFFFFFFFFFB#64) ∧
    encode (.ldi 1 0xFFFFFFFFFFFFFFFB#64) = (0x00000101#32, 0xFFFFFFFFFFFFFFFB#64) := by decide

theorem test_decode_mov : decode 0x00001202#32 0x0000000000000000#64 = .ok (.mov 2 1) ∧
    encode (.mov 2 1) = (0x00001202#32, 0x0000000000000000#64) := by decide

theorem test_decode_drop : decode 0x00000F03#32 0x0000000000000000#64 = .ok (.drop 15) ∧
    encode (.drop 15) = (0x00000F03#32, 0x0000000000000000#64) := by decide

theorem test_decode_abs : decode 0x00001204#32 0x0000000000000000#64 = .ok (.abs 2 1) ∧
    encode (.abs 2 1) = (0x00001204#32, 0x0000000000000000#64) := by decide

theorem test_decode_iszero : decode 0x00001005#32 0x0000000000000000#64 = .ok (.iszero 1) ∧
    encode (.iszero 1) = (0x00001005#32, 0x0000000000000000#64) := by decide

theorem test_decode_isneg : decode 0x00001006#32 0x0000000000000000#64 = .ok (.isneg 1) ∧
    encode (.isneg 1) = (0x00001006#32, 0x0000000000000000#64) := by decide

theorem test_decode_size : decode 0x00001007#32 0x0000000000000000#64 = .ok (.size 1) ∧
    encode (.size 1) = (0x00001007#32, 0x0000000000000000#64) := by decide

theorem test_decode_clz : decode 0x00009008#32 0x0000000000000000#64 = .ok (.clz 9) ∧
    encode (.clz 9) = (0x00009008#32, 0x0000000000000000#64) := by decide

theorem test_decode_ceq : decode 0x00021009#32 0x0000000000000000#64 = .ok (.ceq 1 2) ∧
    encode (.ceq 1 2) = (0x00021009#32, 0x0000000000000000#64) := by decide

theorem test_decode_cne : decode 0x0002100A#32 0x0000000000000000#64 = .ok (.cne 1 2) ∧
    encode (.cne 1 2) = (0x0002100A#32, 0x0000000000000000#64) := by decide

theorem test_decode_clt : decode 0x0002100B#32 0x0000000000000000#64 = .ok (.clt 1 2) ∧
    encode (.clt 1 2) = (0x0002100B#32, 0x0000000000000000#64) := by decide

theorem test_decode_cle : decode 0x0002100C#32 0x0000000000000000#64 = .ok (.cle 1 2) ∧
    encode (.cle 1 2) = (0x0002100C#32, 0x0000000000000000#64) := by decide

theorem test_decode_cgt : decode 0x0002100D#32 0x0000000000000000#64 = .ok (.cgt 1 2) ∧
    encode (.cgt 1 2) = (0x0002100D#32, 0x0000000000000000#64) := by decide

theorem test_decode_cge : decode 0x0000F00E#32 0x0000000000000000#64 = .ok (.cge 15 0) ∧
    encode (.cge 15 0) = (0x0000F00E#32, 0x0000000000000000#64) := by decide

theorem test_decode_add : decode 0x00021310#32 0x0000000000000000#64 = .ok (.add 3 1 2) ∧
    encode (.add 3 1 2) = (0x00021310#32, 0x0000000000000000#64) := by decide

theorem test_decode_sub : decode 0x00021311#32 0x0000000000000000#64 = .ok (.sub 3 1 2) ∧
    encode (.sub 3 1 2) = (0x00021311#32, 0x0000000000000000#64) := by decide

theorem test_decode_neg : decode 0x00001212#32 0x0000000000000000#64 = .ok (.neg 2 1) ∧
    encode (.neg 2 1) = (0x00001212#32, 0x0000000000000000#64) := by decide

theorem test_decode_inc : decode 0x00001113#32 0x0000000000000000#64 = .ok (.inc 1 1) ∧
    encode (.inc 1 1) = (0x00001113#32, 0x0000000000000000#64) := by decide

theorem test_decode_dec : decode 0x00001114#32 0x0000000000000000#64 = .ok (.dec 1 1) ∧
    encode (.dec 1 1) = (0x00001114#32, 0x0000000000000000#64) := by decide

theorem test_decode_mul : decode 0x00021320#32 0x0000000000000000#64 = .ok (.mul 3 1 2) ∧
    encode (.mul 3 1 2) = (0x00021320#32, 0x0000000000000000#64) := by decide

theorem test_decode_pow : decode 0x00001221#32 0x0000000000000032#64 = .ok (.pow 2 1 0x0000000000000032#64) ∧
    encode (.pow 2 1 0x0000000000000032#64) = (0x00001221#32, 0x0000000000000032#64) := by decide

theorem test_decode_divmod : decode 0x00521430#32 0x0000000000000000#64 = .ok (.divmod 4 5 1 2) ∧
    encode (.divmod 4 5 1 2) = (0x00521430#32, 0x0000000000000000#64) := by decide

theorem test_decode_div : decode 0x00021331#32 0x0000000000000000#64 = .ok (.div 3 1 2) ∧
    encode (.div 3 1 2) = (0x00021331#32, 0x0000000000000000#64) := by decide

theorem test_decode_mod : decode 0x00021332#32 0x0000000000000000#64 = .ok (.mod 3 1 2) ∧
    encode (.mod 3 1 2) = (0x00021332#32, 0x0000000000000000#64) := by decide

theorem test_decode_shl : decode 0x00001240#32 0x0000000000000007#64 = .ok (.shl 2 1 0x0000000000000007#64) ∧
    encode (.shl 2 1 0x0000000000000007#64) = (0x00001240#32, 0x0000000000000007#64) := by decide

theorem test_decode_shr : decode 0x00001241#32 0x0000000000000040#64 = .ok (.shr 2 1 0x0000000000000040#64) ∧
    encode (.shr 2 1 0x0000000000000040#64) = (0x00001241#32, 0x0000000000000040#64) := by decide

theorem test_decode_and : decode 0x00021342#32 0x0000000000000000#64 = .ok (.and 3 1 2) ∧
    encode (.and 3 1 2) = (0x00021342#32, 0x0000000000000000#64) := by decide

theorem test_decode_or : decode 0x00021343#32 0x0000000000000000#64 = .ok (.or 3 1 2) ∧
    encode (.or 3 1 2) = (0x00021343#32, 0x0000000000000000#64) := by decide

theorem test_decode_xor : decode 0x00021344#32 0x0000000000000000#64 = .ok (.xor 3 1 2) ∧
    encode (.xor 3 1 2) = (0x00021344#32, 0x0000000000000000#64) := by decide

theorem test_decode_not : decode 0x00001245#32 0x0000000000000000#64 = .ok (.not 2 1) ∧
    encode (.not 2 1) = (0x00001245#32, 0x0000000000000000#64) := by decide

theorem test_decode_parse : decode 0x00000150#32 0x0000001E00000100#64 = .ok (.parse 1 0x00000100#32 0x0000001E#32) ∧
    encode (.parse 1 0x00000100#32 0x0000001E#32) = (0x00000150#32, 0x0000001E00000100#64) := by decide

theorem test_decode_parses : decode 0x00000151#32 0x0000000300000000#64 = .ok (.parses 1 0x00000000#32 0x00000003#32) ∧
    encode (.parses 1 0x00000000#32 0x00000003#32) = (0x00000151#32, 0x0000000300000000#64) := by decide

theorem test_decode_format : decode 0x00001052#32 0x0000000000000200#64 = .ok (.format 1 0x00000200#32) ∧
    encode (.format 1 0x00000200#32) = (0x00001052#32, 0x0000000000000200#64) := by decide

theorem test_decode_tbw : decode 0x00000053#32 0x0000002D00000100#64 = .ok (.tbw 0x00000100#32 0x2D#8) ∧
    encode (.tbw 0x00000100#32 0x2D#8) = (0x00000053#32, 0x0000002D00000100#64) := by decide

theorem test_decode_tbr : decode 0x00000054#32 0x0000000000000100#64 = .ok (.tbr 0x00000100#32) ∧
    encode (.tbr 0x00000100#32) = (0x00000054#32, 0x0000000000000100#64) := by decide

theorem test_decode_rdsr : decode 0x00000060#32 0x0000000000000000#64 = .ok (.rdsr) ∧
    encode (.rdsr) = (0x00000060#32, 0x0000000000000000#64) := by decide

theorem test_decode_clrsr : decode 0x00000061#32 0x000000000000007B#64 = .ok (.clrsr 0x7B#8) ∧
    encode (.clrsr 0x7B#8) = (0x00000061#32, 0x000000000000007B#64) := by decide

/-! ### Illegal commands, by clause of rule R67 (spec/95_test_vectors.md section 2.0) -/

theorem test_illegal_unassignedOpcode :
    decode 0x00000000#32 0x0000000000000000#64 = .error .unassignedOpcode ∧
    decode 0x0000000F#32 0x0000000000000000#64 = .error .unassignedOpcode ∧
    decode 0x00000015#32 0x0000000000000000#64 = .error .unassignedOpcode ∧
    decode 0x000000FF#32 0x0000000000000000#64 = .error .unassignedOpcode := by decide

theorem test_illegal_reservedBits :
    decode 0x01021310#32 0x0000000000000000#64 = .error .reservedBits := by decide

theorem test_illegal_unusedField :
    decode 0x00121310#32 0x0000000000000000#64 = .error .unusedField ∧
    decode 0x00022102#32 0x0000000000000000#64 = .error .unusedField ∧
    decode 0x00001105#32 0x0000000000000000#64 = .error .unusedField ∧
    decode 0x00001301#32 0x0000000000000005#64 = .error .unusedField ∧
    decode 0x00000160#32 0x0000000000000000#64 = .error .unusedField := by decide

theorem test_illegal_immediateBits :
    decode 0x00021310#32 0x0000000000000001#64 = .error .immediateBits ∧
    decode 0x00000060#32 0x0000000000000001#64 = .error .immediateBits ∧
    decode 0x00000061#32 0x0000000000000100#64 = .error .immediateBits ∧
    decode 0x00000053#32 0x0000010000000005#64 = .error .immediateBits ∧
    decode 0x00000054#32 0x0000000100000000#64 = .error .immediateBits ∧
    decode 0x00001052#32 0x0000000100000000#64 = .error .immediateBits := by decide

theorem test_illegal_sameDestination :
    decode 0x00421430#32 0x0000000000000000#64 = .error .sameDestination := by decide

/-! ### Limb store (section 2.1) -/

/-- `LDI x1, -9223372036854775808`. -/
theorem test_ldi_most_negative :
    (after (.ldi 1 0x8000000000000000#64) (load Config.default [])).x[1] = some ⟨[0, 0x80000000], true⟩ := by decide

/-- `LDI x1, 4294967296` with `MAX_LIMBS = 1` (section 2.7). -/
theorem test_ldi_alloc : answer (.ldi 1 0x100000000#64) tight = some ⟨0x03#8, 0#64⟩ ∧
    (after (.ldi 1 0x100000000#64) tight).sr = 0x84#8 := by decide

theorem test_mov_copies : (after (.mov 2 1) demo).x[2] = some ⟨[5], true⟩ ∧ (after (.mov 2 1) demo).x[1] = demo.x[1] := by
  decide

/-- MOV onto itself on an empty register (R105). -/
theorem test_mov_self_uninit : answer (.mov 9 9) demo = some ⟨0x05#8, 9#64⟩ := by decide

theorem test_drop_then_query :
    answer (.drop 1) demo = some ⟨0x00#8, 0#64⟩ ∧ answer (.iszero 1) (after (.drop 1) demo) = some ⟨0x05#8, 1#64⟩ := by
  decide

theorem test_abs_clears_sign : (after (.abs 2 1) demo).x[2] = some ⟨[5], false⟩ := by decide

theorem test_iszero : answer (.iszero 3) demo = some ⟨0x00#8, 1#64⟩ ∧
    answer (.iszero 1) (load small [(1, ⟨[0, 1], false⟩)]) = some ⟨0x00#8, 0#64⟩ := by decide

theorem test_isneg : answer (.isneg 1) demo = some ⟨0x00#8, 1#64⟩ ∧ answer (.isneg 3) demo = some ⟨0x00#8, 0#64⟩ := by
  decide

theorem test_size : answer (.size 1) (load small [(1, ⟨[0, 0, 1], false⟩)]) = some ⟨0x00#8, 3#64⟩ ∧
    answer (.size 3) demo = some ⟨0x00#8, 1#64⟩ := by decide

theorem test_clz : answer (.clz 1) demo = some ⟨0x00#8, 29#64⟩ ∧ answer (.clz 3) demo = some ⟨0x00#8, 32#64⟩ ∧
    answer (.clz 1) (load small [(1, ⟨[0, 0x80000000], false⟩)]) = some ⟨0x00#8, 0#64⟩ := by decide

/-- `-2^40` against `-1`. -/
theorem test_compare_negatives :
    answer (.clt 1 2) (load small [(1, ⟨[0, 256], true⟩), (2, ⟨[1], true⟩)]) = some ⟨0x00#8, 1#64⟩ ∧
    answer (.cgt 1 2) (load small [(1, ⟨[0, 256], true⟩), (2, ⟨[1], true⟩)]) = some ⟨0x00#8, 0#64⟩ := by decide

/-- `-5` against `5`. -/
theorem test_compare_signs :
    answer (.ceq 1 2) (load small [(1, ⟨[5], true⟩), (2, ⟨[5], false⟩)]) = some ⟨0x00#8, 0#64⟩ ∧
    answer (.cne 1 2) (load small [(1, ⟨[5], true⟩), (2, ⟨[5], false⟩)]) = some ⟨0x00#8, 1#64⟩ := by decide

/-- One value with itself. -/
theorem test_compare_equal : answer (.cle 1 1) demo = some ⟨0x00#8, 1#64⟩ ∧ answer (.cge 1 1) demo = some ⟨0x00#8, 1#64⟩ := by
  decide

/-! ### Additive (section 2.2) -/

theorem test_add_carry_ripples :
    (after (.add 3 1 2) (load small [(1, ⟨[0xFFFFFFFF, 0xFFFFFFFF], false⟩), (2, oneInt)])).x[3] =
      some ⟨[0, 0, 1], false⟩ := by decide

theorem test_add_cancels : (after (.add 3 1 2) (load small [(1, ⟨[5], false⟩), (2, ⟨[5], true⟩)])).x[3] = some zeroInt := by
  decide

theorem test_sub_swaps_and_negates :
    (after (.sub 3 1 2) (load small [(1, ⟨[3], false⟩), (2, ⟨[5], false⟩)])).x[3] = some ⟨[2], true⟩ := by decide

theorem test_sub_borrow_ripples :
    (after (.sub 3 1 2) (load small [(1, ⟨[1], false⟩), (2, ⟨[0, 0, 1], false⟩)])).x[3] =
      some ⟨[0xFFFFFFFF, 0xFFFFFFFF], true⟩ := by decide

theorem test_neg : (after (.neg 2 1) demo).x[2] = some ⟨[5], false⟩ ∧ (after (.neg 2 3) demo).x[2] = some zeroInt := by
  decide

theorem test_inc_gains_limb : (after (.inc 1 1) (load small [(1, ⟨[0xFFFFFFFF], false⟩)])).x[1] = some ⟨[0, 1], false⟩ ∧
    (after (.inc 1 1) (load small [(1, ⟨[1], true⟩)])).x[1] = some zeroInt := by decide

theorem test_dec : (after (.dec 2 3) demo).x[2] = some ⟨[1], true⟩ ∧
    (after (.dec 1 1) (load small [(1, ⟨[0, 1], true⟩)])).x[1] = some ⟨[1, 1], true⟩ := by decide

/-! ### Multiplicative (section 2.3) -/

theorem test_mul_limb : mulLimb 32 0x0001FFFF 0x0001FFFF = (0x00000003, 0xFFFC0001) ∧
    mulLimb 32 0x12345678 0x9ABCDEF0 = (0x0B00EA4E, 0x242D2080) := by decide

theorem test_mul_signs_and_limbs :
    (after (.mul 3 1 2) (load small [(1, ⟨[0xFFFFFFFF, 0xFFFFFFFF], false⟩), (2, ⟨[0xFFFFFFFF], true⟩)])).x[3] =
      some ⟨[0x00000001, 0xFFFFFFFF, 0xFFFFFFFE], true⟩ := by decide +kernel

theorem test_mul_by_zero : (after (.mul 4 1 3) demo).x[4] = some zeroInt := by decide

theorem test_pow_zero_exponent : (after (.pow 4 3 0#64) demo).x[4] = some oneInt := by decide

theorem test_pow_ten : (after (.pow 2 1 19#64) (load small [(1, ⟨[10], false⟩)])).x[2] =
    some ⟨[0x89E80000, 0x8AC72304], false⟩ := by decide +kernel

/-! ### Division (section 2.4) -/

theorem test_divmod_signs : (after (.divmod 4 5 1 2) demo).x[4] = some ⟨[1], true⟩ ∧
    (after (.divmod 4 5 1 2) demo).x[5] = some ⟨[2], true⟩ := by decide +kernel

/-- Both destinations are also the sources (R304): `DIVMOD x1, x2, x1, x2`. -/
theorem test_divmod_in_place : (after (.divmod 1 2 1 2) demo).x[1] = some ⟨[1], true⟩ ∧
    (after (.divmod 1 2 1 2) demo).x[2] = some ⟨[2], true⟩ := by decide +kernel

theorem test_div_by_zero : after (.div 4 1 3) demo = { demo with sr := 0x01#8, rsp := some ⟨0x01#8, 0#64⟩ } := by decide

theorem test_div_truncates : (after (.div 3 1 2) (load small [(1, ⟨[7], true⟩), (2, ⟨[2], false⟩)])).x[3] =
    some ⟨[3], true⟩ := by decide +kernel

theorem test_mod_takes_dividend_sign : (after (.mod 3 1 2) (load small [(1, ⟨[5], false⟩), (2, ⟨[3], true⟩)])).x[3] =
    some ⟨[2], false⟩ := by decide +kernel

/-- The capped estimate with one correction, at `W = 8`, `k = 1`. -/
theorem test_divide_3n_by_2n_capped :
    divide3n2n byteLimbs (divide2n1n byteLimbs 1) [0x00, 0x00, 0x80] [0xFF, 0x80] 1 = ([0xFE], [0xFE, 0x02]) ∧
    estimate3n2n byteLimbs (divide2n1n byteLimbs 1) [0x00, 0x00, 0x80] [0xFF, 0x80] 1 = ([0xFF], [0x80]) := by
  decide +kernel

/-- Two corrections, the maximum. -/
theorem test_divide_3n_by_2n_two_corrections :
    divide3n2n byteLimbs (divide2n1n byteLimbs 1) [0x00, 0x00, 0x41] [0xFF, 0x80] 1 = ([0x80], [0x80, 0x80]) := by
  decide +kernel

/-! ### Shifts and logic (section 2.5) -/

theorem test_shl_negative_by_limb : (after (.shl 2 1 32#64) (load small [(1, ⟨[0x80000001], true⟩)])).x[2] =
    some ⟨[0, 0x80000001], true⟩ := by decide

theorem test_shl_across_limb : (after (.shl 2 1 1#64) (load small [(1, ⟨[0x80000001], true⟩)])).x[2] =
    some ⟨[2, 1], true⟩ := by decide

theorem test_shr_rounds_toward_zero : (after (.shr 4 1 1#64) demo).x[4] = some ⟨[2], true⟩ ∧
    (after (.shr 4 1 3#64) demo).x[4] = some zeroInt := by decide

theorem test_shr_across_limb : (after (.shr 2 1 1#64) (load small [(1, ⟨[1, 0, 1], false⟩)])).x[2] =
    some ⟨[0, 0x80000000], false⟩ := by decide

theorem test_and_negatives :
    (after (.and 3 1 2) (load small [(1, ⟨[6], true⟩), (2, ⟨[3], true⟩)])).x[3] = some ⟨[2], true⟩ ∧
    (after (.and 3 1 2) (load small [(1, ⟨[12], true⟩), (2, ⟨[3], true⟩)])).x[3] = some zeroInt := by decide

theorem test_or_either_negative :
    (after (.or 3 1 2) (load small [(1, ⟨[6], true⟩), (2, ⟨[3], false⟩)])).x[3] = some ⟨[7], true⟩ := by decide

theorem test_xor_signs_differ :
    (after (.xor 3 1 2) (load small [(1, ⟨[6], true⟩), (2, ⟨[3], false⟩)])).x[3] = some ⟨[5], true⟩ ∧
    (after (.xor 3 1 2) (load small [(1, ⟨[5], false⟩), (2, ⟨[5], true⟩)])).x[3] = some zeroInt := by decide

theorem test_not_toggle_and_keep :
    (after (.not 2 1) (load small [(1, ⟨[0, 1], false⟩)])).x[2] = some ⟨[0xFFFFFFFF, 0xFFFFFFFE], true⟩ ∧
    (after (.not 2 1) (load keepSign [(1, ⟨[0, 1], false⟩)])).x[2] = some ⟨[0xFFFFFFFF, 0xFFFFFFFE], false⟩ := by decide

theorem test_not_normalises :
    (after (.not 2 1) (load small [(1, ⟨[0x0F0F0F0F, 0xFFFFFFFF], false⟩)])).x[2] = some ⟨[0xF0F0F0F0], true⟩ := by decide

/-! ### Text (section 2.6) -/

/-- `12a` with length 3, and with length 2. -/
theorem test_parse : after (.parse 1 0#32 3#32) demo = { demo with sr := 0x02#8, rsp := some ⟨0x02#8, 0#64⟩ } ∧
    (after (.parse 1 0#32 2#32) demo).x[1] = some ⟨[12], false⟩ := by decide

/-- `4294967296` with `MAX_LIMBS = 1`. -/
theorem test_parse_alloc : answer (.parse 1 0#32 10#32) tight = some ⟨0x03#8, 0#64⟩ := by decide +kernel

theorem test_parses : after (.parses 1 0#32 3#32) demo = { demo with sr := 0x40#8, rsp := some ⟨0x00#8, 0#64⟩ } ∧
    answer (.parses 1 0#32 2#32) demo = some ⟨0x00#8, 1#64⟩ := by decide

/-- `-0042`, and `+-5`. -/
theorem test_parse_text : parseText 32 [0x2D#8, 0x30#8, 0x30#8, 0x34#8, 0x32#8] = some ⟨[42], true⟩ ∧
    parseText 32 [0x2B#8, 0x2D#8, 0x35#8] = none ∧ parseText 32 [] = none ∧ parseText 32 [0x2D#8] = none := by decide

/-- `FORMAT` of `-5` at `0x8`: two bytes, no terminator. -/
theorem test_format : answer (.format 1 8#32) demo = some ⟨0x00#8, 2#64⟩ ∧
    (after (.format 1 8#32) demo).tbuf = demo.tbuf ++ [(8, 0x2D#8), (9, 0x35#8)] := by decide

/-- The last position that fits, and the one after it, which stores nothing. -/
theorem test_format_at_end : answer (.format 1 14#32) demo = some ⟨0x00#8, 2#64⟩ ∧
    after (.format 1 15#32) demo = { demo with sr := 0x20#8, rsp := some ⟨0x06#8, 15#64⟩ } := by decide

theorem test_tbw_last_address : (after (.tbw 15#32 0x41#8) demo).tbuf = demo.tbuf ++ [(15, 0x41#8)] ∧
    answer (.tbw 16#32 0x41#8) demo = some ⟨0x06#8, 16#64⟩ := by decide

theorem test_tbr : answer (.tbr 2#32) demo = some ⟨0x00#8, 0x61#64⟩ ∧ answer (.tbr 16#32) demo = some ⟨0x06#8, 16#64⟩ := by
  decide

/-! ### System, faults, priority (section 2.7) -/

theorem test_rdsr_while_halted : answer .rdsr stuck = some ⟨0x00#8, 0x84#64⟩ ∧ (after .rdsr stuck).sr = 0x84#8 := by decide

theorem test_clrsr : (after (.clrsr 0x40#8) { demo with sr := 0x41#8 }).sr = 0x01#8 ∧
    (after (.clrsr 0xFF#8) { demo with sr := 0x7B#8 }).sr = 0x00#8 := by decide

theorem test_halted_refuses : answer (.add 3 1 2) stuck = some ⟨0x07#8, 0#64⟩ ∧ answer (.clrsr 0xFF#8) stuck = some ⟨0x07#8, 0#64⟩ ∧
    (stepped (stuck.offer 0#32 0#64)).rsp = some ⟨0x07#8, 0#64⟩ := by decide

/-- `DIV x3, x9, x2` with `x2 = 0`, and `FORMAT x9, 99` outside the buffer. -/
theorem test_uninit_comes_first : answer (.div 3 9 3) demo = some ⟨0x05#8, 9#64⟩ ∧
    answer (.format 9 99#32) demo = some ⟨0x05#8, 9#64⟩ ∧ answer (.div 3 8 9) demo = some ⟨0x05#8, 8#64⟩ := by decide

/-- `PARSE x3, 15, 2` of malformed text partly outside the buffer. -/
theorem test_range_before_fmt : answer (.parse 3 15#32 2#32) demo = some ⟨0x06#8, 15#64⟩ := by decide

/-- `DIVMOD x3, x3, x1, x2` as a command, and reset out of the halted state. -/
theorem test_step_illegal_and_reset :
    (stepped (demo.offer 0x00321330#32 0#64)).rsp = some ⟨0x04#8, 0x321330#64⟩ ∧
    (stepped { stuck with input := [.reset] }).sr = 0x00#8 := by decide

/-- The fetch the host uses: `LDI x1, -5` as the first command after reset. -/
theorem test_fetch_word :
    (stepped (State.reset.withFetchWord 96 0xFFFFFFFFFFFFFFFB00000101)).x[1] = some ⟨[5], true⟩ := by decide

/-- A run of two commands, `LDI x1, -5` and `ISNEG x1`, that ended well (R303). -/
theorem test_run_ends_well :
    ({ State.reset with input := asEvents [.ldi 1 0xFFFFFFFFFFFFFFFB#64, .isneg 1] } : State).endsWell 2 [] = true ∧
    ({ State.reset with input := asEvents [.ldi 1 0xFFFFFFFFFFFFFFFB#64, .isneg 1] } : State).responses 2 =
      [⟨0x00#8, 0#64⟩, ⟨0x00#8, 1#64⟩] := by decide

/-- `LDI x1, -5` and `ISNEG x2`: the run ended well where UNINIT of x2 was meant, and not where no fault was or UNINIT of
x1 was (R303). -/
theorem test_run_with_intended_fault :
    let s : State := { State.reset with input := asEvents [.ldi 1 0xFFFFFFFFFFFFFFFB#64, .isneg 2] }
    s.endsWell 2 [(⟨0x05#8, 2#64⟩, 1)] = true ∧ s.endsWell 2 [] = false ∧
      s.endsWell 2 [(⟨0x05#8, 1#64⟩, 1)] = false ∧ s.runFailed 2 = false := by decide

/-! ### Written form (spec/30_encoding.md R71) -/

theorem test_asm_text : asmText (.ldi 1 0xFFFFFFFFFFFFFFFB#64) = "LDI x1, -5" ∧
    asmText (.divmod 4 5 1 2) = "DIVMOD x4, x5, x1, x2" ∧ asmText .rdsr = "RDSR" := by decide +kernel

/-! ### Hypotheses that can be met: one theorem per statement, each clause at a boundary value where it has one -/

theorem witness_DecodeEncodeRoundTrip : (Instr.divmod 15 0 15 0).WellFormed := by decide

theorem witness_DecodeAcceptsOnlyEncodings : decode 0x00F0F00E#32 0#64 = .error .unusedField ∧
    decode 0x0000F00E#32 0#64 = .ok (.cge 15 0) := by decide

theorem witness_DecodeIsStrictAndTotal :
    (∃ r ∈ opcodeTable, r.Matches 0x00021310#32 0#64) ∧ (∀ r ∈ opcodeTable, ¬r.Matches 0x00421430#32 0#64) ∧
      demo.Running := by
  refine ⟨⟨⟨0x10#8, 0xFFF000FF#32, 0xFFFFFFFFFFFFFFFF#64, "ADD"⟩, ?_, ?_⟩, ?_, by decide⟩
  · simp [opcodeTable, tableArithmetic]
  · simp only [Row.Matches]
    decide
  · simp only [Row.Matches, opcodeTable, tableLimbStore, tableArithmetic, tableBitwiseTextSystem]
    decide

theorem witness_StepRunsDecodedCommand :
    (demo.offer 0x00021310#32 0#64).input = .command 0x00021310#32 0#64 :: demo.input ∧
      decode 0x00021310#32 0#64 = .ok (.add 3 1 2) ∧ demo.input = [] := by decide

theorem witness_IllegalCommandTakesIllcmd :
    (demo.offer 0#32 0#64).input = .command 0#32 0#64 :: demo.input ∧ (demo.offer 0#32 0#64).Running ∧
      decode 0#32 0#64 = .error .unassignedOpcode := by decide

theorem witness_HaltedRefusesAllButRdsr :
    (stuck.offer 0x60#32 0#64).input = .command 0x60#32 0#64 :: stuck.input ∧ stuck.sr.getLsbD 7 = true ∧
      decode 0x60#32 0#64 = .ok .rdsr ∧ decode 0x60#32 1#64 ≠ .ok .rdsr ∧
      (∃ t, step stuck = .next t) ∧ tight.sr.getLsbD 7 = false ∧ (after (.inc 1 1) tight).sr.getLsbD 7 = true ∧
      (stepped { stuck with input := [.reset] }).sr.getLsbD 7 = false := by
  refine ⟨by decide, by decide, by decide, by decide, ⟨_, rfl⟩, by decide, by decide, by decide⟩

theorem witness_ResetTakesResetState : ({ stuck with input := [.reset] } : State).input = [.reset] ∧
    (⟨true, false, 0#32, 0#64, false⟩ : PortIn).rst = true := by decide

theorem witness_StepKeepsInvariant : demo.Inv ∧ tight.Inv ∧ stuck.Inv ∧ ∃ t, step demo = .next t :=
  ⟨by decide, by decide, by decide, demo, rfl⟩

theorem witness_EveryCommandIsAnswered :
    (demo.offer 0xFFFFFFFF#32 0#64).input = .command 0xFFFFFFFF#32 0#64 :: demo.input := rfl

theorem exec_of_decode {word : CmdWord} {imm : Imm} {i : Instr} (h : decode word imm = .ok i) (s : State) :
    runCommand word imm s = .next (after i s) := by
  rw [runCommand, h]
  exact exec_after i s

theorem witness_FirstApplicableFaultIsReported :
    runCommand 0x00021310#32 0#64 demo = .next (after (.add 3 1 2) demo) ∧
      (after (.add 3 1 2) demo).rsp = some ⟨0x00#8, 0#64⟩ :=
  ⟨exec_of_decode (by decide) demo, by decide⟩

theorem witness_EmptySourceTakesUninit : (Instr.add 3 1 9).WellFormed ∧ demo.Running ∧
    firstEmpty demo (Instr.add 3 1 9).sources = some 9 ∧ firstEmpty demo (Instr.add 3 8 9).sources = some 8 := by decide

theorem witness_OutOfRangeTakesRange : demo.Running ∧ demo.cfg.tbufBytes < (16#32 : Addr).toNat + 1 ∧
    ¬demo.cfg.tbufBytes < (15#32 : Addr).toNat + 1 ∧ demo.cfg.tbufBytes < (16#32 : Addr).toNat + (1#32 : Addr).toNat ∧
    ¬demo.cfg.tbufBytes < (16#32 : Addr).toNat + (0#32 : Addr).toNat ∧
    demo.cfg.tbufBytes < (0xFFFFFFFF#32 : Addr).toNat + (0xFFFFFFFF#32 : Addr).toNat ∧ demo.Holds 1 ⟨[5], true⟩ ∧
    demo.cfg.tbufBytes < (15#32 : Addr).toNat + (formatText demo.cfg.w ⟨[5], true⟩).length := by decide

theorem witness_FaultsArePrecise :
    runCommand 0x00031431#32 0#64 demo = .next (after (.div 4 1 3) demo) ∧
      (after (.div 4 1 3) demo).rsp = some ⟨0x01#8, 0#64⟩ ∧
      runCommand 0x00001113#32 0#64 tight = .next (after (.inc 1 1) tight) ∧
      (after (.inc 1 1) tight).rsp = some ⟨0x03#8, 0#64⟩ :=
  ⟨exec_of_decode (by decide) demo, by decide, exec_of_decode (by decide) tight, by decide⟩

theorem witness_OnlyGrowingCommandsTakeAlloc : tight.Inv ∧ exec (.add 3 1 2) tight = .next (after (.add 3 1 2) tight) ∧
    (after (.add 3 1 2) tight).rsp = some ⟨0x03#8, 0#64⟩ :=
  ⟨by decide, exec_after _ _, by decide⟩

theorem witness_StatusBitsAreSticky :
    exec (.clrsr 0xFF#8) { demo with sr := 0x01#8 } = .next (after (.clrsr 0xFF#8) { demo with sr := 0x01#8 }) ∧
      ({ demo with sr := 0x01#8 } : State).sr.getLsbD 0 = true ∧
      (after (.clrsr 0xFF#8) { demo with sr := 0x01#8 }).sr.getLsbD 0 = false :=
  ⟨exec_after _ _, by decide, by decide⟩

theorem witness_StatusBitsDecideNothing : demo.Running ∧ (0x7B#8 : BitVec 8).getLsbD 7 = false ∧
    (Instr.add 3 1 2) ≠ .rdsr ∧ exec (.add 3 1 2) demo = .next (after (.add 3 1 2) demo) ∧
    exec (.add 3 1 2) { demo with sr := 0x7B#8 } = .next (after (.add 3 1 2) { demo with sr := 0x7B#8 }) :=
  ⟨by decide, by decide, by decide, exec_after _ _, exec_after _ _⟩

theorem witness_UnnamedRegistersAreNotRead : (∀ r ∈ (Instr.neg 4 1).sources, demo.x[r] = (demo.x.set 2 none)[r]) ∧
    exec (.neg 4 1) demo = .next (after (.neg 4 1) demo) ∧
    exec (.neg 4 1) { demo with x := demo.x.set 2 none } =
      .next (after (.neg 4 1) { demo with x := demo.x.set 2 none }) :=
  ⟨by decide, exec_after _ _, exec_after _ _⟩

theorem witness_RegisterFrame : exec (.divmod 4 5 1 2) demo = .next (after (.divmod 4 5 1 2) demo) ∧
    (6 : Reg) ∉ (Instr.divmod 4 5 1 2).dests := ⟨exec_after _ _, by decide⟩

theorem witness_TextBufferFrame : exec (.format 1 8#32) demo = .next (after (.format 1 8#32) demo) ∧
    stored (.format 1 8#32) demo = (8, 2) ∧ stored (.tbw 15#32 0#8) demo = (15, 1) ∧ stored (.tbr 15#32) demo = (0, 0) :=
  ⟨exec_after _ _, by decide, by decide, by decide⟩

theorem witness_StatusRegisterFrame : exec (.parses 1 0#32 3#32) demo = .next (after (.parses 1 0#32 3#32) demo) ∧
    (after (.parses 1 0#32 3#32) demo).rsp = some ⟨0x00#8, 0#64⟩ ∧ ∀ mask, Instr.parses 1 0#32 3#32 ≠ .clrsr mask :=
  ⟨exec_after _ _, by decide, fun _ h => by cases h⟩

theorem witness_ValidBitsChangeOnlyAsStated :
    step (demo.offer 0x00001402#32 0#64) = .next (after (.mov 4 1) demo) ∧ demo.valid 4 = false ∧
      (after (.mov 4 1) demo).valid 4 = true ∧ step (demo.offer 0x00000103#32 0#64) = .next (after (.drop 1) demo) ∧
      demo.valid 1 = true ∧ (after (.drop 1) demo).valid 1 = false :=
  ⟨exec_of_decode (word := 0x00001402#32) (imm := 0#64) (by decide) demo, by decide, by decide,
    exec_of_decode (word := 0x00000103#32) (imm := 0#64) (by decide) demo, by decide, by decide⟩

theorem witness_LdiLoadsSignedImmediate : demo.Running ∧
    fits demo.cfg (mkInt demo.cfg.w (0x8000000000000000#64 : Imm).toInt).mag = true ∧ tight.Running ∧
    fits tight.cfg (mkInt tight.cfg.w (0x100000000#64 : Imm).toInt).mag = false := by decide

theorem witness_MovAndAbsCopy : demo.Inv ∧ demo.Running ∧ demo.Holds 1 ⟨[5], true⟩ ∧ demo.Empty 9 := by decide

theorem witness_DropEmptiesRegister : demo.Running := by decide

theorem witness_QueriesAnswer : demo.Inv ∧ demo.Running ∧ demo.Holds 3 zeroInt ∧ demo.Empty 9 := by decide

theorem witness_ComparisonsAreIntegerOrder : demo.Inv ∧ demo.Running ∧ demo.Holds 1 ⟨[5], true⟩ ∧
    demo.Holds 2 ⟨[3], false⟩ ∧ demo.Empty 9 := by decide

theorem witness_AddAndSubAreExact : demo.Inv ∧ demo.Running ∧ demo.Holds 1 ⟨[5], true⟩ ∧ demo.Holds 2 ⟨[3], false⟩ ∧
    demo.Empty 9 ∧ fits demo.cfg (mkInt demo.cfg.w (-5 + 3)).mag = true ∧ tight.Inv ∧ tight.Running ∧
    tight.Holds 1 ⟨[0xFFFFFFFF], false⟩ ∧ tight.Holds 2 oneInt ∧
    fits tight.cfg (mkInt tight.cfg.w (0xFFFFFFFF + 1)).mag = false := by
  and_intros <;> decide

theorem witness_NegNegates : demo.Inv ∧ demo.Running ∧ demo.Holds 3 zeroInt ∧ demo.Empty 9 := by decide

theorem witness_IncAndDecStepByOne : demo.Inv ∧ demo.Running ∧ demo.Holds 3 zeroInt ∧ demo.Empty 9 ∧ tight.Inv ∧
    tight.Running ∧ tight.Holds 1 ⟨[0xFFFFFFFF], false⟩ ∧
    fits tight.cfg (mkInt tight.cfg.w (0xFFFFFFFF + 1)).mag = false := by
  and_intros <;> decide

theorem witness_LimbProductIsExact : 2 % 2 = 0 ∧ 2 ≤ 2 ∧ 3 < 2 ^ 2 ∧ 0 < 2 ^ 2 := by decide

theorem witness_KaratsubaAgreesWithSchoolbook : 2 % 2 = 0 ∧ 2 ≤ 2 ∧ 3 ≤ 3 ∧ Magnitude 2 [3, 3, 3, 3] ∧
    Magnitude 2 [0, 0, 1, 3, 0] := by
  simp only [Magnitude]
  decide

theorem witness_MulIsExactProduct : demo.Inv ∧ demo.Running ∧ demo.Holds 1 ⟨[5], true⟩ ∧ demo.Holds 2 ⟨[3], false⟩ ∧
    demo.Empty 9 ∧ fits demo.cfg (mkInt demo.cfg.w (-5 * 3)).mag = true ∧ tight.Inv ∧ tight.Running ∧
    tight.Holds 1 ⟨[0xFFFFFFFF], false⟩ ∧
    fits tight.cfg (mkInt tight.cfg.w (0xFFFFFFFF * 0xFFFFFFFF)).mag = false := by
  and_intros <;> decide

theorem witness_PowIsExactPower : demo.Inv ∧ demo.Running ∧ demo.Holds 3 zeroInt ∧ demo.Empty 9 ∧
    fits demo.cfg (mkInt demo.cfg.w (0 ^ 0)).mag = true ∧ tight.Inv ∧ tight.Running ∧
    tight.Holds 1 ⟨[0xFFFFFFFF], false⟩ ∧ fits tight.cfg (mkInt tight.cfg.w (0xFFFFFFFF ^ 2)).mag = false := by
  and_intros <;> decide

theorem witness_ArithmeticLaws : Config.default.Legal ∧ BigInt.Normal 32 ⟨[5], true⟩ ∧ BigInt.Normal 32 ⟨[3], false⟩ ∧
    BigInt.Normal 32 zeroInt := by decide

theorem witness_DividersAgree : byteLimbs.Legal ∧ NormalMag 8 [0, 0, 0, 0, 1] ∧ NormalMag 8 [1, 1] ∧ val 8 [1, 1] ≠ 0 ∧
    cmpMag [0, 0, 0, 0, 1] [1, 1] ≠ .lt := by decide

theorem witness_DivisionHelpersMeetTheirContracts : byteLimbs.Legal ∧ NormalMag 8 [0xFF, 0xFE, 0xFF] ∧
    NormalMag 8 [0xFF, 0xFF] ∧ TopBitSet 8 [0xFF, 0xFF] ∧
    val 8 [0xFF, 0xFE, 0xFF] < val 8 [0xFF, 0xFF] * 2 ^ (8 * [0xFF, 0xFF].length) ∧ [0xFF, 0xFF].length = 2 * 1 ∧
    val 8 [0xFF, 0xFE, 0xFF] < val 8 [0xFF, 0xFF] * 2 ^ (8 * 1) := by
  simp only [TopBitSet]
  decide

theorem witness_QuotientEstimateIsOffByAtMostTwo : byteLimbs.Legal ∧ NormalMag 8 [0x00, 0x00, 0x41] ∧
    NormalMag 8 [0xFF, 0x80] ∧ TopBitSet 8 [0xFF, 0x80] ∧ [0xFF, 0x80].length = 2 * 1 ∧
    val 8 [0x00, 0x00, 0x41] < val 8 [0xFF, 0x80] * 2 ^ (8 * 1) := by
  simp only [TopBitSet]
  decide

theorem witness_DivmodWritesQuotientAndRemainder : demo.Inv ∧ demo.Running ∧ demo.Holds 1 ⟨[5], true⟩ ∧
    demo.Holds 2 ⟨[3], false⟩ ∧ demo.Holds 3 zeroInt ∧ demo.Empty 9 ∧ (4 : Reg) ≠ 5 ∧
    BigInt.ival demo.cfg.w ⟨[3], false⟩ ≠ 0 ∧ BigInt.ival demo.cfg.w zeroInt = 0 := by decide

theorem witness_DivAndModTruncate : demo.Inv ∧ demo.Running ∧ demo.Holds 1 ⟨[5], true⟩ ∧ demo.Holds 2 ⟨[3], false⟩ ∧
    demo.Holds 3 zeroInt ∧ demo.Empty 9 ∧ BigInt.ival demo.cfg.w ⟨[3], false⟩ ≠ 0 ∧
    BigInt.ival demo.cfg.w zeroInt = 0 := by decide

theorem witness_DivisionLaws : Config.default.Legal ∧ BigInt.Normal 32 ⟨[5], true⟩ ∧ BigInt.Normal 32 ⟨[3], false⟩ ∧
    BigInt.ival 32 ⟨[3], false⟩ ≠ 0 := by decide

theorem witness_ShiftsScaleByPowersOfTwo : demo.Inv ∧ demo.Running ∧ demo.Holds 1 ⟨[5], true⟩ ∧ demo.Empty 9 ∧
    fits demo.cfg (mkInt demo.cfg.w (-5 * 2 ^ 0)).mag = true ∧ tight.Inv ∧ tight.Running ∧ tight.Holds 2 oneInt ∧
    fits tight.cfg (mkInt tight.cfg.w (1 * 2 ^ 32)).mag = false := by
  and_intros <;> decide

theorem witness_LogicActsOnSignAndMagnitude : demo.Inv ∧ demo.Running ∧ demo.Holds 1 ⟨[5], true⟩ ∧
    demo.Holds 2 ⟨[3], false⟩ ∧ demo.Empty 9 := by decide

theorem witness_NotComplementsLimbs : demo.Inv ∧ demo.Running ∧ demo.Holds 1 ⟨[5], true⟩ ∧ demo.Empty 9 ∧
    demo.cfg.cplSign = .toggle ∧ (load keepSign [(1, zeroInt)]).Inv ∧ (load keepSign [(1, zeroInt)]).Running ∧
    (load keepSign [(1, zeroInt)]).Holds 1 zeroInt ∧ (load keepSign [(1, zeroInt)]).cfg.cplSign = .keep := by
  and_intros <;> decide

theorem witness_ShiftAndLogicLaws : Config.default.Legal ∧ BigInt.Normal 32 ⟨[0, 0xFFFFFFFE], true⟩ ∧
    top [0, 0xFFFFFFFE] ≠ 2 ^ 32 - 1 ∧ BigInt.Normal 32 zeroInt := by decide

theorem witness_ParseTextIsTheNumeralGrammar : 1 ≤ 2 ∧ parseText 2 [0x2D#8, 0x37#8] = some ⟨[3, 1], true⟩ := by decide

theorem witness_FormatTextIsTheCanonicalNumeral : 1 ≤ 2 ∧ BigInt.Normal 2 ⟨[3, 1], true⟩ := by decide

theorem witness_TextRoundTrip : 1 ≤ 32 ∧ parseText 32 [0x2D#8, 0x30#8, 0x30#8] = some zeroInt ∧
    canon [0x2D#8, 0x30#8, 0x30#8] = [0x30#8] ∧ canon [0x2B#8, 0x30#8, 0x34#8, 0x32#8] = [0x34#8, 0x32#8] ∧
    BigInt.Normal 32 ⟨[5], true⟩ := by decide

theorem witness_ParsersAgree : Config.default.Legal ∧ 1 ≤ 1 ∧ ∀ d ∈ [0, 9, 4], d ≤ 9 := by decide

/-- The constant choice `e = 1` is admissible: a magnitude of more than four bits is at least ten. -/
theorem witness_FormattersAgree : Config.default.Legal ∧ NormalMag 32 [42] ∧ val 32 [42] ≠ 0 ∧ 4 ≤ 4 ∧
    ∀ z, NormalMag 32 z → 4 < bitlen 32 z → 1 ≤ 1 ∧ 10 ^ 1 ≤ val 32 z := by
  refine ⟨by decide, by decide, by decide, le_rfl, fun z hz hb => ⟨le_rfl, ?_⟩⟩
  have h0 : val 32 z ≠ 0 := by
    intro h
    simp [bitlen, h] at hb
  have h1 := two_pow_bitlen_le hz h0
  have h2 : 2 ^ 4 ≤ 2 ^ (bitlen 32 z - 1) := Nat.pow_le_pow_right (by norm_num) (by omega)
  omega

theorem witness_ParseWritesNumeralValue : demo.Running ∧
    demo.cfg.tbufBytes < (16#32 : Addr).toNat + (1#32 : Addr).toNat ∧
    (0#32 : Addr).toNat + (3#32 : Addr).toNat ≤ demo.cfg.tbufBytes ∧ parseText demo.cfg.w (textAt demo 0#32 3#32) = none ∧
    (16#32 : Addr).toNat + (0#32 : Addr).toNat ≤ demo.cfg.tbufBytes ∧
    parseText demo.cfg.w (textAt demo 0#32 2#32) = some ⟨[12], false⟩ ∧ fits demo.cfg [12] = true := by decide

theorem witness_ParseWritesNumeralValue_alloc : tight.Running ∧
    parseText tight.cfg.w (textAt tight 0#32 10#32) = some ⟨[0, 1], false⟩ ∧ fits tight.cfg [0, 1] = false := by
  decide +kernel

theorem witness_ParsesReportsFailureWithoutFault : demo.Running ∧
    demo.cfg.tbufBytes < (15#32 : Addr).toNat + (2#32 : Addr).toNat ∧
    (0#32 : Addr).toNat + (3#32 : Addr).toNat ≤ demo.cfg.tbufBytes ∧ parseText demo.cfg.w (textAt demo 0#32 3#32) = none ∧
    parseText demo.cfg.w (textAt demo 0#32 2#32) = some ⟨[12], false⟩ ∧ fits demo.cfg [12] = true := by decide

theorem witness_FormatWritesNumeral : demo.Running ∧ demo.Holds 1 ⟨[5], true⟩ ∧ demo.Empty 9 ∧
    (14#32 : Addr).toNat + (formatText demo.cfg.w ⟨[5], true⟩).length ≤ demo.cfg.tbufBytes ∧
    demo.cfg.tbufBytes < (15#32 : Addr).toNat + (formatText demo.cfg.w ⟨[5], true⟩).length := by decide

theorem witness_TbwStoresByte : demo.Running ∧ (15#32 : Addr).toNat < demo.cfg.tbufBytes ∧
    demo.cfg.tbufBytes ≤ (16#32 : Addr).toNat := by decide

theorem witness_TbrReadsByte : demo.Running ∧ (15#32 : Addr).toNat < demo.cfg.tbufBytes ∧
    demo.cfg.tbufBytes ≤ (16#32 : Addr).toNat := by decide

theorem witness_RdsrReadsStatus : (0x00000160#32 : CmdWord).extractLsb' 0 8 = 0x60#8 := by decide

theorem witness_ClrsrClearsMaskedBits : demo.Running ∧ stuck.sr.getLsbD 7 = true ∧
    (0x100#64 : Imm).extractLsb' 8 56 ≠ 0#56 := by decide

/-- Whatever the latency there is a list of port inputs of exactly its length, which meets both clauses on it. -/
theorem witness_HandshakeRefinesCommandLevel :
    ∃ (b : Block) (i : PortIn) (is : List PortIn), b.phase = .idle ∧ i.rst = false ∧ i.cmdValid = true ∧
      (∀ j ∈ is, j.rst = false ∧ j.rspReady = false) ∧
      is.length = Config.freeLatency b.accepted b.core i.cmdWord i.cmdImm ∧
      ({ b with phase := .responding } : Block).phase = .responding :=
  ⟨⟨demo, .idle, 0⟩, ⟨false, true, 0x00021310#32, 0#64, false⟩,
    List.replicate (Config.freeLatency 0 demo 0x00021310#32 0#64) ⟨false, false, 0#32, 0#64, false⟩, rfl, rfl, rfl,
    fun j hj => by rw [(List.mem_replicate.1 hj).2]; exact ⟨rfl, rfl⟩, by simp, rfl⟩

end Sys2Proof.Tests
end

section
/-! SUPPORT. What a step is, by what the host offers (spec/00_scope.md R7, spec/30_encoding.md R61, R67,
spec/70_reset_and_hazards.md R300): one equation per case of `step`, `runEvent` and `runCommand`. -/

namespace Sys2Proof.Machine

/-- With nothing offered CORE idles (notes/assumptions/17.md). -/
theorem step_of_input_nil {s : State} (h : s.input = []) : step s = .next s := by
  simp only [step, State.nextEvent, h]

/-- The first item offered is taken and run. -/
theorem step_of_input_cons {s : State} {e : HostEvent} {rest : List HostEvent} (h : s.input = e :: rest) :
    step s = runEvent e { s with input := rest } := by
  simp only [step, State.nextEvent, h]

@[simp] theorem runEvent_command (word : CmdWord) (imm : Imm) (s : State) :
    runEvent (.command word imm) s = runCommand word imm s := rfl

@[simp] theorem runEvent_reset (s : State) : runEvent .reset s = .next s.takeReset := rfl

theorem runCommand_of_decode_ok {word : CmdWord} {imm : Imm} {i : Instr} (h : decode word imm = .ok i) (s : State) :
    runCommand word imm s = exec i s := by
  simp only [runCommand, h]

theorem runCommand_of_decode_error {word : CmdWord} {imm : Imm} {e : DecodeError} (h : decode word imm = .error e)
    (s : State) : runCommand word imm s = illegalCommand word s := by
  simp only [runCommand, h]

/-- Settles O5: the offered command is taken, and its decoding picks the command that runs; with nothing offered the
idle equation of `step`. -/
theorem stepRunsDecodedCommand : Obligations.StepRunsDecodedCommand := by
  refine ⟨fun s word imm rest i hinput hdecode => ?_, fun s hinput => step_of_input_nil hinput⟩
  calc step s
      = runCommand word imm { s with input := rest } := by rw [step_of_input_cons hinput, runEvent_command]
    _ = exec i { s with input := rest } := runCommand_of_decode_ok hdecode _

end Sys2Proof.Machine
end

section
/-! SUPPORT. The limbs of every datapath stay below the radix (spec/10_state.md R23(a), spec/42_multiplicative.md R161 to
R168, spec/43_division.md R182 to R189), whatever the operands' values: so what a command writes is normalised. -/

namespace Sys2Proof.Machine

/-! ### The multipliers (R161 to R164) -/

/-- A sum below twice the radix, split into its carry and the limb that stays. -/
theorem carry_split {r n : Nat} (h : n < 2 * r) :
    (if r ≤ n then 1 else 0) * r + (n - (if r ≤ n then 1 else 0) * r) = n ∧
      n - (if r ≤ n then 1 else 0) * r < r := by
  split <;> omega

theorem half_mul_half {w : Nat} (hw : w % 2 = 0) : 2 ^ (w / 2) * 2 ^ (w / 2) = 2 ^ w := by
  rw [← pow_add]
  congr 1
  omega

/-- The recombination of the four half-width products keeps every intermediate below twice the radix and is exact
(R161). -/
theorem mulLimb_eq {w x y : Nat} (hw : w % 2 = 0) (hx : x < 2 ^ w) (hy : y < 2 ^ w) :
    mulLimb w x y = (x * y / 2 ^ w, x * y % 2 ^ w) := by
  have hB := half_mul_half hw
  have hpos : 0 < 2 ^ (w / 2) := by positivity
  simp only [mulLimb]
  rw [← hB] at hx hy ⊢
  generalize 2 ^ (w / 2) = B at *
  have hx0 := Nat.mod_lt x hpos
  have hy0 := Nat.mod_lt y hpos
  have hx1 : x / B < B := Nat.div_lt_of_lt_mul hx
  have hy1 : y / B < B := Nat.div_lt_of_lt_mul hy
  have hxd := Nat.mod_add_div x B
  have hyd := Nat.mod_add_div y B
  generalize x % B = x0 at *
  generalize x / B = x1 at *
  generalize y % B = y0 at *
  generalize y / B = y1 at *
  obtain ⟨hmid, hmidw⟩ := carry_split (r := B * B) (n := x0 * y1 + x1 * y0) (by nlinarith)
  generalize (if B * B ≤ x0 * y1 + x1 * y0 then 1 else 0) = midc at *
  generalize x0 * y1 + x1 * y0 - midc * (B * B) = midw at *
  have hm0 := Nat.mod_lt midw hpos
  have hmd := Nat.mod_add_div midw B
  generalize midw % B = m0 at *
  generalize midw / B = m1 at *
  obtain ⟨hlo, hlow⟩ := carry_split (r := B * B) (n := x0 * y0 + m0 * B) (by nlinarith)
  generalize (if B * B ≤ x0 * y0 + m0 * B then 1 else 0) = c at *
  generalize x0 * y0 + m0 * B - c * (B * B) = low at *
  have hprod : x * y = low + B * B * (x1 * y1 + m1 + midc * B + c) := by
    rw [← hxd, ← hyd]
    linear_combination -hlo - B * hmid - B * hmd
  rw [hprod, Nat.add_mul_div_left _ _ (by positivity), Nat.add_mul_mod_self_left, Nat.div_eq_of_lt hlow,
    Nat.mod_eq_of_lt hlow, Nat.zero_add]

/-- The two carries of one schoolbook step are the high part of the product plus both addends (R162). -/
theorem mulRow_cons {w x y carry : Nat} {r b : List Nat} (hw : w % 2 = 0) (hx : x < 2 ^ w) (hy : y < 2 ^ w)
    (hr : LimbsOk w r) (hc : carry < 2 ^ w) :
    mulRow w x (y :: b) r carry = ((x * y + r.headD 0 + carry) % 2 ^ w) ::
      mulRow w x b r.tail ((x * y + r.headD 0 + carry) / 2 ^ w) := by
  have hr0 := hr.headD
  rw [mulRow, mulLimb_eq hw hx hy]
  have hp := Nat.mod_add_div (x * y) (2 ^ w)
  have hplt := Nat.mod_lt (x * y) (show 0 < 2 ^ w by omega)
  simp only
  generalize r.headD 0 = r0 at *
  generalize x * y = p at *
  generalize p / 2 ^ w = p1 at *
  generalize p % 2 ^ w = p0 at *
  generalize 2 ^ w = R at *
  obtain ⟨h1, hlt1⟩ := carry_split (r := R) (n := r0 + p0) (by omega)
  generalize (if R ≤ r0 + p0 then 1 else 0) = c1 at *
  generalize r0 + p0 - c1 * R = t1 at *
  obtain ⟨h2, hlt2⟩ := carry_split (r := R) (n := t1 + carry) (by omega)
  generalize (if R ≤ t1 + carry then 1 else 0) = c2 at *
  generalize t1 + carry - c2 * R = t2 at *
  have hsum : p + r0 + carry = t2 + R * (p1 + c1 + c2) := by
    rw [← hp]
    linear_combination -h1 - h2
  rw [hsum, Nat.add_mul_div_left _ _ (by omega), Nat.add_mul_mod_self_left, Nat.div_eq_of_lt hlt2,
    Nat.mod_eq_of_lt hlt2, Nat.zero_add]

theorem mul_add_add_lt {r x y a b : Nat} (hx : x < r) (hy : y < r) (ha : a < r) (hb : b < r) :
    x * y + a + b < r * r := by
  obtain ⟨n, rfl⟩ : ∃ n, r = n + 1 := ⟨r - 1, by omega⟩
  have := Nat.mul_le_mul (Nat.le_of_lt_succ hx) (Nat.le_of_lt_succ hy)
  nlinarith

theorem limbsOk_mulRow {w x : Nat} (hw : w % 2 = 0) (hx : x < 2 ^ w) {b r : List Nat} {carry : Nat}
    (hb : LimbsOk w b) (hr : LimbsOk w r) (hc : carry < 2 ^ w) : LimbsOk w (mulRow w x b r carry) := by
  induction b generalizing r carry with
  | nil => exact limbsOk_cons.2 ⟨hc, hr.tail⟩
  | cons y b ih =>
    obtain ⟨hy, hb⟩ := limbsOk_cons.1 hb
    rw [mulRow_cons hw hx hy hr hc]
    exact limbsOk_cons.2 ⟨Nat.mod_lt _ (by positivity),
      ih hb hr.tail (Nat.div_lt_of_lt_mul (mul_add_add_lt hx hy hr.headD hc))⟩

theorem limbsOk_mulRows {w : Nat} (hw : w % 2 = 0) {a b r : List Nat} (ha : LimbsOk w a) (hb : LimbsOk w b)
    (hr : LimbsOk w r) : LimbsOk w (mulRows w a b r) := by
  induction a generalizing r with
  | nil => exact hr
  | cons x a ih =>
    obtain ⟨hx, ha⟩ := limbsOk_cons.1 ha
    have hrow := limbsOk_mulRow hw hx hb hr (carry := 0) (by positivity)
    exact limbsOk_cons.2 ⟨hrow.headD, ih ha hrow.tail⟩

theorem limbsOk_school {w : Nat} (hw : w % 2 = 0) {a b : List Nat} (ha : LimbsOk w a) (hb : LimbsOk w b) :
    LimbsOk w (school w a b) :=
  (normalMag_normMag (limbsOk_mulRows hw ha hb (limbsOk_replicate_zero _ _))).1

theorem limbsOk_zero (w : Nat) : LimbsOk w [0] := by simp [LimbsOk]

theorem limbsOk_one {w : Nat} (hw : 1 ≤ w) : LimbsOk w [1] := by
  simpa [LimbsOk] using Nat.one_lt_two_pow (by omega : w ≠ 0)

theorem limbsOk_shlLimbs {w : Nat} {z : List Nat} (hz : LimbsOk w z) (q : Nat) : LimbsOk w (shlLimbs z q) := by
  rw [shlLimbs]
  split
  · exact limbsOk_zero w
  · exact limbsOk_append (limbsOk_replicate_zero _ _) hz

theorem limbsOk_loLimbs {w : Nat} {z : List Nat} (hz : LimbsOk w z) (q : Nat) : LimbsOk w (loLimbs z q) :=
  (normalMag_loLimbs hz q).1

theorem limbsOk_hiLimbs {w : Nat} {z : List Nat} (hz : LimbsOk w z) (q : Nat) : LimbsOk w (hiLimbs z q) :=
  (normalMag_hiLimbs hz q).1

theorem limbsOk_midLimbs {w : Nat} {z : List Nat} (hz : LimbsOk w z) (p q : Nat) : LimbsOk w (midLimbs z p q) :=
  limbsOk_loLimbs (limbsOk_hiLimbs hz p) _

theorem limbsOk_subMag {w : Nat} {a b : List Nat} (ha : LimbsOk w a) (hb : LimbsOk w b) : LimbsOk w (subMag w a b) :=
  (normalMag_subMag ha hb).1

theorem limbsOk_kmulFuel {w : Nat} (hw : 1 ≤ w) (heven : w % 2 = 0) (t fuel : Nat) {a b : List Nat}
    (ha : LimbsOk w a) (hb : LimbsOk w b) : LimbsOk w (kmulFuel w t fuel a b) := by
  induction fuel generalizing a b with
  | zero => exact limbsOk_school heven ha hb
  | succ fuel ih =>
    rw [kmulFuel]
    split
    · exact limbsOk_zero w
    split
    · exact limbsOk_school heven ha hb
    extract_lets m a0 a1 b0 b1 z2 z0 z1
    have ha0 : LimbsOk w a0 := limbsOk_loLimbs ha m
    have ha1 : LimbsOk w a1 := limbsOk_hiLimbs ha m
    have hb0 : LimbsOk w b0 := limbsOk_loLimbs hb m
    have hb1 : LimbsOk w b1 := limbsOk_hiLimbs hb m
    have hz2 : LimbsOk w z2 := ih ha1 hb1
    have hz0 : LimbsOk w z0 := ih ha0 hb0
    have hz1 : LimbsOk w z1 :=
      limbsOk_subMag (limbsOk_subMag (ih (limbsOk_addMag hw ha1 ha0) (limbsOk_addMag hw hb1 hb0)) hz2) hz0
    exact limbsOk_addMag hw (limbsOk_addMag hw (limbsOk_shlLimbs hz2 _) (limbsOk_shlLimbs hz1 m)) hz0

theorem limbWidth_pos {c : Config} (hc : c.Legal) : 1 ≤ c.w := by
  obtain ⟨-, h2, -⟩ := hc
  omega

theorem limbsOk_mulMag {c : Config} (hc : c.Legal) {a b : List Nat} (ha : LimbsOk c.w a) (hb : LimbsOk c.w b) :
    LimbsOk c.w (mulMag c a b) :=
  limbsOk_kmulFuel (limbWidth_pos hc) hc.1 _ _ ha hb

/-! ### The dividers (R182 to R189) -/

theorem limbsOk_modify {w : Nat} {m : List Nat} (hm : LimbsOk w m) {i : Nat} {f : Nat → Nat}
    (hf : ∀ l, m[i]? = some l → f l < 2 ^ w) : LimbsOk w (m.modify i f) := by
  intro l hl
  obtain ⟨j, hj, rfl⟩ := List.getElem_of_mem hl
  rw [List.length_modify] at hj
  rw [List.getElem_modify]
  split
  · rename_i hij
    subst hij
    exact hf _ (List.getElem?_eq_getElem hj)
  · exact hm _ (List.getElem_mem hj)

theorem limbsOk_setBit {w : Nat} (hw : 1 ≤ w) {q : List Nat} (hq : LimbsOk w q) (i : Nat) :
    LimbsOk w (setBit w q i) :=
  limbsOk_modify hq fun _ hl => Nat.or_lt_two_pow (hq _ (List.mem_of_getElem? hl))
    (Nat.pow_lt_pow_right (by norm_num) (Nat.mod_lt i hw))

/-- An even magnitude has room for bit 0 in its lowest limb (R183). -/
theorem limbsOk_bringBit {w : Nat} (hw : 1 ≤ w) {r : List Nat} (hr : LimbsOk w r) (heven : val w r % 2 = 0) (b : Nat) :
    LimbsOk w (bringBit r b) := by
  rw [bringBit]
  split
  · refine limbsOk_modify hr fun l hl => ?_
    obtain ⟨k, rfl⟩ : ∃ k, w = k + 1 := ⟨w - 1, by omega⟩
    have hlt := hr l (List.mem_of_getElem? hl)
    cases r with
    | nil => simp at hl
    | cons l' m =>
      obtain rfl : l' = l := by simpa using hl
      rw [val_cons, pow_succ, Nat.mul_comm (2 ^ k), Nat.mul_assoc] at heven
      rw [pow_succ] at hlt ⊢
      omega
  · exact hr

theorem limbsOk_quadLoop {w : Nat} (hw : 1 ≤ w) {a b : List Nat} (hb : LimbsOk w b) (n : Nat) {q r : List Nat}
    (hq : LimbsOk w q) (hr : LimbsOk w r) :
    LimbsOk w (quadLoop w a b n q r).1 ∧ LimbsOk w (quadLoop w a b n q r).2 := by
  induction n generalizing q r with
  | zero => exact ⟨hq, hr⟩
  | succ n ih =>
    have hr1 : LimbsOk w (bringBit (shlMag w r 1) (bit w a n)) :=
      limbsOk_bringBit hw (normalMag_shlMag hw hr 1).1 (by rw [val_shlMag hw hr]; omega) _
    rw [quadLoop]
    split
    · exact ih hq hr1
    · exact ih (limbsOk_setBit hw hq n) (limbsOk_subMag hr1 hb)

theorem limbsOk_quadDiv {w : Nat} (hw : 1 ≤ w) {a b : List Nat} (hb : LimbsOk w b) :
    LimbsOk w (quadDiv w a b).1 ∧ LimbsOk w (quadDiv w a b).2 := by
  obtain ⟨hq, hr⟩ := limbsOk_quadLoop hw hb (bitlen w a) (a := a) (limbsOk_replicate_zero w a.length) (limbsOk_zero w)
  exact ⟨(normalMag_normMag hq).1, hr⟩

theorem limbsOk_correctLoop {w : Nat} (hw : 1 ≤ w) {b : List Nat} (d : List Nat) (hb : LimbsOk w b) (fuel : Nat)
    {q r : List Nat} (hq : LimbsOk w q) (hr : LimbsOk w r) :
    LimbsOk w (correctLoop w b d fuel q r).1 ∧ LimbsOk w (correctLoop w b d fuel q r).2 := by
  induction fuel generalizing q r with
  | zero => exact ⟨hq, hr⟩
  | succ fuel ih =>
    rw [correctLoop]
    split
    · exact ih (limbsOk_subMag hq (limbsOk_one hw)) (limbsOk_addMag hw hr hb)
    · exact ⟨hq, hr⟩

/-- A divider whose quotients and remainders have limbs in range. -/
def DividerLimbsOk (w : Nat) (div21 : List Nat → List Nat → Nat → List Nat × List Nat) : Prop :=
  ∀ z b n, LimbsOk w z → LimbsOk w b → LimbsOk w (div21 z b n).1 ∧ LimbsOk w (div21 z b n).2

theorem limbsOk_estimate3n2n {c : Config} (hc : c.Legal) {div21 : List Nat → List Nat → Nat → List Nat × List Nat}
    (hdiv : DividerLimbsOk c.w div21) {z b : List Nat} (hz : LimbsOk c.w z) (hb : LimbsOk c.w b) (k : Nat) :
    LimbsOk c.w (estimate3n2n c div21 z b k).1 ∧ LimbsOk c.w (estimate3n2n c div21 z b k).2 := by
  have hzk := limbsOk_hiLimbs hz k
  have hbk := limbsOk_hiLimbs hb k
  rw [estimate3n2n]
  split
  · exact hdiv _ _ _ hzk hbk
  · refine ⟨fun l hl => ?_, limbsOk_addMag (limbWidth_pos hc) (limbsOk_subMag hzk (limbsOk_shlLimbs hbk k)) hbk⟩
    rw [List.eq_of_mem_replicate hl]
    exact Nat.sub_lt (by positivity) one_pos

theorem limbsOk_divide3n2n {c : Config} (hc : c.Legal) {div21 : List Nat → List Nat → Nat → List Nat × List Nat}
    (hdiv : DividerLimbsOk c.w div21) {z b : List Nat} (hz : LimbsOk c.w z) (hb : LimbsOk c.w b) (k : Nat) :
    LimbsOk c.w (divide3n2n c div21 z b k).1 ∧ LimbsOk c.w (divide3n2n c div21 z b k).2 := by
  obtain ⟨hq, hr⟩ := limbsOk_estimate3n2n hc hdiv hz hb k
  have hd := limbsOk_mulMag hc hq (limbsOk_loLimbs hb k)
  have hpos := limbsOk_addMag (limbWidth_pos hc) (limbsOk_shlLimbs hr k) (limbsOk_loLimbs hz k)
  obtain ⟨hq', hr'⟩ := limbsOk_correctLoop (limbWidth_pos hc) (mulMag c (estimate3n2n c div21 z b k).1 (loLimbs b k)) hb
    (val c.w (estimate3n2n c div21 z b k).1) hq hpos
  exact ⟨hq', limbsOk_subMag hr' hd⟩

theorem limbsOk_divide2n1n {c : Config} (hc : c.Legal) (fuel : Nat) : DividerLimbsOk c.w (divide2n1n c fuel) := by
  have hw := limbWidth_pos hc
  induction fuel with
  | zero => exact fun z b n _ hb => limbsOk_quadDiv hw hb
  | succ fuel ih =>
    intro z b n hz hb
    rw [divide2n1n]
    split
    · exact limbsOk_quadDiv hw hb
    extract_lets k zlo zmid zhi hi lo
    have hhi : LimbsOk c.w hi.1 ∧ LimbsOk c.w hi.2 :=
      limbsOk_divide3n2n hc ih (limbsOk_addMag hw (limbsOk_shlLimbs (limbsOk_hiLimbs hz _) k)
        (limbsOk_midLimbs hz _ _)) hb k
    have hlo : LimbsOk c.w lo.1 ∧ LimbsOk c.w lo.2 :=
      limbsOk_divide3n2n hc ih (limbsOk_addMag hw (limbsOk_shlLimbs hhi.2 k) (limbsOk_loLimbs hz k)) hb k
    exact ⟨limbsOk_addMag hw (limbsOk_shlLimbs hhi.1 k) hlo.1, hlo.2⟩

theorem limbsOk_chunkLoop {c : Config} (hc : c.Legal) {a b : List Nat} (ha : LimbsOk c.w a) (hb : LimbsOk c.w b)
    (n t : Nat) {q r : List Nat} (hq : LimbsOk c.w q) (hr : LimbsOk c.w r) :
    LimbsOk c.w (chunkLoop c a b n t q r).1 ∧ LimbsOk c.w (chunkLoop c a b n t q r).2 := by
  have hw := limbWidth_pos hc
  induction t generalizing q r with
  | zero => exact ⟨hq, hr⟩
  | succ t ih =>
    obtain ⟨hq', hr'⟩ := limbsOk_divide2n1n hc n _ b n
      (limbsOk_addMag hw (limbsOk_shlLimbs hr n) (limbsOk_midLimbs ha (t * n) ((t + 1) * n))) hb
    exact ih (limbsOk_addMag hw (limbsOk_shlLimbs hq n) hq') hr'

theorem limbsOk_recursiveDivision {c : Config} (hc : c.Legal) {a b : List Nat} (ha : LimbsOk c.w a)
    (hb : LimbsOk c.w b) :
    LimbsOk c.w (recursiveDivision c a b).1 ∧ LimbsOk c.w (recursiveDivision c a b).2 := by
  have hw := limbWidth_pos hc
  have ha' := (normalMag_shlMag hw ha (clzLimb c.w (top b))).1
  have hb' := (normalMag_shlMag hw hb (clzLimb c.w (top b))).1
  obtain ⟨hq, hr⟩ := limbsOk_chunkLoop hc ha' hb' _ _ (limbsOk_zero c.w) (limbsOk_zero c.w)
  exact ⟨hq, (normalMag_shrMag hw hr _).1⟩

theorem limbsOk_divmodMag {c : Config} (hc : c.Legal) {a b : List Nat} (ha : LimbsOk c.w a) (hb : LimbsOk c.w b) :
    LimbsOk c.w (divmodMag c a b).1 ∧ LimbsOk c.w (divmodMag c a b).2 := by
  rw [divmodMag]
  split
  · exact ⟨limbsOk_zero _, ha⟩
  split
  · exact limbsOk_quadDiv (limbWidth_pos hc) hb
  · exact limbsOk_recursiveDivision hc ha hb

/-! ### Results are normalised values (R23, R101) -/

theorem normal_normalize {w : Nat} (hw : 1 ≤ w) {m : List Nat} (hm : LimbsOk w m) (neg : Bool) :
    (normalize m neg).Normal w := by
  rw [normalize_eq_mkInt hw hm]
  exact normal_mkInt hw _

theorem normal_oneInt {w : Nat} (hw : 1 ≤ w) : oneInt.Normal w :=
  ⟨⟨limbsOk_one hw, by simp [oneInt], .inl rfl⟩, fun _ => rfl⟩

theorem normal_addSigned {w : Nat} (hw : 1 ≤ w) {a b : BigInt} (ha : a.Normal w) (hb : b.Normal w) :
    (addSigned w a b).Normal w := by
  rw [addSigned_eq hw ha hb]
  exact normal_mkInt hw _

theorem normal_subSigned {w : Nat} (hw : 1 ≤ w) {a b : BigInt} (ha : a.Normal w) (hb : b.Normal w) :
    (subSigned w a b).Normal w := by
  rw [subSigned_eq hw ha hb]
  exact normal_mkInt hw _

theorem normal_mulSigned {c : Config} (hc : c.Legal) {a b : BigInt} (ha : a.Normal c.w) (hb : b.Normal c.w) :
    (mulSigned c a b).Normal c.w :=
  normal_normalize (limbWidth_pos hc) (limbsOk_mulMag hc ha.1.1 hb.1.1) _

theorem normal_powLoop {c : Config} (hc : c.Legal) (fuel : Nat) {result b : BigInt} (e : Nat)
    (hr : result.Normal c.w) (hb : b.Normal c.w) : (powLoop c fuel result b e).Normal c.w := by
  induction fuel generalizing result b e with
  | zero => exact hr
  | succ fuel ih =>
    rw [powLoop]
    split
    · exact hr
    · refine ih (e / 2) ?_ ?_
      · split
        · exact normal_mulSigned hc hr hb
        · exact hr
      · split
        · exact normal_mulSigned hc hb hb
        · exact hb

theorem normal_powInt {c : Config} (hc : c.Legal) {base : BigInt} (hb : base.Normal c.w) (e : Nat) :
    (powInt c base e).Normal c.w :=
  normal_powLoop hc e e (normal_oneInt (limbWidth_pos hc)) hb

theorem normal_quotSigned {c : Config} (hc : c.Legal) {a b : BigInt} (ha : a.Normal c.w) (hb : b.Normal c.w) :
    (quotSigned c a b).Normal c.w :=
  normal_normalize (limbWidth_pos hc) (limbsOk_divmodMag hc ha.1.1 hb.1.1).1 _

theorem normal_remSigned {c : Config} (hc : c.Legal) {a b : BigInt} (ha : a.Normal c.w) (hb : b.Normal c.w) :
    (remSigned c a b).Normal c.w :=
  normal_normalize (limbWidth_pos hc) (limbsOk_divmodMag hc ha.1.1 hb.1.1).2 _

theorem normal_parseText {w : Nat} (hw : 1 ≤ w) {t : List Byte} {v : BigInt} (h : parseText w t = some v) :
    v.Normal w := by
  rw [parseText] at h
  split at h
  · cases h
  · cases h
  · obtain rfl := Option.some.inj h
    exact normal_normalize hw (normalMag_limbs hw _).1 _

end Sys2Proof.Machine
end

section
/-! SUPPORT. What one command leaves of the registers, the text buffer and `SR`, read off `Effect`, and what one step can
do, said once (spec/10_state.md R21, R25, R28, R31). -/

namespace Sys2Proof.Machine

/-! ### Registers after a write and after ALLOC (R26, R274) -/

theorem getElem_set_reg (x : Vector (Option BigInt) 16) (rd r : Reg) (o : Option BigInt) :
    (x.set rd o)[r] = if rd = r then o else x[r] := by
  simp [Vector.getElem_set, Fin.ext_iff]

theorem getElem_loseRegs (s : State) (ds : List Reg) (r : Reg) :
    (s.loseRegs ds)[r] = if r ∈ ds then s.freeDest r else s.x[r] := by
  induction ds with
  | nil => simp
  | cons d ds ih =>
    rw [State.loseRegs, getElem_set_reg, ih]
    by_cases h : d = r
    · simp [h]
    · simp [h, Ne.symm h]

theorem getElem_replicate_reg (r : Reg) : (Vector.replicate 16 (none : Option BigInt))[r] = none := by
  simp

/-! ### What a command leaves, by its effect -/

variable {i : Instr} {s t : State}

theorem Effect.cfg_eq (h : Effect i s t) : t.cfg = s.cfg := by cases h <;> rfl

theorem Effect.resets_eq (h : Effect i s t) : t.resets = s.resets := by cases h <;> rfl

theorem Effect.input_eq (h : Effect i s t) : t.input = s.input := by cases h <;> rfl

/-- A register afterwards: as before, or a destination that was dropped, lost to ALLOC, or written (R21, R25, R274). -/
theorem Effect.getElem_cases (h : Effect i s t) (r : Reg) :
    t.x[r] = s.x[r] ∨ r ∈ i.dests ∧ (i = .drop r ∧ t.x[r] = none ∨
      i.op ≠ .drop ∧ (t.rsp = some ⟨0x03#8, 0#64⟩ ∨ t.x[r].isSome = true)) := by
  cases h with
  | alloc _ _ ho =>
    by_cases hr : r ∈ i.dests
    · exact .inr ⟨hr, .inr ⟨ho, .inl rfl⟩⟩
    · exact .inl ((getElem_loseRegs ..).trans (if_neg hr))
  | wrote _ rd v d hi ho =>
    by_cases hr : rd = r
    · subst hr
      exact .inr ⟨by simp [hi], .inr ⟨ho, .inr (by simp)⟩⟩
    · exact .inl ((getElem_set_reg ..).trans (if_neg hr))
  | wrote2 _ rd rd2 q v hi ho =>
    have hop : i.op ≠ .drop := by simp [ho]
    by_cases hr2 : rd2 = r
    · subst hr2
      exact .inr ⟨by simp [hi], .inr ⟨hop, .inr (by simp)⟩⟩
    have hx : ((s.x.set rd (some q)).set rd2 (some v))[r] = (s.x.set rd (some q))[r] :=
      (getElem_set_reg ..).trans (if_neg hr2)
    by_cases hr : rd = r
    · subst hr
      exact .inr ⟨by simp [hi], .inr ⟨hop, .inr (by simp only [hx, getElem_set_reg, if_true, Option.isSome_some])⟩⟩
    · exact .inl (hx.trans ((getElem_set_reg ..).trans (if_neg hr)))
  | dropped _ rd hi =>
    by_cases hr : rd = r
    · subst hr
      exact .inr ⟨by simp [hi, Instr.dests], .inl ⟨hi, by simp⟩⟩
    · exact .inl ((getElem_set_reg ..).trans (if_neg hr))
  | _ => exact .inl rfl

/-- The text buffer afterwards: as before, or with one in-range text stored over it (R239, R238). -/
theorem Effect.tbuf_cases (h : Effect i s t) :
    t.tbuf = s.tbuf ∨ ∃ (a : Nat) (bytes : List Byte), Claims.stored i s = (a, bytes.length) ∧
      a + bytes.length ≤ s.cfg.tbufBytes ∧ t.tbuf = Tbuf.writeAll s.tbuf a bytes := by
  cases h with
  | byteStored _ addr byte hi hr => exact .inr ⟨addr.toNat, [byte], by simp [hi, Claims.stored], hr, rfl⟩
  | textStored _ rs1 addr v hi hv hr =>
    have hv' : s.x[rs1] = some v := hv
    exact .inr ⟨addr.toNat, formatText s.cfg.w v, by simp only [hi, Claims.stored, hv'], hr, rfl⟩
  | _ => exact .inl rfl

/-- No fault sets ALLOC without HALT (R28). -/
theorem CmdFault.srBits_halt_eq_alloc (f : CmdFault) : f.srBits.getLsbD 2 = f.srBits.getLsbD 7 := by
  cases f <;> simp [CmdFault.srBits]

/-- `SR` afterwards: only bits added, HALT and ALLOC together, or cleared as CLRSR says (R28, R29). -/
theorem Effect.sr_cases (h : Effect i s t) :
    (∃ bits : BitVec 8, bits.getLsbD 2 = bits.getLsbD 7 ∧ t.sr = s.sr ||| bits) ∨
      ∃ mask, i = .clrsr mask ∧ t.sr = clearedSr s.sr mask := by
  cases h with
  | cleared _ mask hi => exact .inr ⟨mask, hi, rfl⟩
  | alloc => exact .inl ⟨_, CmdFault.srBits_halt_eq_alloc _, rfl⟩
  | halted | illegal | uninit | range | divz | fmt | pfail => exact .inl ⟨_, by decide, rfl⟩
  | answered | wrote | wrote2 | dropped | byteStored | textStored => exact .inl ⟨0x00#8, by decide, BitVec.or_zero.symm⟩

theorem getLsbD_clearedSr (sr mask : BitVec 8) (k : Nat) :
    (clearedSr sr mask).getLsbD k = (sr.getLsbD k && !(mask.getLsbD k && srClearable.getLsbD k)) := by
  rw [clearedSr, BitVec.getLsbD_and, BitVec.getLsbD_not, BitVec.getLsbD_and]
  by_cases hk : k < 8
  · simp [hk]
  · simp [BitVec.getLsbD_of_ge sr k (by omega)]

/-! ### What a step can do -/

theorem illegalCommand_cases {word : CmdWord} (h : illegalCommand word s = .next t) :
    ∃ bits status d, bits.getLsbD 2 = bits.getLsbD 7 ∧ t = s.faulted bits status d := by
  rcases s.unlessHalted_cases (s.takeFault (.illcmd word)) with ⟨he, -⟩ | ⟨he, -⟩ <;>
    (rw [illegalCommand, he] at h; cases h)
  · exact ⟨_, _, _, CmdFault.srBits_halt_eq_alloc _, s.takeFault_eq_faulted (.illcmd word) rfl⟩
  · exact ⟨_, _, _, by decide, rfl⟩

/-- A step idles, resets, refuses an undecodable command, or runs a decoded one. -/
theorem step_cases (h : step s = .next t) :
    t = s ∨
    (∃ rest, s.input = .reset :: rest ∧ t = ({ s with input := rest } : State).takeReset) ∨
    (∃ rest bits status d, bits.getLsbD 2 = bits.getLsbD 7 ∧
      t = ({ s with input := rest } : State).faulted bits status d) ∨
    ∃ word imm rest i, s.input = .command word imm :: rest ∧ decode word imm = .ok i ∧
      exec i { s with input := rest } = .next t := by
  cases hin : s.input with
  | nil =>
    rw [step_of_input_nil hin] at h
    cases h
    exact .inl rfl
  | cons e rest =>
    rw [step_of_input_cons hin] at h
    cases e with
    | reset =>
      cases h
      exact .inr (.inl ⟨rest, rfl, rfl⟩)
    | command word imm =>
      rw [runEvent_command] at h
      cases hd : decode word imm with
      | error e =>
        rw [runCommand_of_decode_error hd] at h
        exact .inr (.inr (.inl ⟨rest, illegalCommand_cases h⟩))
      | ok i =>
        rw [runCommand_of_decode_ok hd] at h
        exact .inr (.inr (.inr ⟨word, imm, rest, i, rfl, hd, h⟩))

end Sys2Proof.Machine
end

section
/-! SUPPORT. The invariant of rules R5, R21, R23, R28, R40 over one command (spec/10_state.md). -/

namespace Sys2Proof.Machine

/-! ### Registers stay normalised (R21, R23) -/

variable {s t : State}

/-- Registers are normalised afterwards where each value they hold was held before, or is normalised and fits. -/
theorem regsNormal_of_getElem (hs : s.RegsNormal) (hcfg : t.cfg = s.cfg)
    (hx : ∀ r : Reg, ∀ v ∈ t.x[r], v ∈ s.x[r] ∨ v.Normal s.cfg.w ∧ fits s.cfg v.mag = true) : t.RegsNormal := by
  intro r v hv
  rw [hcfg]
  rcases hx r v hv with h | h
  · exact hs r v h
  · exact h

theorem regsNormal_of_x_eq (hs : s.RegsNormal) (hcfg : t.cfg = s.cfg) (hx : t.x = s.x) : t.RegsNormal :=
  regsNormal_of_getElem hs hcfg fun _ _ hv => .inl (hx ▸ hv)

theorem regsNormal_takeFault (hc : s.cfg.Legal) (hs : s.RegsNormal) (f : CmdFault) : (s.takeFault f).RegsNormal := by
  refine regsNormal_of_getElem hs rfl fun r v hv => ?_
  rw [State.takeFault_x, getElem_loseRegs] at hv
  split at hv
  · rcases s.freeDest_cases r with h | ⟨z, h, hf⟩ <;> rw [h] at hv <;> cases hv
    exact .inr ⟨normal_mkInt (limbWidth_pos hc) z, hf⟩
  · exact .inl hv

theorem regsNormal_writeBack (hc : s.cfg.Legal) (hs : s.RegsNormal) {rd : Reg} {v : BigInt} {d : BitVec 64}
    (hv : v.Normal s.cfg.w) : (s.writeBack rd v d).RegsNormal := by
  rw [State.writeBack]
  split
  · refine regsNormal_of_getElem hs rfl fun r u hu => ?_
    rw [getElem_set_reg] at hu
    split at hu
    · cases hu
      exact .inr ⟨hv, by assumption⟩
    · exact .inl hu
  · exact regsNormal_takeFault hc hs _

theorem regsNormal_writeBack2 (hc : s.cfg.Legal) (hs : s.RegsNormal) {rd rd2 : Reg} {q r : BigInt}
    (hq : q.Normal s.cfg.w) (hr : r.Normal s.cfg.w) : (s.writeBack2 rd rd2 q r).RegsNormal := by
  rcases s.writeBack2_cases rd rd2 q r with ⟨⟨hfq, hfr⟩, he⟩ | ⟨-, he⟩ <;> rw [he]
  · refine regsNormal_of_getElem hs rfl fun i u hu => ?_
    rw [getElem_set_reg, getElem_set_reg] at hu
    split at hu
    · cases hu
      exact .inr ⟨hr, hfr⟩
    split at hu
    · cases hu
      exact .inr ⟨hq, hfq⟩
    · exact .inl hu
  · exact regsNormal_takeFault hc hs _

theorem regsNormal_unlessHalted (hc : s.cfg.Legal) (hs : s.RegsNormal) {done : State}
    (h : s.unlessHalted done = .next t) (hd : done.RegsNormal) : t.RegsNormal := by
  rw [State.unlessHalted] at h
  cases h
  split
  · exact regsNormal_takeFault hc hs _
  · exact hd

theorem regsNormal_withSource (hc : s.cfg.Legal) (hs : s.RegsNormal) {rs1 : Reg} {k : BigInt → State}
    (hk : ∀ v, v.Normal s.cfg.w → (k v).RegsNormal) : (s.withSource rs1 k).RegsNormal := by
  rw [State.withSource]
  split
  · exact regsNormal_takeFault hc hs _
  · rename_i v hv
    exact hk v (hs rs1 v hv).1

theorem regsNormal_withSources (hc : s.cfg.Legal) (hs : s.RegsNormal) {rs1 rs2 : Reg} {k : BigInt → BigInt → State}
    (hk : ∀ a b, a.Normal s.cfg.w → b.Normal s.cfg.w → (k a b).RegsNormal) : (s.withSources rs1 rs2 k).RegsNormal :=
  regsNormal_withSource hc hs fun a ha => regsNormal_withSource hc hs fun b hb => hk a b ha hb

theorem regsNormal_withDivision (hc : s.cfg.Legal) (hs : s.RegsNormal) {rs1 rs2 : Reg} {k : BigInt → BigInt → State}
    (hk : ∀ a b, a.Normal s.cfg.w → b.Normal s.cfg.w → (k a b).RegsNormal) :
    (withDivision rs1 rs2 s k).RegsNormal := by
  refine regsNormal_withSources hc hs fun a b ha hb => ?_
  split
  · exact regsNormal_takeFault hc hs _
  · exact hk a b ha hb

theorem regsNormal_withText (hc : s.cfg.Legal) (hs : s.RegsNormal) {addr : Addr} {n : Nat} {k : List Byte → State}
    (hk : ∀ bytes, (k bytes).RegsNormal) : (s.withText addr n k).RegsNormal := by
  rw [State.withText]
  split
  · exact hk _
  · exact regsNormal_takeFault hc hs _

/-- Every command leaves normalised registers: a written value is the result of a datapath whose limbs are in range. -/
theorem exec_regsNormal (hc : s.cfg.Legal) (hs : s.RegsNormal) {i : Instr} (h : exec i s = .next t) :
    t.RegsNormal := by
  have hw := limbWidth_pos hc
  have halted {done : State} := regsNormal_unlessHalted hc hs (done := done) (t := t)
  have one {rs1 k} := regsNormal_withSource hc hs (rs1 := rs1) (k := k)
  have two {rs1 rs2 k} := regsNormal_withSources hc hs (rs1 := rs1) (rs2 := rs2) (k := k)
  have write {rd v d} := regsNormal_writeBack hc hs (rd := rd) (v := v) (d := d)
  have same {u : State} := regsNormal_of_x_eq hs (t := u)
  cases i with
  | ldi rd imm => exact halted h (write (normal_mkInt hw _))
  | mov rd rs1 => exact halted h (one fun v hv => write hv)
  | drop rd =>
    refine halted h (regsNormal_of_getElem hs rfl fun r v hv => ?_)
    rw [getElem_set_reg] at hv
    split at hv
    · cases hv
    · exact .inl hv
  | abs rd rs1 => exact halted h (one fun v hv => write ⟨hv.1, fun _ => rfl⟩)
  | iszero | isneg | size | clz => exact halted h (one fun v _ => same rfl rfl)
  | ceq | cne | clt | cle | cgt | cge => exact halted h (two fun a b _ _ => same rfl rfl)
  | add rd rs1 rs2 => exact halted h (two fun a b ha hb => write (normal_addSigned hw ha hb))
  | sub rd rs1 rs2 => exact halted h (two fun a b ha hb => write (normal_subSigned hw ha hb))
  | neg rd rs1 => exact halted h (one fun v hv => write (normal_normalize hw hv.1.1 _))
  | inc rd rs1 => exact halted h (one fun v hv => write (normal_addSigned hw hv (normal_oneInt hw)))
  | dec rd rs1 => exact halted h (one fun v hv => write (normal_subSigned hw hv (normal_oneInt hw)))
  | mul rd rs1 rs2 => exact halted h (two fun a b ha hb => write (normal_mulSigned hc ha hb))
  | pow rd rs1 e => exact halted h (one fun v hv => write (normal_powInt hc hv _))
  | divmod rd rd2 rs1 rs2 =>
    refine halted h ?_
    split
    · exact regsNormal_takeFault hc hs _
    · exact regsNormal_withDivision hc hs fun a b ha hb =>
        regsNormal_writeBack2 hc hs (normal_quotSigned hc ha hb) (normal_remSigned hc ha hb)
  | div rd rs1 rs2 =>
    exact halted h (regsNormal_withDivision hc hs fun a b ha hb => write (normal_quotSigned hc ha hb))
  | mod rd rs1 rs2 =>
    exact halted h (regsNormal_withDivision hc hs fun a b ha hb => write (normal_remSigned hc ha hb))
  | shl rd rs1 amount =>
    exact halted h (one fun v hv => write (normal_normalize hw (normalMag_shlMag hw hv.1.1 _).1 _))
  | shr rd rs1 amount =>
    exact halted h (one fun v hv => write (normal_normalize hw (normalMag_shrMag hw hv.1.1 _).1 _))
  | and rd rs1 rs2 =>
    exact halted h (two fun a b ha hb => write (normal_normalize hw (val_andLimbs ha.1.1 hb.1.1).2 _))
  | or rd rs1 rs2 =>
    exact halted h (two fun a b ha hb => write (normal_normalize hw (val_orLimbs ha.1.1 hb.1.1).2 _))
  | xor rd rs1 rs2 =>
    exact halted h (two fun a b ha hb => write (normal_normalize hw (val_xorLimbs ha.1.1 hb.1.1).2 _))
  | not rd rs1 => exact halted h (one fun v hv => write (normal_normalize hw (val_notLimbs hv.1.1).2 _))
  | parse rd addr len =>
    refine halted h (regsNormal_withText hc hs fun bytes => ?_)
    split
    · exact regsNormal_takeFault hc hs _
    · exact write (normal_parseText hw (by assumption))
  | parses rd addr len =>
    refine halted h (regsNormal_withText hc hs fun bytes => ?_)
    split
    · exact same rfl rfl
    · exact write (normal_parseText hw (by assumption))
  | format rs1 addr =>
    refine halted h (one fun v _ => ?_)
    rw [State.storeText]
    split
    · exact same rfl rfl
    · exact regsNormal_takeFault hc hs _
  | tbw addr byte =>
    refine halted h ?_
    rw [State.storeText]
    split
    · exact same rfl rfl
    · exact regsNormal_takeFault hc hs _
  | tbr addr => exact halted h (regsNormal_withText hc hs fun bytes => same rfl rfl)
  | rdsr =>
    cases h
    exact same rfl rfl
  | clrsr mask => exact halted h (same rfl rfl)

/-! ### The text buffer stays canonical, HALT stays equal to ALLOC (R28, R40) -/

theorem Effect.tbufOk {i : Instr} (h : Effect i s t) (hs : s.TbufOk) : t.TbufOk := by
  obtain ⟨hwf, hin⟩ := hs
  rcases h.tbuf_cases with he | ⟨a, bytes, -, hr, he⟩ <;> rw [State.TbufOk, h.cfg_eq, he]
  · exact ⟨hwf, hin⟩
  · refine ⟨Tbuf.wf_writeAll hwf a bytes, fun c hc => ?_⟩
    rcases Tbuf.mem_writeAll hc with h1 | h1
    · omega
    · exact hin c h1

theorem haltOk_of_sr_eq_or {bits : BitVec 8} (hbits : bits.getLsbD 2 = bits.getLsbD 7) (hs : s.HaltOk)
    (h : t.sr = s.sr ||| bits) : t.HaltOk := by
  rw [State.HaltOk, h, BitVec.getLsbD_or, BitVec.getLsbD_or, hbits, hs]

theorem Effect.haltOk {i : Instr} (h : Effect i s t) (hs : s.HaltOk) : t.HaltOk := by
  rcases h.sr_cases with ⟨bits, hbits, he⟩ | ⟨mask, -, he⟩
  · exact haltOk_of_sr_eq_or hbits hs he
  · have h2 : srClearable.getLsbD 2 = false := rfl
    have h7 : srClearable.getLsbD 7 = false := rfl
    rw [State.HaltOk, he, getLsbD_clearedSr, getLsbD_clearedSr, h2, h7, hs, Bool.and_false, Bool.and_false]

theorem exec_inv {i : Instr} (hs : s.Inv) (h : exec i s = .next t) : t.Inv := by
  obtain ⟨hc, hregs, htbuf, hhalt⟩ := hs
  have he := effect_of_exec h
  exact ⟨he.cfg_eq ▸ hc, exec_regsNormal hc hregs h, he.tbufOk htbuf, he.haltOk hhalt⟩

theorem faulted_inv (hs : s.Inv) {bits : BitVec 8} (hbits : bits.getLsbD 2 = bits.getLsbD 7) (status : BitVec 8)
    (d : BitVec 64) : (s.faulted bits status d).Inv := by
  obtain ⟨hc, hregs, htbuf, hhalt⟩ := hs
  exact ⟨hc, hregs, htbuf, haltOk_of_sr_eq_or hbits hhalt rfl⟩

theorem takeReset_inv (hc : s.cfg.Legal) : s.takeReset.Inv := by
  refine ⟨hc, fun r v hv => ?_, ⟨rfl, fun c hcell => ?_⟩, by simp [State.HaltOk]⟩
  · rw [State.takeReset_x, getElem_replicate_reg] at hv
    cases hv
  · cases hcell

/-- Settles O11: each kind of step keeps the invariant; a command does because every datapath's limbs stay in range. -/
theorem stepKeepsInvariant : Obligations.StepKeepsInvariant := by
  intro s t hs h
  rcases step_cases h with rfl | ⟨rest, -, rfl⟩ | ⟨rest, bits, status, d, hbits, rfl⟩ | ⟨word, imm, rest, i, -, -, he⟩
  · exact hs
  · exact takeReset_inv hs.1
  · exact faulted_inv hs hbits status d
  · exact exec_inv (s := { s with input := rest }) hs he

end Sys2Proof.Machine
end

section
/-! SUPPORT. Frames of registers, text buffer and `SR`, and when a register comes to hold a value or stops holding one
(spec/10_state.md R21, R25, R26, R28 to R31), from what a command leaves. -/

namespace Sys2Proof.Machine

variable {i : Instr} {s t : State}

/-- Settles O21: parameters, reset count and queue by the effect, registers because no destination covers them. -/
theorem registerFrame : Obligations.RegisterFrame := by
  intro s t i h
  have he := effect_of_exec h
  refine ⟨he.cfg_eq, he.resets_eq, he.input_eq, fun r hr => ?_⟩
  rcases he.getElem_cases r with heq | ⟨hmem, -⟩
  · exact heq
  · exact absurd hmem hr

/-- Settles O22: a stored text covers exactly the addresses of its range. -/
theorem textBufferFrame : Obligations.TextBufferFrame := by
  intro s t i h a ha
  have he := effect_of_exec h
  rw [State.tbufByte, State.tbufByte, he.resets_eq]
  rcases he.tbuf_cases with heq | ⟨k, bytes, hstored, -, heq⟩
  · rw [heq]
  · rw [hstored] at ha
    rw [heq, Tbuf.read_writeAll, if_neg (by omega)]

theorem mem_of_srClearable {k : Nat} (h : srClearable.getLsbD k = true) : k ∈ [0, 1, 3, 4, 5, 6] := by
  have hbits : ∀ k < 8, srClearable.getLsbD k = true → k ∈ [0, 1, 3, 4, 5, 6] := by decide
  exact hbits k (BitVec.lt_of_getLsbD h) h

/-- Settles O18: `SR` is the old one with bits added, or with CLRSR's clearable mask bits removed. -/
theorem statusBitsAreSticky : Obligations.StatusBitsAreSticky := by
  intro s t i k h hk
  rcases (effect_of_exec h).sr_cases with ⟨bits, -, hsr⟩ | ⟨mask, hi, hsr⟩
  · exact .inl (by rw [hsr, BitVec.getLsbD_or, hk, Bool.true_or])
  · cases hm : mask.getLsbD k && srClearable.getLsbD k with
    | false => exact .inl (by rw [hsr, getLsbD_clearedSr, hk, hm, Bool.not_false, Bool.and_true])
    | true =>
      obtain ⟨hmask, hclear⟩ := Bool.and_eq_true_iff.1 hm
      exact .inr ⟨mask, hi, hmask, mem_of_srClearable hclear⟩

theorem op_ne_parses_of_dests_nil (h : i.dests = []) : i.op ≠ .parses := by
  intro hop
  cases i with
  | parses => cases h
  | _ => cases hop

/-- Settles O23: the bits of each kind of effect, beside its status. -/
theorem statusRegisterFrame : Obligations.StatusRegisterFrame := by
  intro s t i c d h hrsp hi
  cases effect_of_exec h with
  | cleared _ mask hmask => exact absurd hmask (hi mask)
  | answered _ _ hdests =>
    cases hrsp
    simp [op_ne_parses_of_dests_nil hdests]
  | wrote _ rd v _ _ _ hd =>
    cases hrsp
    have hne : ¬(i.op = .parses ∧ d = 0#64) := by
      rintro ⟨hop, rfl⟩
      cases hd hop
    simp [hne]
  | wrote2 _ _ _ _ _ _ hop =>
    cases hrsp
    simp [hop]
  | pfail _ hop =>
    cases hrsp
    simp [hop, srPfail]
  | dropped _ _ hinstr | byteStored _ _ _ hinstr | textStored _ _ _ _ hinstr =>
    cases hrsp
    simp [hinstr, Instr.op]
  | halted | illegal | uninit | range | divz | fmt | alloc =>
    cases hrsp
    rfl

theorem Effect.valid_rises (h : Effect i s t) {r : Reg} (hs : s.valid r = false) (ht : t.valid r = true) :
    r ∈ i.dests ∧ i.op ≠ .drop := by
  rw [State.valid] at hs ht
  rcases h.getElem_cases r with heq | ⟨hr, ⟨-, hnone⟩ | ⟨hop, -⟩⟩
  · rw [heq, hs] at ht
    cases ht
  · rw [hnone] at ht
    cases ht
  · exact ⟨hr, hop⟩

theorem Effect.valid_falls (h : Effect i s t) {r : Reg} (hs : s.valid r = true) (ht : t.valid r = false) :
    r ∈ i.dests ∧ (i = .drop r ∨ t.rsp = some ⟨0x03#8, 0#64⟩) := by
  rw [State.valid] at hs ht
  rcases h.getElem_cases r with heq | ⟨hr, ⟨hdrop, -⟩ | ⟨-, halloc | hsome⟩⟩
  · rw [heq, hs] at ht
    cases ht
  · exact ⟨hr, .inl hdrop⟩
  · exact ⟨hr, .inr halloc⟩
  · rw [hsome] at ht
    cases ht

theorem valid_neither_rises_nor_falls {p q : Prop} {r : Reg} (h : t.valid r = s.valid r) :
    (s.valid r = false → t.valid r = true → p) ∧ (s.valid r = true → t.valid r = false → q) := by
  rw [h]
  exact ⟨fun hs ht => Bool.noConfusion (hs.symm.trans ht), fun hs ht => Bool.noConfusion (hs.symm.trans ht)⟩

/-- Settles O24: only reset and a decoded command change valid bits, the command as its effect says. -/
theorem validBitsChangeOnlyAsStated : Obligations.ValidBitsChangeOnlyAsStated := by
  intro s t r h
  rcases step_cases h with rfl | ⟨rest, hin, rfl⟩ | ⟨rest, bits, status, d, -, rfl⟩ | ⟨word, imm, rest, i, hin, hd, he⟩
  · exact valid_neither_rises_nor_falls rfl
  · exact ⟨fun _ ht => by simp [State.valid] at ht, fun _ _ => .inl ⟨rest, hin⟩⟩
  · exact valid_neither_rises_nor_falls rfl
  · have heff := effect_of_exec he
    refine ⟨fun hs ht => ?_, fun hs ht => .inr ?_⟩
    · obtain ⟨hr, hop⟩ := heff.valid_rises hs ht
      exact ⟨word, imm, rest, i, hin, hd, hr, hop⟩
    · obtain ⟨hr, hwhy⟩ := heff.valid_falls hs ht
      exact ⟨word, imm, rest, i, hin, hd, hr, hwhy⟩

end Sys2Proof.Machine
end

section
/-! SUPPORT. Two runs of one command, from states that differ in registers it does not name and in `SR`
(spec/10_state.md R21, R29): one relation between the two outcomes, kept by each operation a meaning is built of. -/

namespace Sys2Proof.Machine

/-- `s` with another register file and another `SR`. -/
def State.variant (s : State) (x' : Vector (Option BigInt) 16) (sr' : BitVec 8) : State := { s with x := x', sr := sr' }

/-- The second run, from `s'` to `t'`, went as the first, from `s` to `t`: the same response and text buffer, `SR` changed
in the same way, and each register equal in both or untouched in both. -/
structure RunsAlike (s s' t t' : State) : Prop where
  rsp : t'.rsp = t.rsp
  tbuf : t'.tbuf = t.tbuf
  sr : ∃ f : BitVec 8 → BitVec 8, t.sr = f s.sr ∧ t'.sr = f s'.sr
  x : ∀ r : Reg, t'.x[r] = t.x[r] ∨ t.x[r] = s.x[r] ∧ t'.x[r] = s'.x[r]

section
variable {s t t' : State} {x' : Vector (Option BigInt) 16} {sr' : BitVec 8}

@[simp] theorem State.variant_cfg : (s.variant x' sr').cfg = s.cfg := rfl

@[simp] theorem State.variant_inRange (a n : Nat) : (s.variant x' sr').inRange a n = s.inRange a n := rfl

@[simp] theorem State.variant_bytesFrom (a n : Nat) : (s.variant x' sr').bytesFrom a n = s.bytesFrom a n := by
  induction n generalizing a with
  | zero => rfl
  | succ n ih => rw [State.bytesFrom, ih]; rfl

theorem runsAlike_respond (d : BitVec 64) :
    RunsAlike s (s.variant x' sr') (s.respond d) ((s.variant x' sr').respond d) :=
  ⟨rfl, rfl, ⟨id, rfl, rfl⟩, fun _ => .inr ⟨rfl, rfl⟩⟩

theorem runsAlike_takeFault (f : CmdFault) :
    RunsAlike s (s.variant x' sr') (s.takeFault f) ((s.variant x' sr').takeFault f) := by
  refine ⟨rfl, rfl, ⟨(· ||| f.srBits), rfl, rfl⟩, fun r => ?_⟩
  rw [State.takeFault_x, State.takeFault_x, getElem_loseRegs, getElem_loseRegs]
  split
  · exact .inl rfl
  · exact .inr ⟨rfl, rfl⟩

/-- A register written with one value in both runs is equal in both, and no other is touched. -/
theorem getElem_set_alike (x x' : Vector (Option BigInt) 16) (rd r : Reg) (o : Option BigInt) :
    (x'.set rd o)[r] = (x.set rd o)[r] ∨ (x.set rd o)[r] = x[r] ∧ (x'.set rd o)[r] = x'[r] := by
  rw [getElem_set_reg, getElem_set_reg]
  split
  · exact .inl rfl
  · exact .inr ⟨rfl, rfl⟩

theorem runsAlike_writeBack (rd : Reg) (v : BigInt) (d : BitVec 64) :
    RunsAlike s (s.variant x' sr') (s.writeBack rd v d) ((s.variant x' sr').writeBack rd v d) := by
  rw [State.writeBack, State.writeBack, State.variant_cfg]
  by_cases h : fits s.cfg v.mag = true
  · rw [if_pos h, if_pos h]
    exact ⟨rfl, rfl, ⟨id, rfl, rfl⟩, fun r => getElem_set_alike s.x x' rd r (some v)⟩
  · rw [if_neg h, if_neg h]
    exact runsAlike_takeFault _

theorem runsAlike_writeBack2 (rd rd2 : Reg) (q v : BigInt) :
    RunsAlike s (s.variant x' sr') (s.writeBack2 rd rd2 q v) ((s.variant x' sr').writeBack2 rd rd2 q v) := by
  rw [State.writeBack2, State.writeBack2, State.variant_cfg]
  by_cases h : (fits s.cfg q.mag && fits s.cfg v.mag) = true
  · rw [if_pos h, if_pos h]
    refine ⟨rfl, rfl, ⟨id, rfl, rfl⟩, fun r => ?_⟩
    rcases getElem_set_alike (s.x.set rd (some q)) (x'.set rd (some q)) rd2 r (some v) with h2 | ⟨h2, h2'⟩
    · exact .inl h2
    · change (((x'.set rd (some q)).set rd2 (some v))[r] = ((s.x.set rd (some q)).set rd2 (some v))[r] ∨
        ((s.x.set rd (some q)).set rd2 (some v))[r] = s.x[r] ∧ ((x'.set rd (some q)).set rd2 (some v))[r] = x'[r])
      rw [h2, h2']
      exact getElem_set_alike s.x x' rd r (some q)
  · rw [if_neg h, if_neg h]
    exact runsAlike_takeFault _

theorem runsAlike_storeText (addr : Addr) (bytes : List Byte) (d : BitVec 64) :
    RunsAlike s (s.variant x' sr') (s.storeText addr bytes d) ((s.variant x' sr').storeText addr bytes d) := by
  rw [State.storeText, State.storeText, State.variant_inRange]
  by_cases h : s.inRange addr.toNat bytes.length = true
  · rw [if_pos h, if_pos h]
    exact ⟨rfl, rfl, ⟨id, rfl, rfl⟩, fun _ => .inr ⟨rfl, rfl⟩⟩
  · rw [if_neg h, if_neg h]
    exact runsAlike_takeFault _

theorem runsAlike_unlessHalted {u u' : State} (hhalt : (s.variant x' sr').halted = s.halted)
    (h : s.unlessHalted u = .next t) (h' : (s.variant x' sr').unlessHalted u' = .next t')
    (hu : RunsAlike s (s.variant x' sr') u u') : RunsAlike s (s.variant x' sr') t t' := by
  rw [State.unlessHalted] at h h'
  cases h
  cases h'
  rw [hhalt]
  split
  · exact runsAlike_takeFault _
  · exact hu

theorem runsAlike_withSource {rs1 : Reg} {k k' : BigInt → State} (hx : s.x[rs1] = x'[rs1])
    (hk : ∀ v, RunsAlike s (s.variant x' sr') (k v) (k' v)) :
    RunsAlike s (s.variant x' sr') (s.withSource rs1 k) ((s.variant x' sr').withSource rs1 k') := by
  have hx' : (s.variant x' sr').x[rs1] = s.x[rs1] := hx.symm
  rw [State.withSource, State.withSource, hx']
  cases s.x[rs1] with
  | none => exact runsAlike_takeFault _
  | some v => exact hk v

theorem runsAlike_withSources {rs1 rs2 : Reg} {k k' : BigInt → BigInt → State}
    (hx : ∀ r ∈ [rs1, rs2], s.x[r] = x'[r]) (hk : ∀ a b, RunsAlike s (s.variant x' sr') (k a b) (k' a b)) :
    RunsAlike s (s.variant x' sr') (s.withSources rs1 rs2 k) ((s.variant x' sr').withSources rs1 rs2 k') :=
  runsAlike_withSource (hx rs1 (by simp)) fun a => runsAlike_withSource (hx rs2 (by simp)) fun b => hk a b

theorem runsAlike_withDivision {rs1 rs2 : Reg} {k k' : BigInt → BigInt → State}
    (hx : ∀ r ∈ [rs1, rs2], s.x[r] = x'[r]) (hk : ∀ a b, RunsAlike s (s.variant x' sr') (k a b) (k' a b)) :
    RunsAlike s (s.variant x' sr') (withDivision rs1 rs2 s k) (withDivision rs1 rs2 (s.variant x' sr') k') := by
  refine runsAlike_withSources hx fun a b => ?_
  rw [State.variant_cfg]
  by_cases h : b.ival s.cfg.w = 0
  · rw [if_pos h, if_pos h]
    exact runsAlike_takeFault _
  · rw [if_neg h, if_neg h]
    exact hk a b

theorem runsAlike_withText {addr : Addr} {n : Nat} {k k' : List Byte → State}
    (hk : ∀ bytes, RunsAlike s (s.variant x' sr') (k bytes) (k' bytes)) :
    RunsAlike s (s.variant x' sr') (s.withText addr n k) ((s.variant x' sr').withText addr n k') := by
  rw [State.withText, State.withText, State.variant_bytesFrom, State.variant_inRange]
  by_cases h : s.inRange addr.toNat n = true
  · rw [if_pos h, if_pos h]
    exact hk _
  · rw [if_neg h, if_neg h]
    exact runsAlike_takeFault _

/-- Every command runs alike from two states that agree on its sources and on HALT, and on all of `SR` if it is RDSR. -/
theorem exec_runsAlike {i : Instr} (hsrc : ∀ r ∈ i.sources, s.x[r] = x'[r]) (hhalt : sr'.getLsbD 7 = s.sr.getLsbD 7)
    (hrdsr : i = .rdsr → sr' = s.sr) (h : exec i s = .next t) (h' : exec i (s.variant x' sr') = .next t') :
    RunsAlike s (s.variant x' sr') t t' := by
  have halted {u u'} := runsAlike_unlessHalted (u := u) (u' := u') (t := t) (t' := t') (s := s) (x' := x') hhalt
  cases i with
  | ldi rd imm => exact halted h h' (runsAlike_writeBack _ _ _)
  | mov rd rs1 | abs rd rs1 | neg rd rs1 | inc rd rs1 | dec rd rs1 | not rd rs1 | pow rd rs1 e | shl rd rs1 e
  | shr rd rs1 e =>
    exact halted h h' (runsAlike_withSource (hsrc rs1 (by simp [Instr.sources])) fun v => runsAlike_writeBack _ _ _)
  | drop rd =>
    exact halted h h' ⟨rfl, rfl, ⟨id, rfl, rfl⟩, fun r => getElem_set_alike s.x x' rd r none⟩
  | iszero rs1 | isneg rs1 | size rs1 | clz rs1 =>
    exact halted h h' (runsAlike_withSource (hsrc rs1 (by simp [Instr.sources])) fun v => runsAlike_respond _)
  | ceq rs1 rs2 | cne rs1 rs2 | clt rs1 rs2 | cle rs1 rs2 | cgt rs1 rs2 | cge rs1 rs2 =>
    exact halted h h' (runsAlike_withSources hsrc fun a b => runsAlike_respond _)
  | add rd rs1 rs2 | sub rd rs1 rs2 | mul rd rs1 rs2 | and rd rs1 rs2 | or rd rs1 rs2 | xor rd rs1 rs2 =>
    exact halted h h' (runsAlike_withSources hsrc fun a b => runsAlike_writeBack _ _ _)
  | div rd rs1 rs2 | mod rd rs1 rs2 =>
    exact halted h h' (runsAlike_withDivision hsrc fun a b => runsAlike_writeBack _ _ _)
  | divmod rd rd2 rs1 rs2 =>
    refine halted h h' ?_
    split
    · exact runsAlike_takeFault _
    · exact runsAlike_withDivision hsrc fun a b => runsAlike_writeBack2 _ _ _ _
  | parse rd addr len =>
    refine halted h h' (runsAlike_withText fun bytes => ?_)
    rw [State.variant_cfg]
    cases parseText s.cfg.w bytes with
    | none => exact runsAlike_takeFault _
    | some v => exact runsAlike_writeBack _ _ _
  | parses rd addr len =>
    refine halted h h' (runsAlike_withText fun bytes => ?_)
    rw [State.variant_cfg]
    cases parseText s.cfg.w bytes with
    | none => exact ⟨rfl, rfl, ⟨(· ||| srPfail), rfl, rfl⟩, fun _ => .inr ⟨rfl, rfl⟩⟩
    | some v => exact runsAlike_writeBack _ _ _
  | format rs1 addr =>
    exact halted h h' (runsAlike_withSource (hsrc rs1 (by simp [Instr.sources])) fun v => runsAlike_storeText _ _ _)
  | tbw addr byte => exact halted h h' (runsAlike_storeText _ _ _)
  | tbr addr => exact halted h h' (runsAlike_withText fun bytes => runsAlike_respond _)
  | rdsr =>
    obtain rfl := hrdsr rfl
    cases h
    cases h'
    exact runsAlike_respond _
  | clrsr mask => exact halted h h' ⟨rfl, rfl, ⟨(clearedSr · mask), rfl, rfl⟩, fun _ => .inr ⟨rfl, rfl⟩⟩

end

/-- Settles O19: the two runs go alike, and registers untouched in both are equal because they were. -/
theorem statusBitsDecideNothing : Obligations.StatusBitsDecideNothing := by
  intro s t t' sr' i hrun hhalt hi h h'
  have halike : RunsAlike s (s.variant s.x sr') t t' :=
    exec_runsAlike (fun _ _ => rfl) (hhalt.trans hrun.symm) (fun he => absurd he hi) h h'
  refine ⟨Vector.ext fun k hk => ?_, halike.tbuf, halike.rsp⟩
  rcases halike.x ⟨k, hk⟩ with heq | ⟨hs, hs'⟩
  · exact heq
  · exact hs'.trans hs.symm

/-- Settles O20: the two runs go alike, and `SR` changed in the same way from the same value. -/
theorem unnamedRegistersAreNotRead : Obligations.UnnamedRegistersAreNotRead := by
  intro s t t' x' i hsrc h h'
  have halike : RunsAlike s (s.variant x' s.sr) t t' := exec_runsAlike hsrc rfl (fun _ => rfl) h h'
  obtain ⟨f, hf, hf'⟩ := halike.sr
  exact ⟨halike.rsp, hf'.trans hf.symm, halike.tbuf, halike.x⟩

end Sys2Proof.Machine
end

section
/-! SUPPORT. The state right after reset (spec/10_state.md R34). -/

namespace Sys2Proof.Machine

/-- Settles O9: the fields of `State.reset`; with no byte written, every address reads as the draw. -/
theorem resetStateValues : Obligations.ResetStateValues :=
  ⟨getElem_replicate_reg, rfl, rfl, rfl, fun _ => rfl⟩

/-- Settles O10: the default parameters are legal, and the rest is the invariant after any reset. -/
theorem resetMeetsInvariant : Obligations.ResetMeetsInvariant := by
  obtain ⟨hc, hregs, htbuf, hhalt⟩ := takeReset_inv (s := State.reset) (by decide)
  exact ⟨hc, hregs, htbuf, hhalt⟩

end Sys2Proof.Machine
end

section
/-! SUPPORT. The decoder and the encoder against each other (spec/30_encoding.md R62 to R67): a word and an immediate are
accepted under one opcode exactly where they pass its masks and DIVMOD's check, and then they are the packing of the
fields read. -/

namespace Sys2Proof

/-! ### Opcodes (R66) -/

theorem Op.mem_all (o : Op) : o ∈ Op.all := by cases o <;> decide

/-- No two commands share an opcode byte: each is found again by its own. -/
theorem Op.ofCode_code (o : Op) : Op.ofCode o.code = some o := by cases o <;> rfl

theorem Op.ofCode_eq_some_iff {c : BitVec 8} {o : Op} : Op.ofCode c = some o ↔ o.code = c := by
  refine ⟨fun h => ?_, fun h => h ▸ o.ofCode_code⟩
  simpa using List.find?_some h

theorem Op.code_inj {o p : Op} (h : o.code = p.code) : o = p :=
  Option.some.inj (o.ofCode_code.symm.trans (Op.ofCode_eq_some_iff.2 h.symm))

/-! ### What the word mask fixes (R63, R64) -/

section
variable {word mask : CmdWord} {code : BitVec 8}

/-- Bits that lie wholly under the mask are the same bits of the opcode. -/
theorem extract_of_masked {lo n : Nat} (h : word &&& mask = code.setWidth 32) (hn : lo + n ≤ 32)
    (hmask : mask.extractLsb' lo n = BitVec.allOnes n) : word.extractLsb' lo n = code.extractLsb' lo n := by
  rw [← BitVec.extractLsb'_setWidth_of_le (b := code) hn, ← h, BitVec.extractLsb'_and, hmask, BitVec.and_allOnes]

theorem extract_beyond {w lo n : Nat} (x : BitVec w) (h : w ≤ lo) : x.extractLsb' lo n = 0#n := by
  ext j hj
  simp [BitVec.getLsbD_of_ge x (lo + j) (by omega)]

theorem Format.opcode_of_masked {fmt : Format} (h : word &&& fmt.wordMask = code.setWidth 32) :
    word.extractLsb' 0 8 = code :=
  (extract_of_masked h (by omega) (by cases fmt <;> rfl)).trans (extract_self code)

theorem Format.zero_of_masked {fmt : Format} (h : word &&& fmt.wordMask = code.setWidth 32) :
    word.extractLsb' 24 8 = 0#8 :=
  (extract_of_masked h (by omega) (by cases fmt <;> rfl)).trans (extract_beyond code (by omega))

/-- A register field under the mask is 0: the opcode byte ends below it. -/
theorem regField_eq_zero {lo : Nat} (h : word &&& mask = code.setWidth 32)
    (hlo : 8 ≤ lo ∧ lo + 4 ≤ 32 ∧ mask.extractLsb' lo 4 = 0xF#4) : regField word lo = 0 := by
  obtain ⟨hcode, hword, hmask⟩ := hlo
  rw [regField, extract_of_masked h hword hmask, extract_beyond code hcode]
  rfl

end

/-! ### The fields of a word and of an immediate (R63, R65) -/

@[simp] theorem regBits_regField (word : CmdWord) (lo : Nat) : regBits (regField word lo) = word.extractLsb' lo 4 := rfl

@[simp] theorem toFin_regBits (r : Reg) : (regBits r).toFin = r := rfl

theorem regField_eq_iff (word : CmdWord) (a b : Nat) :
    regField word a = regField word b ↔ word.extractLsb' a 4 = word.extractLsb' b 4 :=
  ⟨congrArg regBits, congrArg BitVec.toFin⟩

/-- The fields of a packed word are the fields it was packed from. -/
theorem fieldsOf_packWord (code : BitVec 8) (f : Fields) : fieldsOf (packWord code f) f.imm = f := by
  simp only [fieldsOf, regField, packWord_rd, packWord_rs1, packWord_rs2, packWord_rd2, toFin_regBits]

/-- A word whose reserved bits are 0 is the packing of its opcode and fields. -/
theorem packWord_fieldsOf {word : CmdWord} (hzero : word.extractLsb' 24 8 = 0#8) (imm : Imm) :
    packWord (word.extractLsb' 0 8) (fieldsOf word imm) = word := by
  simp only [packWord, fieldsOf, regBits_regField, ← hzero]
  rw [BitVec.extractLsb'_append_extractLsb'_eq_extractLsb' (by rfl),
    BitVec.extractLsb'_append_extractLsb'_eq_extractLsb' (by rfl),
    BitVec.extractLsb'_append_extractLsb'_eq_extractLsb' (by rfl),
    BitVec.extractLsb'_append_extractLsb'_eq_extractLsb' (by rfl),
    BitVec.extractLsb'_append_extractLsb'_eq_extractLsb' (by rfl)]
  exact extract_self word

theorem immLen_append_immAddr (imm : Imm) : immLen imm ++ immAddr imm = imm :=
  BitVec.extractLsb'_append_extractLsb' (w := 32) (len := 32)

theorem imm_eq_zero {imm : Imm} (h : imm &&& 0xFFFFFFFFFFFFFFFF#64 = 0#64) : imm = 0#64 :=
  (BitVec.and_allOnes (x := imm)).symm.trans h

/-- Bits of the immediate that lie wholly under its mask are 0. -/
theorem imm_high_eq_zero {imm mask : Imm} {lo n : Nat} (h : imm &&& mask = 0#64)
    (hmask : mask.extractLsb' lo n = BitVec.allOnes n) : imm.extractLsb' lo n = 0#n := by
  rw [← BitVec.and_allOnes (x := imm.extractLsb' lo n), ← hmask, ← BitVec.extractLsb'_and, h, BitVec.extractLsb'_zero]

theorem imm_eq_addr {imm : Imm} (h : imm &&& 0xFFFFFFFF00000000#64 = 0#64) : 0#32 ++ immAddr imm = imm := by
  rw [← imm_high_eq_zero (lo := 32) (n := 32) h rfl]
  exact immLen_append_immAddr imm

theorem imm_eq_byte_addr {imm : Imm} (h : imm &&& 0xFFFFFF0000000000#64 = 0#64) :
    (0#24 ++ immByte imm) ++ immAddr imm = imm := by
  rw [← imm_high_eq_zero (lo := 40) (n := 24) h rfl, immByte,
    BitVec.extractLsb'_append_extractLsb'_eq_extractLsb' (by rfl)]
  exact immLen_append_immAddr imm

theorem imm_eq_low8 {imm : Imm} (h : imm &&& 0xFFFFFFFFFFFFFF00#64 = 0#64) : 0#56 ++ immLow8 imm = imm := by
  rw [← imm_high_eq_zero (lo := 8) (n := 56) h rfl]
  exact BitVec.extractLsb'_append_extractLsb' (w := 56) (len := 8)

/-! ### Commands and their fields -/

@[simp] theorem op_build (o : Op) (f : Fields) : (o.build f).op = o := by cases o <;> rfl

/-- A command is built again from its opcode and fields. -/
theorem build_fields (i : Instr) : i.op.build i.fields = i := by
  cases i with
  | parse rd addr len | parses rd addr len =>
    simp only [Instr.op, Instr.fields, Op.build, immAddr_append, immLen_append]
  | format rs1 addr => simp only [Instr.op, Instr.fields, Op.build, immAddr_append]
  | tbw addr byte => simp only [Instr.op, Instr.fields, Op.build, immAddr_append (0#24 ++ byte), immByte_append]
  | tbr addr => simp only [Instr.op, Instr.fields, Op.build, immAddr_append]
  | clrsr mask => simp only [Instr.op, Instr.fields, Op.build, immLow8_append]
  | _ => rfl

/-- The one check on operands is about DIVMOD's two destinations (R67(e), R73). -/
theorem wellFormed_iff (i : Instr) : i.WellFormed ↔ ¬(i.op = .divmod ∧ i.fields.rd = i.fields.rd2) := by
  cases i with
  | divmod rd rd2 rs1 rs2 => simp [Instr.WellFormed, Instr.wellFormed, Instr.op, Instr.fields]
  | _ => simp [Instr.WellFormed, Instr.wellFormed, Instr.op]

/-- Every encoding is strict: the one lemma of each constructor (R64, R65). -/
theorem encode_strict (i : Instr) : Laws.EncodesStrictly.Statement i := by
  cases i with
  | ldi rd imm => exact Laws.EncodesStrictly.ldi rd imm
  | mov rd rs1 => exact Laws.EncodesStrictly.mov rd rs1
  | drop rd => exact Laws.EncodesStrictly.drop rd
  | abs rd rs1 => exact Laws.EncodesStrictly.abs rd rs1
  | iszero rs1 => exact Laws.EncodesStrictly.iszero rs1
  | isneg rs1 => exact Laws.EncodesStrictly.isneg rs1
  | size rs1 => exact Laws.EncodesStrictly.size rs1
  | clz rs1 => exact Laws.EncodesStrictly.clz rs1
  | ceq rs1 rs2 => exact Laws.EncodesStrictly.ceq rs1 rs2
  | cne rs1 rs2 => exact Laws.EncodesStrictly.cne rs1 rs2
  | clt rs1 rs2 => exact Laws.EncodesStrictly.clt rs1 rs2
  | cle rs1 rs2 => exact Laws.EncodesStrictly.cle rs1 rs2
  | cgt rs1 rs2 => exact Laws.EncodesStrictly.cgt rs1 rs2
  | cge rs1 rs2 => exact Laws.EncodesStrictly.cge rs1 rs2
  | add rd rs1 rs2 => exact Laws.EncodesStrictly.add rd rs1 rs2
  | sub rd rs1 rs2 => exact Laws.EncodesStrictly.sub rd rs1 rs2
  | neg rd rs1 => exact Laws.EncodesStrictly.neg rd rs1
  | inc rd rs1 => exact Laws.EncodesStrictly.inc rd rs1
  | dec rd rs1 => exact Laws.EncodesStrictly.dec rd rs1
  | mul rd rs1 rs2 => exact Laws.EncodesStrictly.mul rd rs1 rs2
  | pow rd rs1 e => exact Laws.EncodesStrictly.pow rd rs1 e
  | divmod rd rd2 rs1 rs2 => exact Laws.EncodesStrictly.divmod rd rd2 rs1 rs2
  | div rd rs1 rs2 => exact Laws.EncodesStrictly.div rd rs1 rs2
  | mod rd rs1 rs2 => exact Laws.EncodesStrictly.mod rd rs1 rs2
  | shl rd rs1 s => exact Laws.EncodesStrictly.shl rd rs1 s
  | shr rd rs1 s => exact Laws.EncodesStrictly.shr rd rs1 s
  | and rd rs1 rs2 => exact Laws.EncodesStrictly.and rd rs1 rs2
  | or rd rs1 rs2 => exact Laws.EncodesStrictly.or rd rs1 rs2
  | xor rd rs1 rs2 => exact Laws.EncodesStrictly.xor rd rs1 rs2
  | not rd rs1 => exact Laws.EncodesStrictly.not rd rs1
  | parse rd addr len => exact Laws.EncodesStrictly.parse rd addr len
  | parses rd addr len => exact Laws.EncodesStrictly.parses rd addr len
  | format rs1 addr => exact Laws.EncodesStrictly.format rs1 addr
  | tbw addr byte => exact Laws.EncodesStrictly.tbw addr byte
  | tbr addr => exact Laws.EncodesStrictly.tbr addr
  | rdsr => exact Laws.EncodesStrictly.rdsr
  | clrsr mask => exact Laws.EncodesStrictly.clrsr mask

/-! ### What the decoder accepts (R67) -/

/-- The 96 bits pass the checks of the command with this opcode: clauses (a) to (e) of R67, the first three by one
comparison under the word mask. -/
def Op.Accepts (o : Op) (word : CmdWord) (imm : Imm) : Prop :=
  word &&& o.fmt.wordMask = o.code.setWidth 32 ∧ imm &&& o.immMask = 0#64 ∧
    ¬(o = .divmod ∧ regField word 8 = regField word 20)

section
variable {word : CmdWord} {imm : Imm} {o : Op} {i : Instr}

theorem Op.Accepts.ofCode_eq (h : o.Accepts word imm) : Op.ofCode (word.extractLsb' 0 8) = some o :=
  Op.ofCode_eq_some_iff.2 (Format.opcode_of_masked h.1).symm

theorem decode_of_accepts (h : o.Accepts word imm) : decode word imm = .ok (o.build (fieldsOf word imm)) := by
  obtain ⟨hword, himm, hdest⟩ := h
  simp only [decode, Op.Accepts.ofCode_eq ⟨hword, himm, hdest⟩]
  rw [if_neg (not_not.2 (Format.zero_of_masked hword)), if_neg (not_not.2 hword), if_neg (not_not.2 himm), if_neg hdest]

/-- The decoder answers the command that an accepting opcode and the fields name, and nothing else. -/
theorem decode_eq_ok_iff :
    decode word imm = .ok i ↔ ∃ o : Op, o.Accepts word imm ∧ o.build (fieldsOf word imm) = i := by
  refine ⟨fun h => ?_, fun ⟨o, ho, hi⟩ => hi ▸ decode_of_accepts ho⟩
  rw [decode] at h
  split at h
  · cases h
  · rename_i o _
    split_ifs at h with _ hword himm hdest
    exact ⟨o, ⟨not_not.1 hword, not_not.1 himm, hdest⟩, Except.ok.inj h⟩

/-- An encoding of a well-formed command is accepted under its own opcode. -/
theorem accepts_encode (h : i.WellFormed) : i.op.Accepts (encode i).1 (encode i).2 := by
  obtain ⟨hword, himm⟩ := encode_strict i
  refine ⟨hword, himm, ?_⟩
  simp only [encode, regField, packWord_rd, packWord_rd2, toFin_regBits]
  exact (wellFormed_iff i).1 h

theorem decode_encode (h : i.WellFormed) : decode (encode i).1 (encode i).2 = .ok i := by
  rw [decode_of_accepts (accepts_encode h), encode, fieldsOf_packWord, build_fields]

/-- In accepted bits every field the command does not name is 0, so its fields are the ones read. -/
theorem Op.Accepts.fields_build (h : o.Accepts word imm) :
    (o.build (fieldsOf word imm)).fields = fieldsOf word imm := by
  obtain ⟨hword, himm, -⟩ := h
  have zero (lo) (hlo : 8 ≤ lo ∧ lo + 4 ≤ 32 ∧ o.fmt.wordMask.extractLsb' lo 4 = 0xF#4) : regField word lo = 0 :=
    regField_eq_zero hword hlo
  cases o with
  | ldi =>
    simp only [Op.build, Instr.fields, fieldsOf, zero 12 (by decide), zero 16 (by decide),
      zero 20 (by decide)]
  | mov | abs | neg | inc | dec | not =>
    simp only [Op.build, Instr.fields, fieldsOf, zero 16 (by decide), zero 20 (by decide), imm_eq_zero himm]
  | drop =>
    simp only [Op.build, Instr.fields, fieldsOf, zero 12 (by decide), zero 16 (by decide),
      zero 20 (by decide), imm_eq_zero himm]
  | iszero | isneg | size | clz =>
    simp only [Op.build, Instr.fields, fieldsOf, zero 8 (by decide), zero 16 (by decide),
      zero 20 (by decide), imm_eq_zero himm]
  | ceq | cne | clt | cle | cgt | cge =>
    simp only [Op.build, Instr.fields, fieldsOf, zero 8 (by decide), zero 20 (by decide), imm_eq_zero himm]
  | add | sub | mul | div | mod | and | or | xor =>
    simp only [Op.build, Instr.fields, fieldsOf, zero 20 (by decide), imm_eq_zero himm]
  | pow | shl | shr =>
    simp only [Op.build, Instr.fields, fieldsOf, zero 16 (by decide), zero 20 (by decide)]
  | divmod => simp only [Op.build, Instr.fields, fieldsOf, imm_eq_zero himm]
  | parse | parses =>
    simp only [Op.build, Instr.fields, fieldsOf, zero 12 (by decide), zero 16 (by decide),
      zero 20 (by decide), immLen_append_immAddr]
  | format =>
    simp only [Op.build, Instr.fields, fieldsOf, zero 8 (by decide), zero 16 (by decide),
      zero 20 (by decide), imm_eq_addr himm]
  | tbw =>
    simp only [Op.build, Instr.fields, fieldsOf, zero 8 (by decide), zero 12 (by decide),
      zero 16 (by decide), zero 20 (by decide), imm_eq_byte_addr himm]
  | tbr =>
    simp only [Op.build, Instr.fields, fieldsOf, zero 8 (by decide), zero 12 (by decide),
      zero 16 (by decide), zero 20 (by decide), imm_eq_addr himm]
  | rdsr =>
    simp only [Op.build, Instr.fields, fieldsOf, zero 8 (by decide), zero 12 (by decide),
      zero 16 (by decide), zero 20 (by decide), imm_eq_zero himm]
  | clrsr =>
    simp only [Op.build, Instr.fields, fieldsOf, zero 8 (by decide), zero 12 (by decide),
      zero 16 (by decide), zero 20 (by decide), imm_eq_low8 himm]

theorem Op.Accepts.encode_build (h : o.Accepts word imm) : encode (o.build (fieldsOf word imm)) = (word, imm) := by
  rw [encode, h.fields_build, op_build, ← Format.opcode_of_masked h.1,
    packWord_fieldsOf (Format.zero_of_masked h.1)]
  rfl

theorem Op.Accepts.wellFormed_build (h : o.Accepts word imm) : (o.build (fieldsOf word imm)).WellFormed := by
  rw [wellFormed_iff, h.fields_build, op_build]
  exact h.2.2

end

/-- Settles O1: the encoding is accepted under the command's own opcode, and its fields and opcode build the command
again. -/
theorem decodeEncodeRoundTrip : Obligations.DecodeEncodeRoundTrip := fun _ h => decode_encode h

/-- Settles O2: accepted bits are the packing of the fields read, and the fields not named are 0. -/
theorem decodeAcceptsOnlyEncodings : Obligations.DecodeAcceptsOnlyEncodings := by
  intro word imm i h
  obtain ⟨o, ho, rfl⟩ := decode_eq_ok_iff.1 h
  exact ⟨ho.wellFormed_build, ho.encode_build⟩

/-- Settles O4: each sample word and immediate is the encoding of the command it stands for. -/
theorem sampleWordsDecode : Obligations.SampleWordsDecode :=
  ⟨decode_encode (i := .ldi 1 0xFFFFFFFFFFFFFFFB#64) rfl, decode_encode (i := .add 3 1 2) rfl,
    decode_encode (i := .mul 3 1 2) rfl, decode_encode (i := .divmod 4 5 1 2) rfl,
    decode_encode (i := .shl 2 1 7#64) rfl, decode_encode (i := .parse 1 0x100#32 30#32) rfl,
    decode_encode (i := .tbw 0x100#32 0x2D#8) rfl, decode_encode (i := .clrsr 0x7B#8) rfl, rfl⟩

end Sys2Proof
end

section
/-! SUPPORT. Every command, whatever its bits, is answered in one step (spec/30_encoding.md R61, R70). -/

namespace Sys2Proof.Machine

/-- `t` is `s` after one response: it holds a response with one of the eight codes, and parameters, queue and reset count
are those of `s` (R70). -/
structure Answered (s t : State) : Prop where
  rsp : ∃ status d, t.rsp = some ⟨status, d⟩ ∧ status.toNat ≤ 7
  input : t.input = s.input
  cfg : t.cfg = s.cfg
  resets : t.resets = s.resets

theorem CmdFault.status_le (f : CmdFault) : f.status.toNat ≤ 7 := by
  cases f <;> simp [CmdFault.status]

/-- Every kind of effect leaves a response. -/
theorem Effect.isAnswered {i : Instr} {s t : State} (h : Effect i s t) : Answered s t := by
  refine ⟨?_, h.input_eq, h.cfg_eq, h.resets_eq⟩
  cases h with
  | halted | illegal | uninit | range | divz | fmt => exact ⟨_, _, rfl, by decide⟩
  | alloc => exact ⟨_, _, rfl, CmdFault.status_le _⟩
  | answered | wrote | wrote2 | dropped | pfail | byteStored | textStored | cleared =>
    exact ⟨_, _, rfl, by decide⟩

/-- A refused command takes ILLCMD (R275). -/
theorem illegalCommand_running {s : State} (hs : s.Running) (word : CmdWord) :
    illegalCommand word s = .next (s.faulted 0x08#8 0x04#8 (word.setWidth 64)) := by
  rw [illegalCommand, State.unlessHalted_running hs, s.takeFault_eq_faulted (.illcmd word) rfl]
  rfl

theorem illegalCommand_answered (word : CmdWord) (s : State) :
    ∃ t, illegalCommand word s = .next t ∧ Answered s t := by
  rcases s.unlessHalted_cases (s.takeFault (.illcmd word)) with ⟨he, -⟩ | ⟨he, -⟩
  · exact ⟨_, he, ⟨_, _, rfl, CmdFault.status_le _⟩, rfl, rfl, rfl⟩
  · exact ⟨_, he, ⟨_, _, rfl, by decide⟩, rfl, rfl, rfl⟩

/-- A command that decodes is answered by its effect, one that does not by the refusal. -/
theorem runCommand_answered (word : CmdWord) (imm : Imm) (s : State) :
    ∃ t, runCommand word imm s = .next t ∧ Answered s t := by
  cases hd : decode word imm with
  | error e =>
    rw [runCommand_of_decode_error hd]
    exact illegalCommand_answered word s
  | ok i =>
    rw [runCommand_of_decode_ok hd]
    obtain ⟨t, ht, heffect⟩ := exec_effect i s
    exact ⟨t, ht, heffect.isAnswered⟩

/-- Settles O12: the step takes the offered command and runs it, and running a command always answers. -/
theorem everyCommandIsAnswered : Obligations.EveryCommandIsAnswered := by
  intro s word imm rest hinput
  obtain ⟨t, ht, ⟨status, d, hrsp, hstatus⟩, hin, hcfg, hresets⟩ := runCommand_answered word imm { s with input := rest }
  exact ⟨t, _, by rw [step_of_input_cons hinput, runEvent_command, ht], hrsp, hstatus, hin, hcfg, hresets⟩

end Sys2Proof.Machine
end

section
/-! SUPPORT. The opcode table written out against the decoder's own maps (spec/30_encoding.md R66, R67): each row is the
row of one opcode, and the bits that match it are those the decoder accepts under that opcode. -/

namespace Sys2Proof.Claims

open Sys2Proof.Machine

/-- The row an opcode's own maps give (R64 to R66). -/
def opRow (o : Op) : Row := ⟨o.code, o.fmt.wordMask, o.immMask, o.mnemonic⟩

theorem opcodeTable_eq_map : opcodeTable = Op.all.map opRow := rfl

theorem exists_opRow_of_mem {r : Row} (h : r ∈ opcodeTable) : ∃ o, opRow o = r := by
  rw [opcodeTable_eq_map] at h
  obtain ⟨o, -, ho⟩ := List.mem_map.1 h
  exact ⟨o, ho⟩

theorem opRow_mem (o : Op) : opRow o ∈ opcodeTable := by
  rw [opcodeTable_eq_map]
  exact List.mem_map_of_mem o.mem_all

section
variable {o p : Op} {word : CmdWord} {imm : Imm}

theorem opRow_matches_iff : (opRow o).Matches word imm ↔ o.Accepts word imm := by
  have hdivmod : o.code = 0x30#8 ↔ o = .divmod := ⟨fun h => Op.code_inj (p := .divmod) h, fun h => h ▸ rfl⟩
  simp only [Row.Matches, opRow, Op.Accepts, hdivmod, regField_eq_iff]

/-- Bits are accepted under one opcode at most: the one their low byte names. -/
theorem accepts_unique (ho : o.Accepts word imm) (hp : p.Accepts word imm) : o = p :=
  Option.some.inj (ho.ofCode_eq.symm.trans hp.ofCode_eq)

theorem exists_decode_error (h : ∀ o : Op, ¬o.Accepts word imm) : ∃ e, decode word imm = .error e := by
  cases hd : decode word imm with
  | error e => exact ⟨e, rfl⟩
  | ok i =>
    obtain ⟨o, ho, -⟩ := decode_eq_ok_iff.1 hd
    exact absurd ho (h o)

end

/-- Settles O3: rows are opcodes and matching a row is being accepted under its opcode, so the decoder's own equivalence
gives all three clauses. -/
theorem decodeIsStrictAndTotal : Obligations.DecodeIsStrictAndTotal := by
  refine fun word imm => ⟨fun r hr hmatch => ?_, fun r hr q hq hmr hmq => ?_, fun hnone => ?_⟩
  · obtain ⟨o, rfl⟩ := exists_opRow_of_mem hr
    exact ⟨_, decode_of_accepts (opRow_matches_iff.1 hmatch), congrArg Op.mnemonic (op_build o _)⟩
  · obtain ⟨o, rfl⟩ := exists_opRow_of_mem hr
    obtain ⟨p, rfl⟩ := exists_opRow_of_mem hq
    rw [accepts_unique (opRow_matches_iff.1 hmr) (opRow_matches_iff.1 hmq)]
  · obtain ⟨e, he⟩ := exists_decode_error fun o ho => hnone (opRow o) (opRow_mem o) (opRow_matches_iff.2 ho)
    exact ⟨⟨e, he⟩, fun s hs => (runCommand_of_decode_error he s).trans (illegalCommand_running hs word)⟩

end Sys2Proof.Claims
end

section
/-! SUPPORT. The port model reaches what the command level leaves, whatever the latency (spec/30_encoding.md R61,
spec/70_reset_and_hazards.md R309). -/

namespace Sys2Proof.Machine

theorem runCommand_eq_afterCommand (word : CmdWord) (imm : Imm) (s : State) :
    runCommand word imm s = .next (s.afterCommand word imm) := by
  obtain ⟨t, ht, -⟩ := runCommand_answered word imm s
  simp only [State.afterCommand, ht]

section
variable {b : Block}

theorem Block.outputs_idle (h : b.phase = .idle) : b.outputs false = ⟨true, false, none⟩ := by
  simp only [Block.outputs, h]

theorem Block.outputs_responding (h : b.phase = .responding) : b.outputs false = ⟨false, true, b.core.rsp⟩ := by
  simp only [Block.outputs, h]

/-- While a command is executed CORE is not ready, and its response is valid once no cycle is left (R61). -/
theorem Block.outputs_computing (b : Block) (word : CmdWord) (imm : Imm) (n : Nat) :
    ((b.computing word imm n).outputs false).cmdReady = false ∧
      (((b.computing word imm n).outputs false).rspValid = true ↔ n = 0) := by
  cases n with
  | zero => simp [Block.outputs]
  | succ n => simp [Block.outputs]

/-- A response not taken is held (R61). -/
theorem Block.clockEdge_hold {i : PortIn} (hp : b.phase = .responding) (hr : i.rst = false)
    (hready : i.rspReady = false) : b.clockEdge i = b := by
  simp [Block.clockEdge, hr, hp, hready]

theorem Block.clockEdges_hold {is : List PortIn} (hp : b.phase = .responding)
    (h : ∀ j ∈ is, j.rst = false ∧ j.rspReady = false) : b.clockEdges is = b := by
  induction is with
  | nil => rfl
  | cons j is ih =>
    obtain ⟨⟨hr, hready⟩, h⟩ := List.forall_mem_cons.1 h
    rw [Block.clockEdges, Block.clockEdge_hold hp hr hready, ih h]

/-- A response taken leaves CORE idle (R61). -/
theorem Block.clockEdge_taken {i : PortIn} (hp : b.phase = .responding) (hr : i.rst = false)
    (hready : i.rspReady = true) : b.clockEdge i = { b with phase := .idle } := by
  simp [Block.clockEdge, hr, hp, hready]

/-- Some cycles after acceptance the command still has the rest of its latency before it. -/
theorem Block.clockEdges_accepted {i : PortIn} {is : List PortIn} {n : Nat} (hp : b.phase = .idle)
    (hr : i.rst = false) (hv : i.cmdValid = true) (his : ∀ j ∈ is, j.rst = false)
    (hn : Config.freeLatency b.accepted b.core i.cmdWord i.cmdImm = n + is.length) :
    (b.clockEdge i).clockEdges is =
      ({ b with accepted := b.accepted + 1 } : Block).computing i.cmdWord i.cmdImm n := by
  rw [Block.clockEdge_accept b hr hp hv, hn]
  exact Block.clockEdges_computing _ _ _ his n

end

/-- Settles O60: after acceptance the block counts down its latency, at its end stands where the command level does, and
holds the response until it is taken. -/
theorem handshakeRefinesCommandLevel : Obligations.HandshakeRefinesCommandLevel := by
  refine fun b => ⟨fun i is hp hr hv his => ⟨?_, runCommand_eq_afterCommand _ _ _, fun hle => ?_, fun heq => ?_⟩,
    fun hp => ⟨?_, ?_, ?_, fun is his => Block.clockEdges_hold hp his, fun i hr hready => ?_⟩⟩
  · rw [Block.outputs_idle hp]
  · obtain ⟨n, hn⟩ := Nat.exists_eq_add_of_le' hle
    obtain ⟨hready, hvalid⟩ := Block.outputs_computing { b with accepted := b.accepted + 1 } i.cmdWord i.cmdImm n
    rw [Block.clockEdges_accepted hp hr hv his hn]
    exact ⟨hready, hvalid.trans (by omega)⟩
  · rw [Block.clockEdges_accepted hp hr hv his (n := 0) (by omega), Block.computing_zero]
  · rw [Block.outputs_responding hp]
  · rw [Block.outputs_responding hp]
  · rw [Block.outputs_responding hp]
  · rw [Block.clockEdge_taken hp hr hready]
    exact ⟨rfl, rfl, rfl⟩

end Sys2Proof.Machine
end

section
/-! SUPPORT. The shapes of commands, said once (spec/30_encoding.md R66, spec/60_exceptions.md R274, R276): the opcode and
format of an encoding, a command that reads one or two sources and goes on, and a register write that fits or not. -/

namespace Sys2Proof.Machine

open Sys2Proof.Claims

/-- The encoder's word carries the opcode of the command, and its format is the opcode's (R64, R66). -/
theorem encodedAs_op (i : Instr) : EncodedAs i i.op.code i.op.fmt := ⟨packWord_opcode _ _, rfl⟩

/-- Behind the halted test the command reads `rs1` and goes on with its value as `k` says. -/
def TakesOne (i : Instr) (rs1 : Reg) (k : State → BigInt → State) : Prop :=
  ∀ s : State, exec i s = s.unlessHalted (s.withSource rs1 (k s))

/-- Behind the halted test the command reads `rs1`, then `rs2`, and goes on with their values as `k` says. -/
def TakesTwo (i : Instr) (rs1 rs2 : Reg) (k : State → BigInt → BigInt → State) : Prop :=
  ∀ s : State, exec i s = s.unlessHalted (s.withSources rs1 rs2 (k s))

section
variable {i : Instr} {rs1 rs2 : Reg} {s : State}

theorem TakesOne.readsOne {k : State → BigInt → State} (h : TakesOne i rs1 k) : ReadsOne i rs1 := fun s hs he => by
  rw [h s, State.unlessHalted_running hs, State.withSource_empty he]

theorem TakesOne.exec_eq {k : State → BigInt → State} (h : TakesOne i rs1 k) (hs : s.Running) {v : BigInt}
    (hv : s.Holds rs1 v) : exec i s = .next (k s v) := by
  rw [h s, State.unlessHalted_running hs, State.withSource_holds hv]

theorem TakesTwo.readsTwo {k : State → BigInt → BigInt → State} (h : TakesTwo i rs1 rs2 k) : ReadsTwo i rs1 rs2 := by
  refine fun s hs => ⟨fun he => ?_, fun a ha he => ?_⟩
  · rw [h s, State.unlessHalted_running hs, State.withSources, State.withSource_empty he]
  · rw [h s, State.unlessHalted_running hs, State.withSources, State.withSource_holds ha, State.withSource_empty he]

theorem TakesTwo.exec_eq {k : State → BigInt → BigInt → State} (h : TakesTwo i rs1 rs2 k) (hs : s.Running)
    {a b : BigInt} (ha : s.Holds rs1 a) (hb : s.Holds rs2 b) : exec i s = .next (k s a b) := by
  rw [h s, State.unlessHalted_running hs, State.withSources, State.withSource_holds ha, State.withSource_holds hb]

end

theorem State.writeBack_of_fits {s : State} {v : BigInt} (h : fits s.cfg v.mag = true) (rd : Reg) (d : BitVec 64) :
    s.writeBack rd v d = s.wrote rd v d := by
  rw [State.writeBack, if_pos h]
  rfl

theorem State.writeBack_of_not_fits {s : State} {v : BigInt} (h : fits s.cfg v.mag = false) (rd : Reg)
    (d : BitVec 64) : s.writeBack rd v d = s.exhausted rd (s.freeDest rd) := by
  rw [State.writeBack, if_neg (by simp [h]), s.takeFault_alloc_one]

/-- A command that ends in writing back `mk(z)` writes it, or takes ALLOC (R12, R274). -/
theorem writes_of_exec_writeBack {i : Instr} {s : State} {rd : Reg} {z : Int} {d : BitVec 64}
    (h : exec i s = .next (s.writeBack rd (mkInt s.cfg.w z) d)) : Writes i s rd z d :=
  ⟨fun hf => by rw [h, State.writeBack_of_fits hf], fun hf => ⟨_, by rw [h, State.writeBack_of_not_fits hf]⟩⟩

end Sys2Proof.Machine
end

section
/-! SUPPORT. Family 0, the limb store (spec/40_limb_store.md R104 to R118): loads, copies, queries and comparisons. -/

namespace Sys2Proof.Machine

open Sys2Proof.Claims

/-! ### Loads and copies (R104 to R107) -/

/-- Settles O25: behind the halted test LDI writes back `mk` of the signed immediate. -/
theorem ldiLoadsSignedImmediate : Obligations.LdiLoadsSignedImmediate := fun rd imm =>
  ⟨encodedAs_op (.ldi rd imm), fun _ hs => writes_of_exec_writeBack (State.unlessHalted_running hs _)⟩

/-- Settles O27: DROP reads no source, so the halted test is all that stands before it. -/
theorem dropEmptiesRegister : Obligations.DropEmptiesRegister := fun rd =>
  ⟨encodedAs_op (.drop rd), fun _ hs => State.unlessHalted_running hs _⟩

theorem takesOne_mov (rd rs1 : Reg) : TakesOne (.mov rd rs1) rs1 fun s v => s.writeBack rd v 0#64 := fun _ => rfl

theorem takesOne_abs (rd rs1 : Reg) :
    TakesOne (.abs rd rs1) rs1 fun s v => s.writeBack rd ⟨v.mag, false⟩ 0#64 := fun _ => rfl

/-- The magnitude of a normalised value with the sign cleared is `mk` of the absolute value (R107). -/
theorem BigInt.Normal.clear_sign_eq_mkInt {w : Nat} (hw : 1 ≤ w) {v : BigInt} (h : v.Normal w) :
    (⟨v.mag, false⟩ : BigInt) = mkInt w |v.ival w| := by
  have hnormal : (⟨v.mag, false⟩ : BigInt).Normal w := ⟨h.1, fun _ => rfl⟩
  have hival : (⟨v.mag, false⟩ : BigInt).ival w = |v.ival w| := by
    rw [← Int.natCast_natAbs, natAbs_ival]
    rfl
  rw [← hival]
  exact hnormal.eq_mkInt hw

/-- Settles O26: both write back what fits already, and clearing the sign gives `mk` of the absolute value. -/
theorem movAndAbsCopy : Obligations.MovAndAbsCopy := by
  refine fun rd rs1 => ⟨encodedAs_op (.mov rd rs1), (takesOne_mov rd rs1).readsOne, encodedAs_op (.abs rd rs1),
    (takesOne_abs rd rs1).readsOne, fun s v ⟨hc, hregs, _⟩ hs hv => ?_⟩
  obtain ⟨hnormal, hfits⟩ := hregs rs1 v hv
  have habs : exec (.abs rd rs1) s = .next (s.wrote rd ⟨v.mag, false⟩ 0#64) := by
    rw [(takesOne_abs rd rs1).exec_eq hs hv, State.writeBack_of_fits (v := ⟨v.mag, false⟩) hfits]
  refine ⟨?_, habs, ?_⟩
  · rw [(takesOne_mov rd rs1).exec_eq hs hv, State.writeBack_of_fits hfits]
  · rw [WritesAlways, habs, hnormal.clear_sign_eq_mkInt (limbWidth_pos hc)]

/-! ### Queries (R108 to R111) -/

theorem takesOne_iszero (rs1 : Reg) :
    TakesOne (.iszero rs1) rs1 fun s v => s.respond (truth (decide (v.mag = [0]))) := fun _ => rfl

theorem takesOne_isneg (rs1 : Reg) : TakesOne (.isneg rs1) rs1 fun s v => s.respond (truth v.neg) := fun _ => rfl

theorem takesOne_size (rs1 : Reg) : TakesOne (.size rs1) rs1 fun s v => s.respond (count v.mag.length) :=
  fun _ => rfl

theorem takesOne_clz (rs1 : Reg) :
    TakesOne (.clz rs1) rs1 fun s v => s.respond (count (clzLimb s.cfg.w (top v.mag))) := fun _ => rfl

theorem truth_decide (p : Prop) [Decidable p] : truth (decide p) = if p then 1#64 else 0#64 := by
  simp [truth]

theorem BigInt.Normal.mag_eq_zero_iff {w : Nat} {v : BigInt} (h : v.Normal w) : v.mag = [0] ↔ v.ival w = 0 := by
  rw [← h.1.val_eq_zero_iff, ← natAbs_ival, Int.natAbs_eq_zero]

theorem NormalMag.top_lt {w : Nat} {m : List Nat} (h : NormalMag w m) : top m < 2 ^ w := by
  rw [top, List.getLastD_eq_getLast?, List.getLast?_eq_getLast_of_ne_nil h.2.1]
  exact h.1 _ (List.getLast_mem h.2.1)

/-- `clz_limb(l)` by the bits of the limb: none of the highest `n` is 1, and the next is (R11, R111). -/
theorem clzLimb_bits {w l : Nat} (h : l < 2 ^ w) :
    clzLimb w l ≤ w ∧ (clzLimb w l < w → l.testBit (w - 1 - clzLimb w l) = true) ∧
      ∀ j, j < clzLimb w l → l.testBit (w - 1 - j) = false := by
  by_cases hl : l = 0
  · simp [clzLimb, hl]
  · have hlog : l.log2 < w := (Nat.log2_lt hl).2 h
    rw [clzLimb, if_neg hl]
    refine ⟨by omega, fun _ => ?_, fun j hj => ?_⟩
    · rw [show w - 1 - (w - 1 - l.log2) = l.log2 by omega]
      exact Nat.testBit_log2 hl
    · exact Nat.testBit_lt_two_pow ((Nat.log2_lt hl).1 (by omega))

/-- Settles O28: a normalised value is zero exactly where its magnitude is `[0]` and negative exactly where its sign says
so; the count of CLZ by the bits of the top limb. -/
theorem queriesAnswer : Obligations.QueriesAnswer := by
  refine fun rs1 => ⟨encodedAs_op (.iszero rs1), encodedAs_op (.isneg rs1), encodedAs_op (.size rs1),
    encodedAs_op (.clz rs1), (takesOne_iszero rs1).readsOne, (takesOne_isneg rs1).readsOne,
    (takesOne_size rs1).readsOne, (takesOne_clz rs1).readsOne, fun s v ⟨_, hregs, _⟩ hs hv => ?_⟩
  obtain ⟨hnormal, -⟩ := hregs rs1 v hv
  refine ⟨?_, ?_, (takesOne_size rs1).exec_eq hs hv, _, (takesOne_clz rs1).exec_eq hs hv, clzLimb_bits hnormal.1.top_lt⟩
  · rw [(takesOne_iszero rs1).exec_eq hs hv, truth_decide, State.respond_eq_answered]
    simp only [hnormal.mag_eq_zero_iff]
  · rw [(takesOne_isneg rs1).exec_eq hs hv, hnormal.neg_eq, truth_decide, State.respond_eq_answered]

/-! ### Comparisons (R112 to R118) -/

/-- A command that responds `test` of the order `cmp` finds compares integers, if `test` of their order is the relation. -/
theorem compares_of_takesTwo {cmd : Reg → Reg → Instr} {relation : Int → Int → Bool} {code : BitVec 8}
    (test : Ordering → Bool)
    (h : ∀ rs1 rs2, EncodedAs (cmd rs1 rs2) code .s2 ∧
      TakesTwo (cmd rs1 rs2) rs1 rs2 fun s a b => s.respond (truth (test (cmpInt a b))))
    (htest : ∀ a b : Int, test (compare a b) = true ↔ relation a b = true) : Compares cmd code relation := by
  intro rs1 rs2
  obtain ⟨henc, htakes⟩ := h rs1 rs2
  refine ⟨henc, htakes.readsTwo, fun s a b ⟨hc, hregs, _⟩ hs ha hb => ?_⟩
  obtain ⟨hna, -⟩ := hregs rs1 a ha
  obtain ⟨hnb, -⟩ := hregs rs2 b hb
  rw [htakes.exec_eq hs ha hb, cmpInt_eq (limbWidth_pos hc) hna hnb, Bool.eq_iff_iff.2 (htest _ _),
    State.respond_eq_answered, truth]

/-- Settles O29: each command tests the order of the integers for the outcomes its relation allows. -/
theorem comparisonsAreIntegerOrder : Obligations.ComparisonsAreIntegerOrder :=
  ⟨compares_of_takesTwo (· == .eq) (fun _ _ => ⟨encodedAs_op _, fun _ => rfl⟩) fun a b => by simp,
    compares_of_takesTwo (· != .eq) (fun _ _ => ⟨encodedAs_op _, fun _ => rfl⟩) fun a b => by simp,
    compares_of_takesTwo (· == .lt) (fun _ _ => ⟨encodedAs_op _, fun _ => rfl⟩) fun a b => by
      simp [compare_lt_iff_lt],
    compares_of_takesTwo (· != .gt) (fun _ _ => ⟨encodedAs_op _, fun _ => rfl⟩) fun a b => by
      simp [compare_le_iff_le],
    compares_of_takesTwo (· == .gt) (fun _ _ => ⟨encodedAs_op _, fun _ => rfl⟩) fun a b => by
      simp [compare_gt_iff_gt],
    compares_of_takesTwo (· != .lt) (fun _ _ => ⟨encodedAs_op _, fun _ => rfl⟩) fun a b => by
      simp [compare_ge_iff_ge]⟩

end Sys2Proof.Machine
end

section
/-! SUPPORT. Family 1, the additive commands (spec/41_additive.md R144 to R148): each writes back `mk` of the integer
its rule names. -/

namespace Sys2Proof.Machine

open Sys2Proof.Claims

/-! ### Commands that write back an integer of their operands -/

/-- A command that writes back `mk(z)` of a length that fits cannot end with ALLOC (R274). -/
theorem writesAlways_of_exec_writeBack {i : Instr} {s : State} {rd : Reg} {z : Int}
    (h : exec i s = .next (s.writeBack rd (mkInt s.cfg.w z) 0#64)) (hf : fits s.cfg (mkInt s.cfg.w z).mag = true) :
    WritesAlways i s rd z :=
  (writes_of_exec_writeBack h).1 hf

/-- A command of format R3 that writes back an operation on values, exact on normalised ones, is the rule's integer
function. -/
theorem binaryGrowing_of_takesTwo {cmd : Reg → Reg → Reg → Instr} {code : BitVec 8} {f : Int → Int → Int}
    (op : Config → BigInt → BigInt → BigInt)
    (h : ∀ rd rs1 rs2, EncodedAs (cmd rd rs1 rs2) code .r3 ∧
      TakesTwo (cmd rd rs1 rs2) rs1 rs2 fun s a b => s.writeBack rd (op s.cfg a b) 0#64)
    (hop : ∀ {c : Config} {a b : BigInt}, c.Legal → a.Normal c.w → b.Normal c.w →
      op c a b = mkInt c.w (f (a.ival c.w) (b.ival c.w))) : BinaryGrowing cmd code f := by
  intro rd rs1 rs2
  obtain ⟨henc, htakes⟩ := h rd rs1 rs2
  refine ⟨henc, htakes.readsTwo, fun s a b ⟨hc, hregs, _⟩ hs ha hb => writes_of_exec_writeBack ?_⟩
  obtain ⟨hna, -⟩ := hregs rs1 a ha
  obtain ⟨hnb, -⟩ := hregs rs2 b hb
  rw [htakes.exec_eq hs ha hb, hop hc hna hnb]

/-- A command of format R2 that writes back an operation on the value, exact on normalised ones, is the rule's integer
function. -/
theorem unaryGrowing_of_takesOne {cmd : Reg → Reg → Instr} {code : BitVec 8} {f : Int → Int}
    (op : Config → BigInt → BigInt)
    (h : ∀ rd rs1, EncodedAs (cmd rd rs1) code .r2 ∧
      TakesOne (cmd rd rs1) rs1 fun s v => s.writeBack rd (op s.cfg v) 0#64)
    (hop : ∀ {c : Config} {v : BigInt}, c.Legal → v.Normal c.w → op c v = mkInt c.w (f (v.ival c.w))) :
    UnaryGrowing cmd code f := by
  intro rd rs1
  obtain ⟨henc, htakes⟩ := h rd rs1
  refine ⟨henc, htakes.readsOne, fun s v ⟨hc, hregs, _⟩ hs hv => writes_of_exec_writeBack ?_⟩
  obtain ⟨hnormal, -⟩ := hregs rs1 v hv
  rw [htakes.exec_eq hs hv, hop hc hnormal]

/-! ### ADD and SUB (R144, R145) -/

/-- Settles O30: the signed adder and the signed subtractor are exact on the normalised values the registers hold. -/
theorem addAndSubAreExact : Obligations.AddAndSubAreExact :=
  ⟨binaryGrowing_of_takesTwo (fun c => addSigned c.w) (fun _ _ _ => ⟨encodedAs_op _, fun _ => rfl⟩)
      fun hc => addSigned_eq (limbWidth_pos hc),
    binaryGrowing_of_takesTwo (fun c => subSigned c.w) (fun _ _ _ => ⟨encodedAs_op _, fun _ => rfl⟩)
      fun hc => subSigned_eq (limbWidth_pos hc)⟩

/-! ### NEG (R146) -/

theorem takesOne_neg (rd rs1 : Reg) :
    TakesOne (.neg rd rs1) rs1 fun s v => s.writeBack rd (normalize v.mag (!v.neg)) 0#64 := fun _ => rfl

/-- The flipped sign on the same magnitude is the negated integer. -/
theorem BigInt.Normal.normalize_flip_eq_mkInt {w : Nat} (hw : 1 ≤ w) {v : BigInt} (h : v.Normal w) :
    normalize v.mag (!v.neg) = mkInt w (-v.ival w) := by
  rw [normalize_eq_mkInt hw h.1.1, BigInt.ival]
  cases v.neg <;> simp

/-- The negated integer has the magnitude of the value itself. -/
theorem BigInt.Normal.mag_mkInt_neg {w : Nat} (hw : 1 ≤ w) {v : BigInt} (h : v.Normal w) :
    (mkInt w (-v.ival w)).mag = v.mag := by
  rw [← h.normalize_flip_eq_mkInt hw]
  exact h.1.normMag_self hw

/-- Settles O31: the result has the limbs of the source, which fit already. -/
theorem negNegates : Obligations.NegNegates := by
  refine fun rd rs1 => ⟨encodedAs_op (.neg rd rs1), (takesOne_neg rd rs1).readsOne,
    fun s v ⟨hc, hregs, _⟩ hs hv => ?_⟩
  have hw := limbWidth_pos hc
  obtain ⟨hnormal, hfits⟩ := hregs rs1 v hv
  refine writesAlways_of_exec_writeBack ?_ ?_
  · rw [(takesOne_neg rd rs1).exec_eq hs hv, hnormal.normalize_flip_eq_mkInt hw]
  · rwa [hnormal.mag_mkInt_neg hw]

/-! ### INC and DEC (R147, R148) -/

@[simp] theorem ival_oneInt (w : Nat) : oneInt.ival w = 1 := by simp [oneInt, BigInt.ival]

/-- Settles O32: the signed adder and the signed subtractor, the constant one as second operand. -/
theorem incAndDecStepByOne : Obligations.IncAndDecStepByOne :=
  ⟨unaryGrowing_of_takesOne (fun c v => addSigned c.w v oneInt) (fun _ _ => ⟨encodedAs_op _, fun _ => rfl⟩)
      fun hc h => by rw [addSigned_eq (limbWidth_pos hc) h (normal_oneInt (limbWidth_pos hc)), ival_oneInt],
    unaryGrowing_of_takesOne (fun c v => subSigned c.w v oneInt) (fun _ _ => ⟨encodedAs_op _, fun _ => rfl⟩)
      fun hc h => by rw [subSigned_eq (limbWidth_pos hc) h (normal_oneInt (limbWidth_pos hc)), ival_oneInt]⟩

end Sys2Proof.Machine
end

section
/-! SUPPORT. The multipliers are exact (spec/42_multiplicative.md R160 to R164): the values of the schoolbook rows, of
Karatsuba's recombination and of the signed product. -/

namespace Sys2Proof.Machine

/-! ### Schoolbook (R162) -/

/-- A row adds `x` times `b` into the buffer, as long as the limb its last carry overwrites is still 0: the value of
the buffer lies below the radix to the length of `b`. -/
theorem val_mulRow {w x : Nat} (hw : w % 2 = 0) (hx : x < 2 ^ w) {b r : List Nat} {carry : Nat} (hb : LimbsOk w b)
    (hr : LimbsOk w r) (hc : carry < 2 ^ w) (hlt : val w r < 2 ^ (w * b.length)) :
    val w (mulRow w x b r carry) = x * val w b + val w r + carry := by
  induction b generalizing r carry with
  | nil =>
    have hr0 : val w r = 0 := by simpa using hlt
    have htail : 2 ^ w * val w r.tail = 0 := by have := val_headD_tail w r; omega
    simp [mulRow, htail, hr0]
  | cons y b ih =>
    obtain ⟨hy, hb⟩ := limbsOk_cons.1 hb
    have hrv := val_headD_tail w r
    have htail : val w r.tail < 2 ^ (w * b.length) := by
      rw [List.length_cons, Nat.mul_succ, pow_add, Nat.mul_comm] at hlt
      exact lt_of_mul_lt_mul_left (by omega) (Nat.zero_le (2 ^ w))
    have hcarry := Nat.div_lt_of_lt_mul (mul_add_add_lt hx hy hr.headD hc)
    rw [mulRow_cons hw hx hy hr hc, val_cons, ih hb hr.tail hcarry htail, val_cons, hrv]
    linear_combination Nat.mod_add_div (x * y + r.headD 0 + carry) (2 ^ w)

/-- What a row leaves above its lowest limb has room for the next row. -/
theorem val_tail_mulRow_lt {w x : Nat} (hw : w % 2 = 0) (hx : x < 2 ^ w) {b r : List Nat} (hb : LimbsOk w b)
    (hr : LimbsOk w r) (hlt : val w r < 2 ^ (w * b.length)) :
    val w (mulRow w x b r 0).tail < 2 ^ (w * b.length) := by
  have hrow := val_mulRow hw hx hb hr (carry := 0) (by positivity) hlt
  have hbv := val_lt hb
  have hsplit := val_headD_tail w (mulRow w x b r 0)
  refine lt_of_mul_lt_mul_left ?_ (Nat.zero_le (2 ^ w))
  calc 2 ^ w * val w (mulRow w x b r 0).tail
      ≤ x * val w b + val w r := by omega
    _ < (x + 1) * 2 ^ (w * b.length) := by nlinarith
    _ ≤ 2 ^ w * 2 ^ (w * b.length) := Nat.mul_le_mul_right _ hx

theorem val_mulRows {w : Nat} (hw : w % 2 = 0) {a b r : List Nat} (ha : LimbsOk w a) (hb : LimbsOk w b)
    (hr : LimbsOk w r) (hlt : val w r < 2 ^ (w * b.length)) :
    val w (mulRows w a b r) = val w a * val w b + val w r := by
  induction a generalizing r with
  | nil => simp [mulRows]
  | cons x a ih =>
    obtain ⟨hx, ha⟩ := limbsOk_cons.1 ha
    have hrow := val_mulRow hw hx hb hr (carry := 0) (by positivity) hlt
    have hok := limbsOk_mulRow hw hx hb hr (carry := 0) (by positivity)
    rw [mulRows, val_cons, ih ha hok.tail (val_tail_mulRow_lt hw hx hb hr hlt), val_cons]
    linear_combination hrow - val_headD_tail w (mulRow w x b r 0)

/-- `school(a, b) = limbs(val(a) * val(b))` (R162). -/
theorem school_eq {w : Nat} (hw : 1 ≤ w) (heven : w % 2 = 0) {a b : List Nat} (ha : LimbsOk w a) (hb : LimbsOk w b) :
    school w a b = limbs w (val w a * val w b) := by
  have hzero := limbsOk_replicate_zero w (a.length + b.length)
  rw [school, normMag_eq_limbs hw (limbsOk_mulRows heven ha hb hzero), val_mulRows heven ha hb hzero (by simp),
    val_replicate_zero, Nat.add_zero]

/-! ### Sums, differences and slices of `limbs` are `limbs` of the result (R140, R141, R163, R197) -/

/-- Only `[0]` has a most significant limb 0 among normal magnitudes (R23). -/
theorem NormalMag.top_ne_zero {w : Nat} {m : List Nat} (h : NormalMag w m) (h0 : m ≠ [0]) : top m ≠ 0 := by
  rcases h.2.2 with h1 | h1
  · obtain ⟨l, rfl⟩ := List.length_eq_one_iff.1 h1
    simpa [top] using h0
  · exact h1

/-- Limbs in range whose value reaches the weight of the most significant one have it nonzero. -/
theorem top_ne_zero_of_le_val {w : Nat} {m : List Nat} (hm : LimbsOk w m) (h : 2 ^ (w * (m.length - 1)) ≤ val w m) :
    top m ≠ 0 := by
  intro h0
  rcases List.eq_nil_or_concat m with rfl | ⟨l, x, rfl⟩
  · simp at h
  · obtain rfl : x = 0 := by simpa [top] using h0
    have hlt := val_lt (m := l) fun y hy => hm y (by simp [hy])
    simp [val_append] at h
    omega

theorem NormalMag.two_pow_le_val {w : Nat} {m : List Nat} (h : NormalMag w m) (hl : 1 < m.length) :
    2 ^ (w * (m.length - 1)) ≤ val w m := by
  have htop := h.top_ne_zero (by rintro rfl; simp at hl)
  exact (Nat.le_mul_of_pos_left _ (Nat.pos_of_ne_zero htop)).trans (top_mul_le_val w h.2.1)

/-- The adder yields one limb per position, and a limb 1 above them where a carry is left (R140). -/
theorem addLoop_shape (w n : Nat) (a b : List Nat) (c : Nat) :
    ∃ m, m.length = n ∧ (addLoop w n a b c = m ∨ addLoop w n a b c = m ++ [1]) := by
  induction n generalizing a b c with
  | zero => exact ⟨[], rfl, by rw [addLoop]; split <;> simp⟩
  | succ n ih =>
    rw [addLoop]
    split
    all_goals
      obtain ⟨m, hm, hadd⟩ := ih a.tail b.tail _
      exact ⟨_ :: m, congrArg (· + 1) hm, hadd.imp (congrArg (List.cons _)) (congrArg (List.cons _))⟩

/-- The sum of normal magnitudes is normal: without a carry out of the top its value is at least that of the
longer operand. -/
theorem normalMag_addMag {w : Nat} (hw : 1 ≤ w) {a b : List Nat} (ha : NormalMag w a) (hb : NormalMag w b) :
    NormalMag w (addMag w a b) := by
  have hok := limbsOk_addMag hw ha.1 hb.1
  have hval := val_addMag hw ha.1 hb.1
  have hpos := List.length_pos_iff.2 ha.2.1
  obtain ⟨m, hlen, hm | hm⟩ := addLoop_shape w (max a.length b.length) a b 0
  all_goals rw [← addMag] at hm
  · rw [hm] at hok hval ⊢
    refine ⟨hok, List.length_pos_iff.1 (by omega), or_iff_not_imp_left.2 fun h1 => top_ne_zero_of_le_val hok ?_⟩
    rcases le_total a.length b.length with h | h
    · have := hb.two_pow_le_val (by omega)
      rw [hlen, max_eq_right h]
      omega
    · have := ha.two_pow_le_val (by omega)
      rw [hlen, max_eq_left h]
      omega
  · rw [hm] at hok ⊢
    exact ⟨hok, by simp, .inr (by simp [top])⟩

theorem normalMag_shlLimbs {w : Nat} {z : List Nat} (hz : NormalMag w z) (q : Nat) : NormalMag w (shlLimbs z q) := by
  have hok := limbsOk_shlLimbs hz.1 q
  by_cases h0 : z = [0]
  · rwa [shlLimbs, if_pos h0, ← h0]
  · rw [shlLimbs, if_neg h0] at hok ⊢
    have htop : top (List.replicate q 0 ++ z) = top z := by
      rw [top, top, List.getLastD_eq_getLast?, List.getLastD_eq_getLast?, List.getLast?_append_of_ne_nil _ hz.2.1]
    exact ⟨hok, by simp [hz.2.1], .inr (htop ▸ hz.top_ne_zero h0)⟩

section
variable {w : Nat} (hw : 1 ≤ w)
include hw

theorem addMag_limbs (x y : Nat) : addMag w (limbs w x) (limbs w y) = limbs w (x + y) := by
  have hx := normalMag_limbs hw x
  have hy := normalMag_limbs hw y
  rw [(normalMag_addMag hw hx hy).eq_limbs hw, val_addMag hw hx.1 hy.1, val_limbs hw, val_limbs hw]

theorem subMag_limbs {x y : Nat} (h : y ≤ x) : subMag w (limbs w x) (limbs w y) = limbs w (x - y) := by
  have hx := normalMag_limbs hw x
  have hy := normalMag_limbs hw y
  rw [(normalMag_subMag hx.1 hy.1).eq_limbs hw, val_subMag hw hx hy (by simpa [hw] using h), val_limbs hw, val_limbs hw]

theorem shlLimbs_limbs (x q : Nat) : shlLimbs (limbs w x) q = limbs w (x * 2 ^ (w * q)) := by
  rw [(normalMag_shlLimbs (normalMag_limbs hw x) q).eq_limbs hw, val_shlLimbs, val_limbs hw]

theorem loLimbs_eq {a : List Nat} (ha : LimbsOk w a) (q : Nat) : loLimbs a q = limbs w (val w a % 2 ^ (w * q)) := by
  rw [(normalMag_loLimbs ha q).eq_limbs hw, val_loLimbs ha]

theorem hiLimbs_eq {a : List Nat} (ha : LimbsOk w a) (q : Nat) : hiLimbs a q = limbs w (val w a / 2 ^ (w * q)) := by
  rw [(normalMag_hiLimbs ha q).eq_limbs hw, val_hiLimbs ha]

end

/-! ### Karatsuba (R163, R164) -/

/-- Both subtractions of the middle product stay above zero, and leave the two mixed products (R163). -/
theorem subMag_karatsuba {w : Nat} (hw : 1 ≤ w) (a1 a0 b1 b0 : Nat) :
    subMag w (subMag w (limbs w ((a1 + a0) * (b1 + b0))) (limbs w (a1 * b1))) (limbs w (a0 * b0)) =
      limbs w (a1 * b0 + a0 * b1) := by
  rw [show (a1 + a0) * (b1 + b0) = a1 * b0 + a0 * b1 + a0 * b0 + a1 * b1 by ring,
    subMag_limbs hw (Nat.le_add_left _ _), Nat.add_sub_cancel, subMag_limbs hw (Nat.le_add_left _ _),
    Nat.add_sub_cancel]

/-- Karatsuba's recombination of the four halves (R163). -/
theorem karatsuba_recombine (B x y : Nat) :
    x / B * (y / B) * (B * B) + (x / B * (y % B) + x % B * (y / B)) * B + x % B * (y % B) = x * y := by
  calc _ = (B * (x / B) + x % B) * (B * (y / B) + y % B) := by ring
    _ = x * y := by rw [Nat.div_add_mod, Nat.div_add_mod]

/-- `kmul(a, b) = limbs(val(a) * val(b))`, whatever the threshold and the bound on the depth (R163, R166). -/
theorem kmulFuel_eq {w : Nat} (hw : 1 ≤ w) (heven : w % 2 = 0) (t fuel : Nat) {a b : List Nat}
    (ha : LimbsOk w a) (hb : LimbsOk w b) : kmulFuel w t fuel a b = limbs w (val w a * val w b) := by
  induction fuel generalizing a b with
  | zero => exact school_eq hw heven ha hb
  | succ fuel ih =>
    rw [kmulFuel]
    split
    · rename_i h0
      rw [Nat.mul_eq_zero.2 h0]
      rfl
    split
    · exact school_eq hw heven ha hb
    have ih' (x y : Nat) : kmulFuel w t fuel (limbs w x) (limbs w y) = limbs w (x * y) := by
      rw [ih (normalMag_limbs hw x).1 (normalMag_limbs hw y).1, val_limbs hw, val_limbs hw]
    generalize max a.length b.length / 2 = m
    have hsquare : 2 ^ (w * (2 * m)) = 2 ^ (w * m) * 2 ^ (w * m) := by rw [← pow_add]; congr 1; ring
    simp only [loLimbs_eq hw ha, loLimbs_eq hw hb, hiLimbs_eq hw ha, hiLimbs_eq hw hb, addMag_limbs hw, ih',
      subMag_karatsuba hw, shlLimbs_limbs hw, hsquare, karatsuba_recombine]

/-- `mul_mag(a, b) = limbs(val(a) * val(b))` (R164). -/
theorem mulMag_eq {c : Config} (hc : c.Legal) {a b : List Nat} (ha : LimbsOk c.w a) (hb : LimbsOk c.w b) :
    mulMag c a b = limbs c.w (val c.w a * val c.w b) :=
  kmulFuel_eq (limbWidth_pos hc) hc.1 _ _ ha hb

/-- `mul_signed` is the exact product (R160). -/
theorem mulSigned_eq {c : Config} (hc : c.Legal) {a b : BigInt} (ha : a.Normal c.w) (hb : b.Normal c.w) :
    mulSigned c a b = mkInt c.w (a.ival c.w * b.ival c.w) := by
  have hw := limbWidth_pos hc
  rw [mulSigned, normalize_eq_mkInt hw (limbsOk_mulMag hc ha.1.1 hb.1.1), mulMag_eq hc ha.1.1 hb.1.1, val_limbs hw,
    BigInt.ival, BigInt.ival]
  cases a.neg <;> cases b.neg <;> simp

end Sys2Proof.Machine
end

section
/-! SUPPORT. The laws of sum and product (spec/41_additive.md R149, spec/42_multiplicative.md R170). On `mk` of integers
the signed operations are the integers' own, so a law of the integers holds of the stored data, limb for limb. -/

namespace Sys2Proof.Machine

theorem addSigned_mkInt {w : Nat} (hw : 1 ≤ w) (x y : Int) :
    addSigned w (mkInt w x) (mkInt w y) = mkInt w (x + y) := by
  rw [addSigned_eq hw (normal_mkInt hw x) (normal_mkInt hw y), ival_mkInt hw, ival_mkInt hw]

theorem subSigned_mkInt {w : Nat} (hw : 1 ≤ w) (x y : Int) :
    subSigned w (mkInt w x) (mkInt w y) = mkInt w (x - y) := by
  rw [subSigned_eq hw (normal_mkInt hw x) (normal_mkInt hw y), ival_mkInt hw, ival_mkInt hw]

theorem mulSigned_mkInt {c : Config} (hc : c.Legal) (x y : Int) :
    mulSigned c (mkInt c.w x) (mkInt c.w y) = mkInt c.w (x * y) := by
  have hw := limbWidth_pos hc
  rw [mulSigned_eq hc (normal_mkInt hw x) (normal_mkInt hw y), ival_mkInt hw, ival_mkInt hw]

/-- Settles O42: normalised values are `mk` of integers, on which each law is the integers' own. -/
theorem arithmeticLaws : Obligations.ArithmeticLaws := by
  intro c a b d hc ha hb hd
  have hw := limbWidth_pos hc
  rw [ha.eq_mkInt hw, hb.eq_mkInt hw, hd.eq_mkInt hw]
  generalize a.ival c.w = x, b.ival c.w = y, d.ival c.w = z
  simp only [addSigned_mkInt hw, subSigned_mkInt hw, mulSigned_mkInt hc]
  exact ⟨by rw [add_comm], by rw [add_assoc], by rw [sub_add_cancel], by rw [mul_comm], by rw [mul_assoc],
    by rw [mul_add], by rw [mul_sub]⟩

end Sys2Proof.Machine
end


section
/-! SUPPORT. Family 2, MUL and POW over the exact multipliers (spec/42_multiplicative.md R161, R166 to R169): the range of
the limb product, the agreement of the two multipliers, and binary exponentiation. -/

namespace Sys2Proof.Machine

open Sys2Proof.Claims

/-! ### The limb product (R161) -/

/-- The high word of a product of two limbs stays at least two below the radix. -/
theorem mul_div_le_sub_two {r x y : Nat} (hr : 2 ≤ r) (hx : x < r) (hy : y < r) : x * y / r ≤ r - 2 := by
  obtain ⟨n, rfl⟩ : ∃ n, r = n + 2 := ⟨r - 2, by omega⟩
  have hprod : x * y ≤ (n + 1) * (n + 1) := Nat.mul_le_mul (Nat.le_of_lt_succ hx) (Nat.le_of_lt_succ hy)
  have hlt : x * y < (n + 2) * (n + 1) := by nlinarith
  exact Nat.le_of_lt_succ (Nat.div_lt_of_lt_mul hlt)

/-- Settles O33: the two words are the quotient and the remainder of the product by the radix. -/
theorem limbProductIsExact : Obligations.LimbProductIsExact := by
  intro w x y heven hw hx hy
  rw [mulLimb_eq heven hx hy]
  exact ⟨(Nat.div_add_mod' _ _).symm, Nat.mod_lt _ (by positivity),
    mul_div_le_sub_two (Nat.le_self_pow (by omega) 2) hx hy⟩

/-! ### The two multipliers (R166) -/

/-- Settles O34: both multipliers return `limbs` of the product of the values. -/
theorem karatsubaAgreesWithSchoolbook : Obligations.KaratsubaAgreesWithSchoolbook := by
  intro w t a b heven hw2 _ ⟨_, ha⟩ ⟨_, hb⟩
  have hw : 1 ≤ w := by omega
  rw [kmul, kmulFuel_eq hw heven t _ ha hb, school_eq hw heven ha hb]
  exact ⟨rfl, val_limbs hw _, val_limbs hw _, normalMag_limbs hw _⟩

/-! ### MUL (R167) -/

/-- Settles O35: the signed multiplier is exact on the normalised values the registers hold. -/
theorem mulIsExactProduct : Obligations.MulIsExactProduct :=
  binaryGrowing_of_takesTwo mulSigned (fun _ _ _ => ⟨encodedAs_op _, fun _ => rfl⟩) fun hc => mulSigned_eq hc

/-! ### POW (R168, R169) -/

theorem oneInt_eq_mkInt {w : Nat} (hw : 1 ≤ w) : oneInt = mkInt w 1 := by
  rw [(normal_oneInt hw).eq_mkInt hw, ival_oneInt]

/-- One round of binary exponentiation keeps the product still to be formed: the lowest exponent bit goes into the
result, and the base is squared unless it is not needed again (R168). -/
theorem pow_round (x y : Int) (e : Nat) :
    (if e % 2 = 1 then x * y else x) * (if 0 < e / 2 then y * y else y) ^ (e / 2) = x * y ^ e := by
  have hbase : (if 0 < e / 2 then y * y else y) ^ (e / 2) = y ^ (2 * (e / 2)) := by
    split
    · rw [pow_mul, sq]
    · rename_i h0
      rw [Nat.eq_zero_of_not_pos h0, Nat.mul_zero, pow_zero]
  have hresult : (if e % 2 = 1 then x * y else x) = x * y ^ (e % 2) := by
    rcases Nat.mod_two_eq_zero_or_one e with h | h <;> simp [h]
  rw [hbase, hresult, mul_assoc, ← pow_add, Nat.mod_add_div]

/-- The loop multiplies the power that is left into its result: each round halves the exponent (R168). -/
theorem powLoop_mkInt {c : Config} (hc : c.Legal) (fuel : Nat) (x y : Int) {e : Nat} (he : e ≤ fuel) :
    powLoop c fuel (mkInt c.w x) (mkInt c.w y) e = mkInt c.w (x * y ^ e) := by
  induction fuel generalizing x y e with
  | zero =>
    obtain rfl : e = 0 := by omega
    rw [powLoop, pow_zero, mul_one]
  | succ fuel ih =>
    rw [powLoop]
    split
    · rename_i h0
      rw [h0, pow_zero, mul_one]
    · rw [mulSigned_mkInt hc, mulSigned_mkInt hc, ← apply_ite (mkInt c.w), ← apply_ite (mkInt c.w),
        ih _ _ (by omega), pow_round]

/-- `pow(base, e)` is the exact power (R168). -/
theorem powInt_eq {c : Config} (hc : c.Legal) {v : BigInt} (hv : v.Normal c.w) (e : Nat) :
    powInt c v e = mkInt c.w (v.ival c.w ^ e) := by
  have hw := limbWidth_pos hc
  calc powInt c v e
      = powLoop c e (mkInt c.w 1) (mkInt c.w (v.ival c.w)) e := by rw [powInt, oneInt_eq_mkInt hw, ← hv.eq_mkInt hw]
    _ = mkInt c.w (v.ival c.w ^ e) := by rw [powLoop_mkInt hc e _ _ le_rfl, one_mul]

theorem takesOne_pow (rd rs1 : Reg) (e : Imm) :
    TakesOne (.pow rd rs1 e) rs1 fun s v => s.writeBack rd (powInt s.cfg v e.toNat) 0#64 := fun _ => rfl

/-- Settles O36: the loop is exact on the normalised value the source holds. -/
theorem powIsExactPower : Obligations.PowIsExactPower := by
  refine fun rd rs1 e => ⟨encodedAs_op (.pow rd rs1 e), (takesOne_pow rd rs1 e).readsOne,
    fun s v ⟨hc, hregs, _⟩ hs hv => writes_of_exec_writeBack ?_⟩
  obtain ⟨hnormal, -⟩ := hregs rs1 v hv
  rw [(takesOne_pow rd rs1 e).exec_eq hs hv, powInt_eq hc hnormal]

end Sys2Proof.Machine
end

section
/-! SUPPORT. The bit-serial divider is exact (spec/43_division.md R183): what its bit operations do to values, and the
invariant of its loop, which holds the quotient and the remainder of the dividend bits taken so far. -/

namespace Sys2Proof.Machine

/-! ### Bits of a magnitude (R11) -/

/-- The value lies below the next multiple of the most significant limb's weight. -/
theorem val_lt_succ_top_mul {w : Nat} {m : List Nat} (hm : LimbsOk w m) (h : m ≠ []) :
    val w m < (top m + 1) * 2 ^ (w * (m.length - 1)) := by
  rcases List.eq_nil_or_concat m with rfl | ⟨l, x, rfl⟩
  · exact absurd rfl h
  · have hlow := val_lt (m := l) fun y hy => hm y (by simp [hy])
    simp only [List.concat_eq_append, val_append, val_cons, val_nil, top, List.getLastD_concat, List.length_append,
      List.length_singleton, Nat.add_sub_cancel, Nat.mul_zero, Nat.add_zero]
    linarith

/-- A non-zero normal magnitude ends in a non-zero limb. -/
theorem NormalMag.top_ne_zero_of_val {w : Nat} {m : List Nat} (h : NormalMag w m) (h0 : val w m ≠ 0) : top m ≠ 0 :=
  h.top_ne_zero fun hm => h0 (h.val_eq_zero_iff.2 hm)

/-- `bitlen` bits hold the value (R11). -/
theorem val_lt_two_pow_bitlen {w : Nat} {m : List Nat} (h : NormalMag w m) : val w m < 2 ^ bitlen w m := by
  by_cases h0 : val w m = 0
  · simp [h0]
  have htop := h.top_ne_zero_of_val h0
  have hlog : (top m).log2 < w := (Nat.log2_lt htop).2 h.top_lt
  have hlen : bitlen w m = (top m).log2 + 1 + w * (m.length - 1) := by
    rw [bitlen, if_neg h0, clzLimb, if_neg htop, Nat.mul_comm w]
    omega
  rw [hlen, pow_add]
  exact (val_lt_succ_top_mul h.1 h.2.1).trans_le (Nat.mul_le_mul_right _ Nat.lt_log2_self)

theorem bitlen_le {w : Nat} {m : List Nat} (h : m ≠ []) : bitlen w m ≤ m.length * w := by
  obtain ⟨n, hn⟩ := Nat.exists_eq_succ_of_ne_zero (List.length_pos_iff.2 h).ne'
  rw [bitlen]
  split
  · omega
  · rw [hn, Nat.succ_mul, Nat.succ_sub_one]
    omega

/-- `bit(m, i)` is bit `i` of the value (R11). -/
theorem bit_eq {w : Nat} (hw : 1 ≤ w) {m : List Nat} (h : LimbsOk w m) (i : Nat) : bit w m i = val w m / 2 ^ i % 2 := by
  have hlimb : m.getD (i / w) 0 = val w m / 2 ^ (w * (i / w)) % 2 ^ w := by
    have hdrop := val_headD_tail w (m.drop (i / w))
    rw [← val_drop h, hdrop, Nat.add_mul_mod_self_left, Nat.mod_eq_of_lt (limbsOk_drop h _).headD]
    simp [List.headD_eq_head?_getD]
  rw [bit, hlimb, ← Nat.toNat_testBit, ← Nat.toNat_testBit, Nat.testBit_mod_two_pow, Nat.testBit_div_two_pow,
    Nat.mod_add_div]
  simp [Nat.mod_lt i hw]

/-- Setting a bit below which the value ends in zeros, and which is 0 itself, adds its weight. -/
theorem val_modify_or {w r : Nat} (hr : r < w) {m : List Nat} (hm : LimbsOk w m) {j : Nat} (hj : j < m.length)
    (hdvd : 2 ^ (w * j + r + 1) ∣ val w m) :
    val w (m.modify j (· ||| 2 ^ r)) = val w m + 2 ^ (w * j + r) := by
  induction m generalizing j with
  | nil => simp at hj
  | cons l m ih =>
    obtain ⟨hl, hm'⟩ := limbsOk_cons.1 hm
    rw [val_cons] at hdvd ⊢
    cases j with
    | zero =>
      obtain ⟨x, rfl⟩ : 2 ^ (r + 1) ∣ l :=
        (Nat.dvd_add_left ((Nat.pow_dvd_pow 2 hr).mul_right _)).1 (by simpa using hdvd)
      have hor := Nat.two_pow_add_eq_or_of_lt (Nat.pow_lt_pow_right one_lt_two (Nat.lt_add_one r)) x
      simp only [List.modify_zero_cons, val_cons, ← hor]
      ring
    | succ j =>
      have hexp : w * (j + 1) + r + 1 = w + (w * j + r + 1) := by ring
      rw [hexp, pow_add] at hdvd
      obtain rfl : l = 0 := by
        have hdvd' := (Nat.dvd_add_left (dvd_mul_right _ _)).1 ((dvd_mul_right _ _).trans hdvd)
        exact Nat.eq_zero_of_dvd_of_lt hdvd' hl
      rw [Nat.zero_add, mul_dvd_mul_iff_left (by positivity)] at hdvd
      rw [List.modify_succ_cons, val_cons, ih hm' (by simpa using hj) hdvd]
      ring

/-- Setting bit `i` of a quotient whose bits up to `i` are 0 adds `2^i` (R183). -/
theorem val_setBit {w : Nat} (hw : 1 ≤ w) {q : List Nat} (hq : LimbsOk w q) {i : Nat} (hi : i < q.length * w)
    (hdvd : 2 ^ (i + 1) ∣ val w q) : val w (setBit w q i) = val w q + 2 ^ i := by
  rw [setBit, val_modify_or (Nat.mod_lt i hw) hq (Nat.div_lt_of_lt_mul (by rwa [Nat.mul_comm])) (by
    rwa [Nat.div_add_mod]), Nat.div_add_mod]

/-- Bringing a bit into an even remainder (R183). -/
theorem bringBit_limbs {w : Nat} (hw : 1 ≤ w) (x : Nat) {b : Nat} (hb : b < 2) :
    bringBit (limbs w (2 * x)) b = limbs w (2 * x + b) := by
  have hok := limbsOk_bringBit hw (normalMag_limbs hw (2 * x)).1 (by rw [val_limbs hw]; omega) b
  have hnormal := normalMag_limbs hw (2 * x)
  have hval := val_limbs hw (2 * x)
  rw [bringBit] at hok ⊢
  split at hok
  · rename_i hb1
    subst hb1
    obtain ⟨l, m, hlm⟩ := List.exists_cons_of_ne_nil hnormal.2.1
    rw [hlm, List.modify_zero_cons] at hok
    rw [hlm] at hnormal hval
    have hnormal' : NormalMag w ((l + 1) :: m) := by
      refine ⟨hok, by simp, hnormal.2.2.imp (by simp) fun htop => ?_⟩
      cases m <;> simp_all [top]
    rw [if_pos rfl, hlm, List.modify_zero_cons, hnormal'.eq_limbs hw, ← hval, val_cons, val_cons]
    congr 1
    ring
  · rename_i hb1
    rw [if_neg hb1, show b = 0 by omega, Nat.add_zero]

/-! ### Operations on `limbs` of a value -/

section
variable {w : Nat} (hw : 1 ≤ w)
include hw

/-- `cmp_mag` answers -1 exactly for a smaller value (R102). -/
theorem cmpMag_eq_lt_iff {a b : List Nat} (ha : NormalMag w a) (hb : NormalMag w b) :
    cmpMag a b = .lt ↔ val w a < val w b := by
  rw [cmpMag_eq hw ha hb, Nat.compare_eq_lt]

theorem cmpMag_limbs_eq_lt_iff (x y : Nat) : cmpMag (limbs w x) (limbs w y) = .lt ↔ x < y := by
  rw [cmpMag_eq_lt_iff hw (normalMag_limbs hw x) (normalMag_limbs hw y), val_limbs hw, val_limbs hw]

theorem shlMag_limbs (x n : Nat) : shlMag w (limbs w x) n = limbs w (x * 2 ^ n) := by
  have hx := (normalMag_limbs hw x).1
  rw [(normalMag_shlMag hw hx n).eq_limbs hw, val_shlMag hw hx, val_limbs hw]

theorem shrMag_limbs (x n : Nat) : shrMag w (limbs w x) n = limbs w (x / 2 ^ n) := by
  have hx := (normalMag_limbs hw x).1
  rw [(normalMag_shrMag hw hx n).eq_limbs hw, val_shrMag hw hx, val_limbs hw]

theorem loLimbs_limbs (x q : Nat) : loLimbs (limbs w x) q = limbs w (x % 2 ^ (w * q)) := by
  rw [loLimbs_eq hw (normalMag_limbs hw x).1, val_limbs hw]

theorem hiLimbs_limbs (x q : Nat) : hiLimbs (limbs w x) q = limbs w (x / 2 ^ (w * q)) := by
  rw [hiLimbs_eq hw (normalMag_limbs hw x).1, val_limbs hw]

theorem midLimbs_limbs (x p q : Nat) :
    midLimbs (limbs w x) p q = limbs w (x / 2 ^ (w * p) % 2 ^ (w * (q - p))) := by
  rw [midLimbs, hiLimbs_limbs hw, loLimbs_limbs hw]

end

/-! ### The loop (R183) -/

/-- Quotient and remainder of a doubled dividend with a bit brought in, by those of the dividend. -/
theorem div_mod_two_mul_add {x y b : Nat} (hb : b < 2) (hy : 0 < y) :
    if 2 * (x % y) + b < y then (2 * x + b) / y = 2 * (x / y) ∧ (2 * x + b) % y = 2 * (x % y) + b
    else (2 * x + b) / y = 2 * (x / y) + 1 ∧ (2 * x + b) % y = 2 * (x % y) + b - y := by
  have hx := Nat.mod_add_div x y
  have hlt := Nat.mod_lt x hy
  split <;> refine (Nat.div_mod_unique hy).2 ⟨?_, by omega⟩
  · linarith
  · rw [Nat.mul_add, Nat.mul_left_comm]
    omega

/-- With `n` dividend bits left, the remainder is that of the bits taken, and the quotient theirs with `n` zero bits to
come; so at the end both are those of the dividend (R183). -/
theorem quadLoop_eq {w : Nat} (hw : 1 ≤ w) {a : List Nat} (ha : LimbsOk w a) {y : Nat} (hy : 0 < y) (n : Nat)
    (hn : n ≤ a.length * w) {q : List Nat} (hq : LimbsOk w q) (hlen : q.length = a.length)
    (hval : val w q = 2 ^ n * (val w a / 2 ^ n / y)) :
    val w (quadLoop w a (limbs w y) n q (limbs w (val w a / 2 ^ n % y))).1 = val w a / y ∧
      (quadLoop w a (limbs w y) n q (limbs w (val w a / 2 ^ n % y))).2 = limbs w (val w a % y) := by
  induction n generalizing q with
  | zero => simpa [quadLoop] using hval
  | succ n ih =>
    have hbit : bit w a n < 2 := by rw [bit_eq hw ha]; exact Nat.mod_lt _ two_pos
    have htaken : 2 * (val w a / 2 ^ (n + 1)) + bit w a n = val w a / 2 ^ n := by
      rw [bit_eq hw ha, pow_succ, ← Nat.div_div_eq_div_mul, Nat.div_add_mod]
    have hstep := div_mod_two_mul_add (x := val w a / 2 ^ (n + 1)) hbit hy
    rw [htaken] at hstep
    rw [quadLoop, shlMag_limbs hw, pow_one, Nat.mul_comm _ 2, bringBit_limbs hw _ hbit]
    simp only [cmpMag_limbs_eq_lt_iff hw]
    split at hstep
    · rename_i hlt
      obtain ⟨hquot, hrem⟩ := hstep
      rw [if_pos hlt, ← hrem]
      refine ih (by omega) hq hlen ?_
      rw [hval, hquot]
      ring
    · rename_i hge
      obtain ⟨hquot, hrem⟩ := hstep
      rw [if_neg hge, subMag_limbs hw (by omega), ← hrem]
      refine ih (by omega) (limbsOk_setBit hw hq n) (by rw [setBit, List.length_modify, hlen]) ?_
      rw [val_setBit hw hq (by rw [hlen]; omega) (hval ▸ dvd_mul_right _ _), hval, hquot]
      ring

/-- `quad_div` returns the normal magnitudes of quotient and remainder (R183). -/
theorem quadDiv_limbs {w : Nat} (hw : 1 ≤ w) (x : Nat) {y : Nat} (hy : 0 < y) :
    quadDiv w (limbs w x) (limbs w y) = (limbs w (x / y), limbs w (x % y)) := by
  have ha := normalMag_limbs hw x
  have hx := val_limbs hw x
  generalize limbs w x = a at ha hx ⊢
  subst hx
  have hzero := limbsOk_replicate_zero w a.length
  have hnone : val w a / 2 ^ bitlen w a = 0 := Nat.div_eq_of_lt (val_lt_two_pow_bitlen ha)
  obtain ⟨hquot, hrem⟩ := quadLoop_eq hw ha.1 hy (bitlen w a) (bitlen_le ha.2.1) hzero List.length_replicate
    (by rw [val_replicate_zero, hnone, Nat.zero_div, Nat.mul_zero])
  rw [hnone, Nat.zero_mod, show limbs w 0 = [0] from rfl] at hquot hrem
  obtain ⟨hok, -⟩ := limbsOk_quadLoop hw (a := a) (normalMag_limbs hw y).1 (bitlen w a) hzero (limbsOk_zero w)
  rw [quadDiv, hrem, normMag_eq_limbs hw hok, hquot]

end Sys2Proof.Machine
end

section
/-! SUPPORT. The recursive divider is exact (spec/43_division.md R185 to R189, R197). Each procedure is described on
`limbs` of values: what it needs of a divisor is only how large it is (`FillsLimbs`), so lengths do not occur. -/

namespace Sys2Proof.Machine

open Sys2Proof.Claims

/-! ### A divisor with its top bit set (R185) -/

/-- The value of a magnitude of `n` limbs whose top bit is set (R185). -/
def FillsLimbs (w n y : Nat) : Prop := y < 2 ^ (w * n) ∧ 2 ^ (w * n) ≤ 2 * y

theorem FillsLimbs.pos {w n y : Nat} (h : FillsLimbs w n y) : 0 < y := by
  obtain ⟨hlt, hle⟩ := h
  omega

/-- One limb at least: the value 0 has no bit set. -/
theorem FillsLimbs.length_pos {w n y : Nat} (h : FillsLimbs w n y) : 1 ≤ n := by
  obtain ⟨hlt, hle⟩ := h
  rcases Nat.eq_zero_or_pos n with rfl | hn
  · rw [Nat.mul_zero, pow_zero] at hlt hle
    omega
  · exact hn

/-- The radix to `2k` is the square of that to `k`. -/
theorem two_pow_mul_two_mul (w k : Nat) : 2 ^ (w * (2 * k)) = 2 ^ (w * k) * 2 ^ (w * k) := by
  rw [← pow_add]
  congr 1
  ring

/-- The normalisation shift sets the divisor's top bit (R185). -/
theorem NormalMag.fillsLimbs_shift {w : Nat} {b : List Nat} (hb : NormalMag w b) (htop : top b ≠ 0) :
    FillsLimbs w b.length (val w b * 2 ^ clzLimb w (top b)) := by
  have hlog : (top b).log2 < w := (Nat.log2_lt htop).2 hb.top_lt
  obtain ⟨n, hn⟩ := Nat.exists_eq_succ_of_ne_zero (List.length_pos_iff.2 hb.2.1).ne'
  have hlen : w * b.length = (top b).log2 + 1 + w * n + (w - 1 - (top b).log2) := by
    rw [hn, Nat.mul_succ]
    omega
  have hlow := top_mul_le_val w hb.2.1
  have hhigh := val_lt_succ_top_mul hb.1 hb.2.1
  rw [hn, Nat.succ_sub_one] at hlow hhigh
  rw [clzLimb, if_neg htop, FillsLimbs, hlen, pow_add, ← Nat.mul_assoc, pow_add]
  refine ⟨Nat.mul_lt_mul_of_pos_right ?_ (by positivity), Nat.mul_le_mul_right _ ?_⟩
  · exact hhigh.trans_le (Nat.mul_le_mul_right _ Nat.lt_log2_self)
  · rw [pow_succ', Nat.mul_assoc]
    exact Nat.mul_le_mul_left 2 ((Nat.mul_le_mul_right _ (Nat.log2_self_le htop)).trans hlow)

/-- Where the top bit is set already, the shift is by nothing. -/
theorem NormalMag.fillsLimbs {w : Nat} {b : List Nat} (hb : NormalMag w b) (hbit : TopBitSet w b) :
    FillsLimbs w b.length (val w b) := by
  have htop : top b ≠ 0 := (lt_of_lt_of_le (by positivity) hbit).ne'
  have hfills := hb.fillsLimbs_shift htop
  rwa [clzLimb, if_neg htop, Nat.sub_eq_zero_of_le ((Nat.le_log2 htop).2 hbit), pow_zero, Nat.mul_one] at hfills

/-- The higher half of the limbs of a divisor keeps its top bit. -/
theorem FillsLimbs.high_half {w : Nat} (hw : 1 ≤ w) {k y : Nat} (h : FillsLimbs w (2 * k) y) :
    FillsLimbs w k (y / 2 ^ (w * k)) := by
  have hk : w * k ≠ 0 := (Nat.mul_pos hw (by have := h.length_pos; omega)).ne'
  obtain ⟨hlt, hle⟩ := h
  rw [two_pow_mul_two_mul] at hlt hle
  refine ⟨Nat.div_lt_of_lt_mul hlt, ?_⟩
  rw [← mul_pow_sub_one hk 2] at hle ⊢
  refine Nat.mul_le_mul_left 2 ((Nat.le_div_iff_mul_le (by positivity)).2 ?_)
  linarith

/-- The number of limbs of a normal magnitude from bounds on its value. -/
theorem FillsLimbs.length_limbs {w : Nat} (hw : 1 ≤ w) {n y : Nat} (h : FillsLimbs w n y) :
    (limbs w y).length = n := by
  have hn := h.length_pos
  obtain ⟨hlt, hle⟩ := h
  have hnormal := normalMag_limbs hw y
  have hval := val_limbs hw y
  rcases Nat.lt_trichotomy (limbs w y).length n with hlen | hlen | hlen
  · have hshort := val_lt hnormal.1
    rw [hval] at hshort
    have hpow : 2 ^ (w * (limbs w y).length + 1) ≤ 2 ^ (w * n) := Nat.pow_le_pow_right two_pos (by nlinarith)
    rw [pow_succ] at hpow
    omega
  · exact hlen
  · have hlong := hnormal.two_pow_le_val (by omega)
    rw [hval] at hlong
    have hpow := Nat.pow_le_pow_right two_pos (Nat.mul_le_mul_left w (Nat.le_sub_one_of_lt hlen))
    omega

/-! ### Division by digits of any size -/

/-- The next digit of a long division: the remainder so far, in front of the dividend's next digit. -/
theorem div_mod_next_digit (r : Nat) {x y : Nat} (hy : 0 < y) :
    x / y = x / r / y * r + (x / r % y * r + x % r) / y ∧ x % y = (x / r % y * r + x % r) % y := by
  have hx : x = y * (x / r / y * r) + (x / r % y * r + x % r) := by
    calc x = r * (x / r) + x % r := (Nat.div_add_mod x r).symm
      _ = r * (y * (x / r / y) + x / r % y) + x % r := by rw [Nat.div_add_mod (x / r) y]
      _ = _ := by ring
  constructor
  · conv_lhs => rw [hx, Nat.mul_add_div hy]
  · conv_lhs => rw [hx, Nat.mul_add_mod]

/-- The window of the next digit is in range: the remainder is smaller than the divisor. -/
theorem mod_mul_add_mod_lt {r x y : Nat} (hr : 0 < r) (hy : 0 < y) : x / r % y * r + x % r < y * r := by
  have hrem := Nat.mod_lt (x / r) hy
  have hdigit := Nat.mod_lt x hr
  calc x / r % y * r + x % r < (x / r % y + 1) * r := by linarith
    _ ≤ y * r := Nat.mul_le_mul_right _ hrem

/-! ### The quotient estimate (R188, R189) -/

/-- The estimate of `x / y`: the quotient of the high parts, capped at `r - 1` (R188). -/
def quotEstimate (r x y : Nat) : Nat := min (x / r / (y / r)) (r - 1)

/-- The estimate is never too small, for a quotient of one digit (R189). -/
theorem div_le_quotEstimate {r x y : Nat} (hyr : 0 < y / r) (hx : x < y * r) : x / y ≤ quotEstimate r x y := by
  have hr : 0 < r := Nat.pos_of_ne_zero fun h => by simp [h] at hyr
  refine le_min ?_ (Nat.le_sub_one_of_lt (Nat.div_lt_of_lt_mul hx))
  rw [Nat.div_div_eq_div_mul]
  exact Nat.div_le_div_left (Nat.mul_div_le y r) (Nat.mul_pos hr hyr)

/-- The estimate times the high part of the divisor is at most the high part of the dividend. -/
theorem quotEstimate_mul_le (r x y : Nat) : quotEstimate r x y * (y / r) ≤ x / r :=
  (Nat.mul_le_mul_right _ (min_le_left _ _)).trans (Nat.div_mul_le_self _ _)

/-- The estimate is too large by at most 2, where the high part of the divisor is at least half the radix (R189). -/
theorem quotEstimate_le {r x y : Nat} (hy : r ≤ 2 * (y / r)) (hr : 0 < r) : quotEstimate r x y ≤ x / y + 2 := by
  have hyr : 0 < y / r := by omega
  have hypos : 0 < y := Nat.pos_of_ne_zero fun h => by simp [h] at hyr
  rw [← Nat.sub_le_iff_le_add, Nat.le_div_iff_mul_le hypos]
  have hcap : quotEstimate r x y < r := (min_le_right _ _).trans_lt (Nat.sub_one_lt hr.ne')
  have hhigh := Nat.mul_le_mul_right r (quotEstimate_mul_le r x y)
  have hlow := Nat.mod_lt y hr
  have hsplit := Nat.div_add_mod y r
  have hxr := Nat.div_mul_le_self x r
  rcases Nat.lt_or_ge (quotEstimate r x y) 2 with h2 | h2
  · simp [Nat.sub_eq_zero_of_le h2.le]
  · obtain ⟨q, hq⟩ := Nat.exists_eq_add_of_le' h2
    rw [hq] at hcap hhigh ⊢
    rw [Nat.add_sub_cancel]
    calc q * y = q * (r * (y / r) + y % r) := by rw [hsplit]
      _ = q * (y / r) * r + q * (y % r) := by ring
      _ ≤ q * (y / r) * r + r * r := Nat.add_le_add_left (Nat.mul_le_mul (by omega) hlow.le) _
      _ ≤ q * (y / r) * r + 2 * (y / r) * r := Nat.add_le_add_left (Nat.mul_le_mul_right r hy) _
      _ = (q + 2) * (y / r) * r := by ring
      _ ≤ x := hhigh.trans hxr

/-- An estimate `q` leaves of the dividend its candidate remainder, less `q` times the divisor's low part (R188). -/
theorem estimate_recombine {r x y q : Nat} (hle : q * (y / r) ≤ x / r) :
    x + q * (y % r) = q * y + ((x / r - q * (y / r)) * r + x % r) := by
  obtain ⟨t, ht⟩ := Nat.exists_eq_add_of_le hle
  have hx := Nat.div_add_mod x r
  rw [ht] at hx
  rw [ht, Nat.add_sub_cancel_left]
  linear_combination q * Nat.div_add_mod y r - hx

/-! ### The 3n/2n divider (R188) -/

section
variable {w : Nat} (hw : 1 ≤ w)
include hw

theorem one_eq_limbs : [1] = limbs w 1 := congrArg BigInt.mag (oneInt_eq_mkInt hw)

/-- The largest magnitude of `k` limbs, the capped estimate (R188). -/
theorem replicate_eq_limbs {k : Nat} (hk : 1 ≤ k) : List.replicate k (2 ^ w - 1) = limbs w (2 ^ (w * k) - 1) := by
  have hradix : 2 ≤ 2 ^ w := Nat.le_self_pow (by omega) 2
  have hval (n : Nat) : val w (List.replicate n (2 ^ w - 1)) + 1 = 2 ^ (w * n) := by
    induction n with
    | zero => rfl
    | succ n ih =>
      rw [List.replicate_succ, val_cons, Nat.mul_succ, pow_add, ← ih, Nat.add_mul, Nat.mul_comm (2 ^ w)]
      omega
  have hnormal : NormalMag w (List.replicate k (2 ^ w - 1)) := by
    refine ⟨fun l hl => ?_, by simp; omega, .inr ?_⟩
    · rw [List.eq_of_mem_replicate hl]
      omega
    · obtain ⟨n, rfl⟩ := Nat.exists_eq_add_of_le' hk
      rw [top, List.replicate_succ', List.getLastD_concat]
      omega
  rw [hnormal.eq_limbs hw, ← hval k, Nat.add_sub_cancel]

/-- The correction loop keeps `x + d = q * y + r` and `x / y ≤ q`, so it stops at the exact quotient (R188). -/
theorem correctLoop_limbs {x y d : Nat} (hy : 0 < y) (fuel : Nat) {q r : Nat} (hsum : x + d = q * y + r)
    (hq : x / y ≤ q) (hfuel : q ≤ fuel) :
    correctLoop w (limbs w y) (limbs w d) fuel (limbs w q) (limbs w r) =
      (limbs w (x / y), limbs w (x % y + d)) := by
  induction fuel generalizing q r with
  | zero =>
    obtain rfl : q = 0 := by omega
    have hlt := (Nat.div_eq_zero_iff_lt hy).1 (Nat.le_zero.1 hq)
    rw [correctLoop, Nat.div_eq_of_lt hlt, Nat.mod_eq_of_lt hlt, hsum, Nat.zero_mul, Nat.zero_add]
  | succ fuel ih =>
    rw [correctLoop]
    simp only [cmpMag_limbs_eq_lt_iff hw]
    split
    · have hlt : x / y < q := (Nat.div_lt_iff_lt_mul hy).2 (by omega)
      obtain ⟨n, rfl⟩ := Nat.exists_eq_succ_of_ne_zero (Nat.ne_zero_of_lt hlt)
      rw [one_eq_limbs hw, subMag_limbs hw (Nat.le_add_left 1 n), addMag_limbs hw, Nat.succ_sub_one]
      exact ih (by linarith) (Nat.le_of_lt_succ hlt) (Nat.le_of_succ_le_succ hfuel)
    · have hle : q ≤ x / y := (Nat.le_div_iff_mul_le hy).2 (by omega)
      obtain rfl : q = x / y := by omega
      rw [show r = x % y + d by have := Nat.div_add_mod' x y; omega]

end

/-- `div21` divides windows of `2n` limbs by divisors of `n` limbs (R187). -/
def Divides2n1n (w : Nat) (div21 : List Nat → List Nat → Nat → List Nat × List Nat) (n : Nat) : Prop :=
  ∀ x y, FillsLimbs w n y → x < y * 2 ^ (w * n) →
    div21 (limbs w x) (limbs w y) n = (limbs w (x / y), limbs w (x % y))

section
variable {c : Config} (hc : c.Legal) {div21 : List Nat → List Nat → Nat → List Nat × List Nat} {k : Nat}
  (hdiv : Divides2n1n c.w div21 k) {x y : Nat} (hy : FillsLimbs c.w (2 * k) y)
include hc hdiv hy

/-- The estimate, with what its multiple of the divisor's high part leaves of the dividend's (R188). -/
theorem estimate3n2n_limbs :
    estimate3n2n c div21 (limbs c.w x) (limbs c.w y) k =
      (limbs c.w (quotEstimate (2 ^ (c.w * k)) x y),
        limbs c.w (x / 2 ^ (c.w * k) - quotEstimate (2 ^ (c.w * k)) x y * (y / 2 ^ (c.w * k)))) := by
  have hw := limbWidth_pos hc
  have hhigh := hy.high_half hw
  rw [estimate3n2n]
  simp only [hiLimbs_limbs hw, shlLimbs_limbs hw, cmpMag_limbs_eq_lt_iff hw, two_pow_mul_two_mul,
    ← Nat.div_div_eq_div_mul]
  rw [quotEstimate]
  generalize hr : 2 ^ (c.w * k) = r at *
  have hrpos : 0 < r := hr ▸ by positivity
  split
  · rename_i hlt
    have hx : x / r < y / r * r := (Nat.div_lt_iff_lt_mul hrpos).1 hlt
    have hmin : x / r / (y / r) ≤ r - 1 := Nat.le_sub_one_of_lt (Nat.div_lt_of_lt_mul hx)
    rw [hdiv _ _ hhigh (by rwa [hr]), min_eq_left hmin, Nat.mod_eq_sub_div_mul]
  · rename_i hge
    have hx : y / r * r ≤ x / r := (Nat.le_div_iff_mul_le hrpos).1 (Nat.le_of_not_lt hge)
    have hmin : r - 1 ≤ x / r / (y / r) :=
      (Nat.le_div_iff_mul_le hhigh.pos).2 ((Nat.mul_le_mul_right _ (Nat.sub_le r 1)).trans (by linarith))
    have hback : x / r - y / r * r + y / r = x / r - (r - 1) * (y / r) := by
      rw [Nat.sub_one_mul, Nat.mul_comm r, tsub_tsub_assoc hx (Nat.le_mul_of_pos_right _ hrpos)]
    rw [replicate_eq_limbs hw hhigh.length_pos, hr, subMag_limbs hw hx, addMag_limbs hw, hback, min_eq_right hmin]

/-- The 3n/2n divider is exact where the quotient is below the radix to `k` (R188). -/
theorem divide3n2n_limbs (hx : x < y * 2 ^ (c.w * k)) :
    divide3n2n c div21 (limbs c.w x) (limbs c.w y) k = (limbs c.w (x / y), limbs c.w (x % y)) := by
  have hw := limbWidth_pos hc
  have hq := div_le_quotEstimate (hy.high_half hw).pos hx
  have hle := quotEstimate_mul_le (2 ^ (c.w * k)) x y
  rw [divide3n2n]
  simp only [estimate3n2n_limbs hc hdiv hy, loLimbs_limbs hw, shlLimbs_limbs hw, addMag_limbs hw, val_limbs hw,
    mulMag_eq hc (normalMag_limbs hw _).1 (normalMag_limbs hw _).1]
  generalize 2 ^ (c.w * k) = r at *
  generalize quotEstimate r x y = q at *
  rw [correctLoop_limbs hw hy.pos q (estimate_recombine hle) hq le_rfl, subMag_limbs hw (Nat.le_add_left _ _),
    Nat.add_sub_cancel]

end

/-! ### The 2n/n divider and the chunks of the dividend (R186, R187) -/

/-- The 2n/n divider is exact, whatever the bound on the depth (R187). -/
theorem divide2n1n_limbs {c : Config} (hc : c.Legal) (fuel n : Nat) : Divides2n1n c.w (divide2n1n c fuel) n := by
  have hw := limbWidth_pos hc
  induction fuel generalizing n with
  | zero => exact fun x y hy _ => quadDiv_limbs hw x hy.pos
  | succ fuel ih =>
    intro x y hy hx
    rw [divide2n1n]
    split
    · exact quadDiv_limbs hw x hy.pos
    rename_i hn
    obtain ⟨k, rfl⟩ : ∃ k, n = 2 * k := ⟨n / 2, by omega⟩
    have hrpos : 0 < 2 ^ (c.w * k) := by positivity
    have hhigh : x / 2 ^ (c.w * k) < y * 2 ^ (c.w * k) := by
      rw [Nat.div_lt_iff_lt_mul hrpos, Nat.mul_assoc, ← two_pow_mul_two_mul]
      exact hx
    have hwindow := mod_mul_add_mod_lt (x := x) hrpos hy.pos
    obtain ⟨hquot, hrem⟩ := div_mod_next_digit (2 ^ (c.w * k)) (x := x) hy.pos
    simp only [Nat.mul_div_cancel_left k two_pos, show 2 * k - k = k by omega, loLimbs_limbs hw, midLimbs_limbs hw,
      hiLimbs_limbs hw, shlLimbs_limbs hw, addMag_limbs hw, two_pow_mul_two_mul, ← Nat.div_div_eq_div_mul,
      Nat.div_add_mod', divide3n2n_limbs hc (ih k) hy hhigh, divide3n2n_limbs hc (ih k) hy hwindow, ← hquot, ← hrem]

/-- With `t` chunks left, quotient and remainder are those of the chunks taken (R186). -/
theorem chunkLoop_limbs {c : Config} (hc : c.Legal) {n x y : Nat} (hy : FillsLimbs c.w n y) (t : Nat) :
    chunkLoop c (limbs c.w x) (limbs c.w y) n t (limbs c.w (x / 2 ^ (c.w * (t * n)) / y))
      (limbs c.w (x / 2 ^ (c.w * (t * n)) % y)) = (limbs c.w (x / y), limbs c.w (x % y)) := by
  have hw := limbWidth_pos hc
  induction t with
  | zero => simp [chunkLoop]
  | succ t ih =>
    have hnext : x / 2 ^ (c.w * ((t + 1) * n)) = x / 2 ^ (c.w * (t * n)) / 2 ^ (c.w * n) := by
      rw [Nat.div_div_eq_div_mul, ← pow_add]
      congr 2
      ring
    obtain ⟨hquot, hrem⟩ := div_mod_next_digit (2 ^ (c.w * n)) (x := x / 2 ^ (c.w * (t * n))) hy.pos
    have hwindow := mod_mul_add_mod_lt (r := 2 ^ (c.w * n)) (x := x / 2 ^ (c.w * (t * n))) (by positivity) hy.pos
    have hwidth : (t + 1) * n - t * n = n := by rw [Nat.succ_mul, Nat.add_sub_cancel_left]
    rw [hnext, chunkLoop]
    simp only [midLimbs_limbs hw, hwidth, shlLimbs_limbs hw, addMag_limbs hw,
      divide2n1n_limbs hc n n _ _ hy hwindow, ← hquot, ← hrem, ih]

/-! ### The recursive divider and the dispatch (R182, R186) -/

/-- Enough chunks are taken to cover the dividend (R186). -/
theorem div_chunks_eq_zero {w n : Nat} (hn : 0 < n) {m : List Nat} (hm : LimbsOk w m) :
    val w m / 2 ^ (w * ((m.length + n - 1) / n * n)) = 0 := by
  refine Nat.div_eq_of_lt ((val_lt hm).trans_le (Nat.pow_le_pow_right two_pos (Nat.mul_le_mul_left _ ?_)))
  have := Nat.lt_div_mul_add hn (a := m.length + n - 1)
  omega

/-- The recursive divider returns the exact pair: the shift cancels in the quotient and is undone on the remainder. -/
theorem recursiveDivision_limbs {c : Config} (hc : c.Legal) (x : Nat) {y : Nat} (hy : 0 < y) :
    recursiveDivision c (limbs c.w x) (limbs c.w y) = (limbs c.w (x / y), limbs c.w (x % y)) := by
  have hw := limbWidth_pos hc
  have hnormal := normalMag_limbs hw y
  have hfills := hnormal.fillsLimbs_shift (hnormal.top_ne_zero_of_val (by rw [val_limbs hw]; exact hy.ne'))
  rw [val_limbs hw] at hfills
  rw [recursiveDivision]
  simp only [shlMag_limbs hw, hfills.length_limbs hw]
  generalize clzLimb c.w (top (limbs c.w y)) = s, (limbs c.w y).length = n at hfills ⊢
  have hchunks := div_chunks_eq_zero hfills.length_pos (normalMag_limbs hw (x * 2 ^ s)).1
  have hloop := chunkLoop_limbs hc hfills (((limbs c.w (x * 2 ^ s)).length + n - 1) / n) (x := x * 2 ^ s)
  rw [val_limbs hw] at hchunks
  rw [hchunks, Nat.zero_div, Nat.zero_mod, show limbs c.w 0 = [0] from rfl] at hloop
  have hpos : 0 < 2 ^ s := by positivity
  rw [hloop, shrMag_limbs hw, Nat.mul_div_mul_right _ _ hpos, Nat.mul_mod_mul_right, Nat.mul_div_cancel _ hpos]

/-- The dispatch returns the exact pair, whichever divider it takes (R182). -/
theorem divmodMag_limbs {c : Config} (hc : c.Legal) (x : Nat) {y : Nat} (hy : 0 < y) :
    divmodMag c (limbs c.w x) (limbs c.w y) = (limbs c.w (x / y), limbs c.w (x % y)) := by
  have hw := limbWidth_pos hc
  rw [divmodMag]
  simp only [cmpMag_limbs_eq_lt_iff hw]
  split
  · rename_i hlt
    rw [Nat.div_eq_of_lt hlt, Nat.mod_eq_of_lt hlt]
    rfl
  split
  · exact quadDiv_limbs hw x hy
  · exact recursiveDivision_limbs hc x hy

end Sys2Proof.Machine
end

section
/-! SUPPORT. Family 3, DIVMOD, DIV and MOD over the exact dividers (spec/43_division.md R180 to R196): the agreement of
the dividers, the contracts of the helpers, and truncating division of signed values. -/

namespace Sys2Proof.Machine

open Sys2Proof.Claims

/-! ### The dividers (R187 to R191) -/

/-- Settles O37: normal magnitudes are `limbs` of their values, on which every divider returns the exact pair. -/
theorem dividersAgree : Obligations.DividersAgree := by
  intro c a b hc ha hb hb0
  have hw := limbWidth_pos hc
  have hy := Nat.pos_of_ne_zero hb0
  rw [ha.eq_limbs hw, hb.eq_limbs hw]
  generalize val c.w a = x, val c.w b = y at hy
  rw [val_limbs hw, val_limbs hw]
  exact ⟨quadDiv_limbs hw x hy, divmodMag_limbs hc x hy, fun _ => recursiveDivision_limbs hc x hy⟩

/-- Settles O38: both helpers are exact on `limbs` of values under a divisor with its top bit set. -/
theorem divisionHelpersMeetTheirContracts : Obligations.DivisionHelpersMeetTheirContracts := by
  intro c z b hc hz hb htop
  have hw := limbWidth_pos hc
  have hfills := hb.fillsLimbs htop
  refine ⟨fun hlt => ⟨?_, Nat.div_lt_of_lt_mul hlt⟩, fun k hk hlt => ⟨?_, Nat.div_lt_of_lt_mul hlt⟩⟩
  · have hdivide := divide2n1n_limbs hc b.length b.length _ _ hfills hlt
    rwa [← hz.eq_limbs hw, ← hb.eq_limbs hw] at hdivide
  · have hdivide := divide3n2n_limbs hc (divide2n1n_limbs hc k k) (hk ▸ hfills) hlt
    rwa [← hz.eq_limbs hw, ← hb.eq_limbs hw] at hdivide

/-- Settles O39: the estimate is the capped quotient of the high parts, and the divisor's high part is at least half the
radix. -/
theorem quotientEstimateIsOffByAtMostTwo : Obligations.QuotientEstimateIsOffByAtMostTwo := by
  intro c z b k hc hz hb htop hk hlt
  have hw := limbWidth_pos hc
  have hfills : FillsLimbs c.w (2 * k) (val c.w b) := hk ▸ hb.fillsLimbs htop
  have hhigh := hfills.high_half hw
  have hestimate := estimate3n2n_limbs hc (divide2n1n_limbs hc k k) hfills (x := val c.w z)
  rw [← hz.eq_limbs hw, ← hb.eq_limbs hw] at hestimate
  rw [hestimate, val_limbs hw]
  exact ⟨div_le_quotEstimate hhigh.pos hlt, quotEstimate_le hhigh.2 (by positivity)⟩

/-! ### Truncating division of values (R181, R192) -/

/-- `tdiv` of R181 is the truncating quotient of the integers: signs and absolute values agree. -/
theorem tdiv_eq (a b : Int) : tdiv a b = a.tdiv b := by
  rw [tdiv, ← Int.sign_mul_natAbs (a.tdiv b), Int.sign_tdiv, Int.natAbs_tdiv]
  split
  · rename_i hlt
    rw [Nat.div_eq_of_lt hlt, Nat.cast_zero, mul_zero, zero_mul]
  · rfl

/-- `tmod` of R181 is the remainder of the integers' truncating division. -/
theorem tmod_eq (a b : Int) : tmod a b = a.tmod b := by
  rw [tmod, ← Int.sign_mul_natAbs (a.tmod b), Int.sign_tmod, Int.natAbs_tmod]
  split
  · rename_i hdvd
    rw [Nat.mod_eq_zero_of_dvd (Int.natAbs_dvd_natAbs.2 hdvd), Nat.cast_zero, mul_zero, zero_mul]
  · rfl

section
variable {c : Config} (hc : c.Legal) {a b : BigInt} (ha : a.Normal c.w) (hb : b.Normal c.w) (hb0 : b.ival c.w ≠ 0)
include hc ha hb hb0

/-- `divmod_mag` on the magnitudes of normalised values (R182). -/
theorem divmodMag_mag :
    divmodMag c a.mag b.mag =
      (limbs c.w (val c.w a.mag / val c.w b.mag), limbs c.w (val c.w a.mag % val c.w b.mag)) := by
  have hw := limbWidth_pos hc
  have hy : 0 < val c.w b.mag := by rw [← natAbs_ival]; exact Int.natAbs_pos.2 hb0
  have hdivide := divmodMag_limbs hc (val c.w a.mag) hy
  rwa [← ha.1.eq_limbs hw, ← hb.1.eq_limbs hw] at hdivide

/-- The quotient of `divmod_signed` is the truncating quotient (R192). -/
theorem quotSigned_eq : quotSigned c a b = mkInt c.w (tdiv (a.ival c.w) (b.ival c.w)) := by
  have hw := limbWidth_pos hc
  rw [quotSigned, divmodMag_mag hc ha hb hb0, normalize_eq_mkInt hw (normalMag_limbs hw _).1, val_limbs hw, tdiv_eq,
    Int.ofNat_tdiv, BigInt.ival, BigInt.ival]
  cases a.neg <;> cases b.neg <;> simp [Int.neg_tdiv, Int.tdiv_neg]

/-- The remainder of `divmod_signed` is that of truncating division (R192). -/
theorem remSigned_eq : remSigned c a b = mkInt c.w (tmod (a.ival c.w) (b.ival c.w)) := by
  have hw := limbWidth_pos hc
  rw [remSigned, divmodMag_mag hc ha hb hb0, normalize_eq_mkInt hw (normalMag_limbs hw _).1, val_limbs hw, tmod_eq,
    Int.ofNat_tmod, BigInt.ival, BigInt.ival]
  cases a.neg <;> cases b.neg <;> simp [Int.neg_tmod, Int.tmod_neg]

end

section
variable {c : Config} (hc : c.Legal) (x : Int) {y : Int} (hy : y ≠ 0)
include hc hy

theorem quotSigned_mkInt : quotSigned c (mkInt c.w x) (mkInt c.w y) = mkInt c.w (x.tdiv y) := by
  have hw := limbWidth_pos hc
  rw [quotSigned_eq hc (normal_mkInt hw x) (normal_mkInt hw y) (by rwa [ival_mkInt hw]), ival_mkInt hw, ival_mkInt hw,
    tdiv_eq]

theorem remSigned_mkInt : remSigned c (mkInt c.w x) (mkInt c.w y) = mkInt c.w (x.tmod y) := by
  have hw := limbWidth_pos hc
  rw [remSigned_eq hc (normal_mkInt hw x) (normal_mkInt hw y) (by rwa [ival_mkInt hw]), ival_mkInt hw, ival_mkInt hw,
    tmod_eq]

end

/-- Settles O43: normalised values are `mk` of integers, on which the signed divider is the integers' truncating
division. -/
theorem divisionLaws : Obligations.DivisionLaws := by
  intro c a b hc ha hb hb0
  have hw := limbWidth_pos hc
  rw [ha.eq_mkInt hw, hb.eq_mkInt hw]
  generalize a.ival c.w = x, b.ival c.w = y at hb0
  simp only [mulSigned_mkInt hc, quotSigned_mkInt hc _ hb0, remSigned_mkInt hc _ hb0, addSigned_mkInt hw,
    ival_mkInt hw]
  refine ⟨by rw [Int.mul_tdiv_add_tmod], ?_, ?_, by rw [Int.mul_tdiv_cancel _ hb0], by rw [Int.mul_tmod_left]; rfl, ?_⟩
  · rw [Int.natAbs_tmod]
    exact Nat.mod_lt _ (Int.natAbs_pos.2 hb0)
  · rw [Int.sign_tmod]
    split
    · exact .inl (Int.tmod_eq_zero_of_dvd (by assumption))
    · exact .inr rfl
  · rw [Int.tdiv_self hb0, oneInt_eq_mkInt hw]

/-! ### DIVMOD, DIV and MOD (R193 to R195) -/

/-- Reading two sources and testing the divisor, then going on with their values as `k` says (R281). -/
def TakesDivision (i : Instr) (rs1 rs2 : Reg) (k : State → BigInt → BigInt → State) : Prop :=
  ∀ s : State, exec i s = s.unlessHalted (withDivision rs1 rs2 s (k s))

section
variable {i : Instr} {rs1 rs2 : Reg} {k : State → BigInt → BigInt → State} (h : TakesDivision i rs1 rs2 k)
include h

theorem TakesDivision.takesTwo :
    TakesTwo i rs1 rs2 fun s a b => if b.ival s.cfg.w = 0 then s.takeFault .divz else k s a b := h

/-- UNINIT, then DIVZ (R193 to R195, R271, R276). -/
theorem TakesDivision.divides : Divides i rs1 rs2 := by
  refine ⟨h.takesTwo.readsTwo, fun s a b hs ha hb hb0 => ?_⟩
  rw [h.takesTwo.exec_eq hs ha hb, if_pos hb0, s.takeFault_eq_faulted .divz rfl]
  rfl

theorem TakesDivision.exec_eq {s : State} (hs : s.Running) {a b : BigInt} (ha : s.Holds rs1 a) (hb : s.Holds rs2 b)
    (hb0 : b.ival s.cfg.w ≠ 0) : exec i s = .next (k s a b) := by
  rw [h.takesTwo.exec_eq hs ha hb, if_neg hb0]

end

/-- A value no larger than one that fits does: ALLOC cannot occur (R274). -/
theorem fits_mkInt_of_natAbs_le {c : Config} (hw : 1 ≤ c.w) {v : BigInt} (hv : v.Normal c.w)
    (hf : fits c v.mag = true) {z : Int} (hz : z.natAbs ≤ (v.ival c.w).natAbs) :
    fits c (mkInt c.w z).mag = true := by
  have hlen : (mkInt c.w z).mag.length ≤ v.mag.length := by
    rw [hv.1.eq_limbs hw, ← natAbs_ival]
    exact length_limbs_le_of_le hw hz
  rw [fits] at hf ⊢
  split at hf
  · rfl
  · exact decide_eq_true (hlen.trans (of_decide_eq_true hf))

theorem natAbs_tdiv_le (a b : Int) : (tdiv a b).natAbs ≤ a.natAbs := by
  rw [tdiv_eq, Int.natAbs_tdiv]
  exact Nat.div_le_self _ _

theorem natAbs_tmod_le (a b : Int) : (tmod a b).natAbs ≤ a.natAbs := by
  rw [tmod_eq, Int.natAbs_tmod]
  exact Nat.mod_le _ _

theorem takesDivision_div (rd rs1 rs2 : Reg) :
    TakesDivision (.div rd rs1 rs2) rs1 rs2 fun s a b => s.writeBack rd (quotSigned s.cfg a b) 0#64 := fun _ => rfl

theorem takesDivision_mod (rd rs1 rs2 : Reg) :
    TakesDivision (.mod rd rs1 rs2) rs1 rs2 fun s a b => s.writeBack rd (remSigned s.cfg a b) 0#64 := fun _ => rfl

theorem takesDivision_divmod {rd rd2 : Reg} (h : rd ≠ rd2) (rs1 rs2 : Reg) :
    TakesDivision (.divmod rd rd2 rs1 rs2) rs1 rs2 fun s a b =>
      s.writeBack2 rd rd2 (quotSigned s.cfg a b) (remSigned s.cfg a b) := fun s => by
  rw [exec, execDivmod, if_neg h]

/-- Settles O41: quotient and remainder are exact on the normalised values the registers hold, and no larger than the
dividend, which fits. -/
theorem divAndModTruncate : Obligations.DivAndModTruncate := by
  refine fun rd rs1 rs2 => ⟨encodedAs_op (.div rd rs1 rs2), (takesDivision_div rd rs1 rs2).divides,
    encodedAs_op (.mod rd rs1 rs2), (takesDivision_mod rd rs1 rs2).divides,
    fun s a b ⟨hc, hregs, _⟩ hs ha hb hb0 => ?_⟩
  have hw := limbWidth_pos hc
  obtain ⟨hna, hfits⟩ := hregs rs1 a ha
  obtain ⟨hnb, -⟩ := hregs rs2 b hb
  constructor
  · refine writesAlways_of_exec_writeBack ?_ (fits_mkInt_of_natAbs_le hw hna hfits (natAbs_tdiv_le _ _))
    rw [(takesDivision_div rd rs1 rs2).exec_eq hs ha hb hb0, quotSigned_eq hc hna hnb hb0]
  · refine writesAlways_of_exec_writeBack ?_ (fits_mkInt_of_natAbs_le hw hna hfits (natAbs_tmod_le _ _))
    rw [(takesDivision_mod rd rs1 rs2).exec_eq hs ha hb hb0, remSigned_eq hc hna hnb hb0]

/-- The encoding of DIVMOD with one destination named twice does not decode (R67(e), R73). -/
theorem exists_decode_error_divmod_same (rd rs1 rs2 : Reg) :
    ∃ e, decode (encode (.divmod rd rd rs1 rs2)).1 (encode (.divmod rd rd rs1 rs2)).2 = .error e := by
  refine exists_decode_error fun o ho => ?_
  have hop := ho.ofCode_eq
  rw [encode, packWord_opcode, Op.ofCode_code, Option.some.injEq] at hop
  obtain ⟨-, -, hdest⟩ := ho
  refine hdest ⟨hop.symm, ?_⟩
  simp only [encode, regField, packWord_rd, packWord_rd2, Instr.fields]

/-- Settles O40: both results are exact and no larger than the dividend; with one destination named twice there is no
command to decode. -/
theorem divmodWritesQuotientAndRemainder : Obligations.DivmodWritesQuotientAndRemainder := by
  refine fun rd rd2 rs1 rs2 => ⟨encodedAs_op (.divmod rd rd2 rs1 rs2), fun hne =>
    ⟨(takesDivision_divmod hne rs1 rs2).divides, fun s a b ⟨hc, hregs, _⟩ hs ha hb hb0 => ?_⟩, ?_⟩
  · have hw := limbWidth_pos hc
    obtain ⟨hna, hfits⟩ := hregs rs1 a ha
    obtain ⟨hnb, -⟩ := hregs rs2 b hb
    have hquot := fits_mkInt_of_natAbs_le hw hna hfits (natAbs_tdiv_le _ (b.ival s.cfg.w))
    have hrem := fits_mkInt_of_natAbs_le hw hna hfits (natAbs_tmod_le _ (b.ival s.cfg.w))
    rw [(takesDivision_divmod hne rs1 rs2).exec_eq hs ha hb hb0, quotSigned_eq hc hna hnb hb0,
      remSigned_eq hc hna hnb hb0, State.writeBack2, hquot, hrem]
    rfl
  · rintro rfl s hs
    obtain ⟨e, he⟩ := exists_decode_error_divmod_same rd rs1 rs2
    rw [runCommand_of_decode_error he, illegalCommand_running hs]

end Sys2Proof.Machine
end

section
/-! SUPPORT. Family 4, the shifts and the logic (spec/44_bitwise_shift.md R210 to R220): a shift scales the integer by a
power of two, a limb-wise operation whose result is no longer than its operands cannot take ALLOC, and the complement of
a magnitude loses a limb only where the top limb is `RADIX - 1`. -/

namespace Sys2Proof.Machine

open Sys2Proof.Claims

/-! ### Shifts (R213, R214) -/

/-- `normalize(shl_mag(mag, n), neg)` is `mk` of the integer times `2^n` (R213). -/
theorem BigInt.Normal.normalize_shlMag {w : Nat} (hw : 1 ≤ w) {v : BigInt} (h : v.Normal w) (n : Nat) :
    normalize (shlMag w v.mag n) v.neg = mkInt w (v.ival w * 2 ^ n) := by
  rw [normalize_eq_mkInt hw (normalMag_shlMag hw h.1.1 n).1, val_shlMag hw h.1.1, BigInt.ival]
  cases v.neg <;> simp

/-- `normalize(shr_mag(mag, n), neg)` is `mk` of the integer divided by `2^n`, rounded toward zero (R214). -/
theorem BigInt.Normal.normalize_shrMag {w : Nat} (hw : 1 ≤ w) {v : BigInt} (h : v.Normal w) (n : Nat) :
    normalize (shrMag w v.mag n) v.neg = mkInt w ((v.ival w).tdiv (2 ^ n)) := by
  rw [normalize_eq_mkInt hw (normalMag_shrMag hw h.1.1 n).1, val_shrMag hw h.1.1, BigInt.ival]
  cases v.neg <;> simp [Int.neg_tdiv]

/-- The sign times the divided absolute value is the quotient rounded toward zero. -/
theorem sign_mul_natAbs_div_two_pow (z : Int) (n : Nat) :
    z.sign * ((z.natAbs / 2 ^ n : Nat) : Int) = z.tdiv (2 ^ n) := by
  have hsign : (2 ^ n : Int).sign = 1 := Int.sign_eq_one_of_pos (by positivity)
  rw [← tdiv_eq, tdiv, hsign, mul_one, Int.natAbs_pow]
  rfl

theorem takesOne_shl (rd rs1 : Reg) (n : Imm) : TakesOne (.shl rd rs1 n) rs1 fun s v =>
    s.writeBack rd (normalize (shlMag s.cfg.w v.mag n.toNat) v.neg) 0#64 := fun _ => rfl

theorem takesOne_shr (rd rs1 : Reg) (n : Imm) : TakesOne (.shr rd rs1 n) rs1 fun s v =>
    s.writeBack rd (normalize (shrMag s.cfg.w v.mag n.toNat) v.neg) 0#64 := fun _ => rfl

/-- Settles O44: both shifts are exact on the normalised value the source holds, and SHR gives one no larger than that
value, which fits. -/
theorem shiftsScaleByPowersOfTwo : Obligations.ShiftsScaleByPowersOfTwo := by
  refine fun rd rs1 n => ⟨encodedAs_op (.shl rd rs1 n), (takesOne_shl rd rs1 n).readsOne,
    encodedAs_op (.shr rd rs1 n), (takesOne_shr rd rs1 n).readsOne, fun s v ⟨hc, hregs, _⟩ hs hv => ?_⟩
  have hw := limbWidth_pos hc
  obtain ⟨hnormal, hfits⟩ := hregs rs1 v hv
  constructor
  · refine writes_of_exec_writeBack ?_
    rw [(takesOne_shl rd rs1 n).exec_eq hs hv, hnormal.normalize_shlMag hw]
  · rw [sign_mul_natAbs_div_two_pow]
    refine writesAlways_of_exec_writeBack ?_ (fits_mkInt_of_natAbs_le hw hnormal hfits ?_)
    · rw [(takesOne_shr rd rs1 n).exec_eq hs hv, hnormal.normalize_shrMag hw]
    · rw [Int.natAbs_tdiv]
      exact Nat.div_le_self _ _

/-! ### Limb-wise results that cannot take ALLOC (R274) -/

theorem fits_of_length_le {c : Config} {m r : List Nat} (h : fits c m = true) (hlen : r.length ≤ m.length) :
    fits c r = true := by
  rw [fits] at h ⊢
  split at h
  · rfl
  · exact decide_eq_true (hlen.trans (of_decide_eq_true h))

theorem fits_of_length_le_max {c : Config} {a b r : List Nat} (ha : fits c a = true) (hb : fits c b = true)
    (hlen : r.length ≤ max a.length b.length) : fits c r = true :=
  (le_max_iff.1 hlen).elim (fits_of_length_le ha) (fits_of_length_le hb)

/-- A command that writes back limbs which fit before they are normalised cannot end with ALLOC: `normalize` only drops
limbs (R101, R274). -/
theorem writesAlways_of_exec_normalize {i : Instr} {s : State} {rd : Reg} {r : List Nat} {neg : Bool}
    (hw : 1 ≤ s.cfg.w) (h : exec i s = .next (s.writeBack rd (normalize r neg) 0#64)) (hr : LimbsOk s.cfg.w r)
    (hne : r ≠ []) (hfits : fits s.cfg r = true) :
    WritesAlways i s rd ((if neg then -1 else 1) * (val s.cfg.w r : Int)) := by
  have hmk : normalize r neg = mkInt s.cfg.w ((if neg then -1 else 1) * (val s.cfg.w r : Int)) := by
    rw [normalize_eq_mkInt hw hr]
    cases neg <;> simp
  rw [hmk] at h
  refine writesAlways_of_exec_writeBack h ?_
  rw [← hmk]
  exact fits_of_length_le hfits (length_normMag_le hne)

/-! ### AND, OR and XOR (R215 to R218) -/

@[simp] theorem length_padLimbs (f : Nat → Nat → Nat) (n : Nat) (a b : List Nat) : (padLimbs f n a b).length = n := by
  induction n generalizing a b with
  | zero => rfl
  | succ n ih => rw [padLimbs, List.length_cons, ih]

/-- A command of format R3 that writes back a limb-wise operation, exact on the values and neither shorter than the
shorter operand nor longer than the longer one, is the rule's operation on magnitudes and signs. -/
theorem logic_of_takesTwo {cmd : Reg → Reg → Reg → Instr} {code : BitVec 8} {f : Nat → Nat → Nat}
    {sign : Bool → Bool → Bool} (op : List Nat → List Nat → List Nat)
    (h : ∀ rd rs1 rs2, EncodedAs (cmd rd rs1 rs2) code .r3 ∧ TakesTwo (cmd rd rs1 rs2) rs1 rs2 fun s a b =>
      s.writeBack rd (normalize (op a.mag b.mag) (sign a.neg b.neg)) 0#64)
    (hop : ∀ {w : Nat} {a b : List Nat}, LimbsOk w a → LimbsOk w b →
      val w (op a b) = f (val w a) (val w b) ∧ LimbsOk w (op a b))
    (hlen : ∀ a b, min a.length b.length ≤ (op a b).length ∧ (op a b).length ≤ max a.length b.length) :
    Logic cmd code f sign := by
  intro rd rs1 rs2
  obtain ⟨henc, htakes⟩ := h rd rs1 rs2
  refine ⟨henc, htakes.readsTwo, fun s a b ⟨hc, hregs, _⟩ hs ha hb => ?_⟩
  obtain ⟨⟨⟨haok, hane, -⟩, -⟩, hafits⟩ := hregs rs1 a ha
  obtain ⟨⟨⟨hbok, hbne, -⟩, -⟩, hbfits⟩ := hregs rs2 b hb
  obtain ⟨hval, hok⟩ := hop haok hbok
  obtain ⟨hmin, hmax⟩ := hlen a.mag b.mag
  have hne : op a.mag b.mag ≠ [] := List.length_pos_iff.1
    ((lt_min (List.length_pos_iff.2 hane) (List.length_pos_iff.2 hbne)).trans_le hmin)
  rw [← hval]
  exact writesAlways_of_exec_normalize (limbWidth_pos hc) (htakes.exec_eq hs ha hb) hok hne
    (fits_of_length_le_max hafits hbfits hmax)

/-- Settles O45: the three limb-wise operations are the bitwise ones on the values of the magnitudes, AND as long as the
shorter operand, OR and XOR as long as the longer. -/
theorem logicActsOnSignAndMagnitude : Obligations.LogicActsOnSignAndMagnitude :=
  ⟨logic_of_takesTwo andLimbs (fun _ _ _ => ⟨encodedAs_op _, fun _ => rfl⟩) val_andLimbs
      fun a b => by simp [andLimbs],
    logic_of_takesTwo orLimbs (fun _ _ _ => ⟨encodedAs_op _, fun _ => rfl⟩) val_orLimbs
      fun a b => by simp [orLimbs],
    logic_of_takesTwo xorLimbs (fun _ _ _ => ⟨encodedAs_op _, fun _ => rfl⟩) val_xorLimbs
      fun a b => by simp [xorLimbs]⟩

/-! ### NOT (R219) -/

theorem cplNeg_of_toggle {c : Config} (h : c.cplSign = .toggle) (neg : Bool) : cplNeg c neg = !neg := by
  rw [cplNeg, h]

theorem cplNeg_of_keep {c : Config} (h : c.cplSign = .keep) (neg : Bool) : cplNeg c neg = neg := by
  rw [cplNeg, h]

@[simp] theorem cplNeg_cplNeg (c : Config) (neg : Bool) : cplNeg c (cplNeg c neg) = neg := by
  cases h : c.cplSign
  · rw [cplNeg_of_toggle h, cplNeg_of_toggle h, Bool.not_not]
  · rw [cplNeg_of_keep h, cplNeg_of_keep h]

@[simp] theorem length_notLimbs (w : Nat) (m : List Nat) : (notLimbs w m).length = m.length := List.length_map _

theorem notLimbs_ne_nil {w : Nat} {m : List Nat} (h : m ≠ []) : notLimbs w m ≠ [] := List.map_eq_nil_iff.not.2 h

/-- The value of the complement, as an integer: nothing is cut off at zero (R219). -/
theorem cast_val_notLimbs {w : Nat} {m : List Nat} (h : LimbsOk w m) :
    (val w (notLimbs w m) : Int) = 2 ^ (w * m.length) - 1 - (val w m : Int) := by
  have hlt := val_lt h
  rw [(val_notLimbs h).1, Nat.cast_sub (by omega), Nat.cast_sub (by omega)]
  push_cast
  rfl

theorem takesOne_not (rd rs1 : Reg) : TakesOne (.not rd rs1) rs1 fun s v =>
    s.writeBack rd (normalize (notLimbs s.cfg.w v.mag) (cplNeg s.cfg v.neg)) 0#64 := fun _ => rfl

/-- Settles O46: the complement has as many limbs as the source before it is normalised, so it fits. -/
theorem notComplementsLimbs : Obligations.NotComplementsLimbs := by
  refine fun rd rs1 => ⟨encodedAs_op (.not rd rs1), (takesOne_not rd rs1).readsOne,
    fun s v ⟨hc, hregs, _⟩ hs hv => ?_⟩
  obtain ⟨⟨⟨hok, hne, -⟩, -⟩, hfits⟩ := hregs rs1 v hv
  have hwrites := writesAlways_of_exec_normalize (limbWidth_pos hc) ((takesOne_not rd rs1).exec_eq hs hv)
    (val_notLimbs hok).2 (notLimbs_ne_nil hne) (fits_of_length_le hfits (length_notLimbs _ _).le)
  rw [cast_val_notLimbs hok] at hwrites
  constructor
  · intro htoggle
    rw [cplNeg_of_toggle htoggle] at hwrites
    cases hneg : v.neg <;> simpa [hneg] using hwrites
  · intro hkeep
    rwa [cplNeg_of_keep hkeep] at hwrites

/-! ### Laws (R220) -/

/-- Limbs of a normalised value's magnitude, under its own sign, normalise to that value. -/
theorem BigInt.Normal.normalize_eq_of_val_eq {w : Nat} (hw : 1 ≤ w) {v : BigInt} (h : v.Normal w) {m : List Nat}
    (hm : LimbsOk w m) (hval : val w m = val w v.mag) : normalize m v.neg = v := by
  rw [normalize_eq_mkInt hw hm, hval, ← BigInt.ival, ← h.eq_mkInt hw]

theorem normalize_eq_zeroInt_of_val_eq_zero {w : Nat} (hw : 1 ≤ w) {m : List Nat} (hm : LimbsOk w m)
    (hval : val w m = 0) (neg : Bool) : normalize m neg = zeroInt := by
  rw [normalize_eq_mkInt hw hm, hval, Nat.cast_zero, neg_zero, ite_self]
  rfl

/-- A normal magnitude with a non-zero top limb is stored as it is, whatever its sign flag (R101). -/
theorem NormalMag.normalize_of_top_ne_zero {w : Nat} (hw : 1 ≤ w) {m : List Nat} (h : NormalMag w m)
    (htop : top m ≠ 0) (neg : Bool) : normalize m neg = ⟨m, neg⟩ := by
  have hne : m ≠ [0] := by
    rintro rfl
    exact htop rfl
  rw [normalize, h.normMag_self hw, if_neg hne]

theorem notLimbs_notLimbs {w : Nat} {m : List Nat} (h : LimbsOk w m) : notLimbs w (notLimbs w m) = m := by
  rw [notLimbs, notLimbs, List.map_map]
  refine (List.map_congr_left fun l hl => ?_).trans (List.map_id m)
  have hlt := h l hl
  exact Nat.sub_sub_self (by omega)

theorem top_notLimbs (w : Nat) {m : List Nat} (h : m ≠ []) : top (notLimbs w m) = 2 ^ w - 1 - top m := by
  rw [top, top, notLimbs, List.getLastD_eq_getLast?, List.getLastD_eq_getLast?, List.getLast?_map,
    List.getLast?_eq_getLast_of_ne_nil h]
  rfl

/-- A top limb other than `RADIX - 1` has a non-zero complement, so the complement keeps every limb and its sign flag
(R219, R220(c)). -/
theorem NormalMag.normalize_notLimbs {w : Nat} (hw : 1 ≤ w) {m : List Nat} (h : NormalMag w m)
    (htop : top m ≠ 2 ^ w - 1) (neg : Bool) : normalize (notLimbs w m) neg = ⟨notLimbs w m, neg⟩ := by
  have hlt := h.top_lt
  have hcompl : top (notLimbs w m) ≠ 0 := by
    rw [top_notLimbs w h.2.1]
    omega
  exact NormalMag.normalize_of_top_ne_zero hw
    ⟨(val_notLimbs h.1).2, notLimbs_ne_nil h.2.1, .inr hcompl⟩ hcompl neg

theorem top_zeroInt_ne {w : Nat} (hw : 1 ≤ w) : top zeroInt.mag ≠ 2 ^ w - 1 := by
  have h2 : 2 ^ 1 ≤ 2 ^ w := Nat.pow_le_pow_right (by norm_num) hw
  change 0 ≠ _
  omega

/-- Settles O47: a normalised value is `mk` of its integer, which a left shift multiplies and a right shift divides
again; the bitwise laws are those of the values; complementing twice gives back every limb where none was dropped, and
the top limb of zero is not `RADIX - 1` either. -/
theorem shiftAndLogicLaws : Obligations.ShiftAndLogicLaws := by
  intro c v hc hv
  have hw := limbWidth_pos hc
  have hok := hv.1.1
  obtain ⟨hand, handOk⟩ := val_andLimbs hok hok
  obtain ⟨hor, horOk⟩ := val_orLimbs hok hok
  obtain ⟨hxor, hxorOk⟩ := val_xorLimbs hok hok
  refine ⟨fun n => ?_, ?_, ?_, ?_, fun h => ?_⟩
  · rw [hv.normalize_shlMag hw, (normal_mkInt hw _).normalize_shrMag hw, ival_mkInt hw,
      Int.mul_tdiv_cancel _ (by positivity), ← hv.eq_mkInt hw]
  · rw [Bool.and_self]
    exact hv.normalize_eq_of_val_eq hw handOk (hand.trans (Nat.and_self _))
  · rw [Bool.or_self]
    exact hv.normalize_eq_of_val_eq hw horOk (hor.trans (Nat.or_self _))
  · exact normalize_eq_zeroInt_of_val_eq_zero hw hxorOk (hxor.trans (Nat.xor_self _)) _
  · have htop : top v.mag ≠ 2 ^ c.w - 1 := by
      rcases h with rfl | htop
      · exact top_zeroInt_ne hw
      · exact htop
    rw [hv.1.normalize_notLimbs hw htop, notLimbs_notLimbs hok, cplNeg_cplNeg]
    exact hv.normalize_eq_of_val_eq hw hok rfl

end Sys2Proof.Machine
end

section
/-! SUPPORT. Family 5, numerals (spec/45_text.md R230, R231, R233, R235): the digit characters, the numeral grammar, and
the digits of a number, each tied to Mathlib's `Nat.digits` and `Nat.ofDigits`. -/

namespace Sys2Proof.Machine

open Sys2Proof.Claims

/-! ### Digit characters (R44) -/

theorem toNat_digitChar {d : Nat} (h : d ≤ 9) : (digitChar d).toNat = 0x30 + d := by
  rw [digitChar, BitVec.toNat_ofNat]
  omega

/-- The digit characters, and they alone, have a digit value (R44, R230). -/
theorem digitOf_eq_some_iff {c : Byte} {d : Nat} : digitOf c = some d ↔ d ≤ 9 ∧ c = digitChar d := by
  rw [digitOf]
  constructor
  · intro h
    split at h
    · rename_i hc
      obtain rfl := Option.some.inj h
      exact ⟨by omega, BitVec.eq_of_toNat_eq (by rw [toNat_digitChar (by omega)]; omega)⟩
    · cases h
  · rintro ⟨hd, rfl⟩
    rw [toNat_digitChar hd, if_pos (by omega), Nat.add_sub_cancel_left]

theorem digitChar_inj {d e : Nat} (hd : d ≤ 9) (he : e ≤ 9) (h : digitChar d = digitChar e) : d = e := by
  have := congrArg BitVec.toNat h
  rw [toNat_digitChar hd, toNat_digitChar he] at this
  omega

theorem digitChar_ne_of_lt {d : Nat} (h : d ≤ 9) {c : Byte} (hc : c.toNat < 0x30) : digitChar d ≠ c := by
  rintro rfl
  rw [toNat_digitChar h] at hc
  omega

/-- No digit is a sign (R44). -/
theorem digitChar_ne_sign {d : Nat} (h : d ≤ 9) : digitChar d ≠ charMinus ∧ digitChar d ≠ charPlus :=
  ⟨digitChar_ne_of_lt h (by decide), digitChar_ne_of_lt h (by decide)⟩

theorem digitsOf_eq_some_iff {t : List Byte} {ds : List Nat} :
    digitsOf t = some ds ↔ (∀ d ∈ ds, d ≤ 9) ∧ t = ds.map digitChar := by
  induction t generalizing ds with
  | nil => cases ds <;> simp [digitsOf]
  | cons c t ih =>
    rw [digitsOf]
    constructor
    · intro h
      split at h
      · rename_i d es hd hes
        obtain rfl := Option.some.inj h
        obtain ⟨hd9, rfl⟩ := digitOf_eq_some_iff.1 hd
        obtain ⟨hes9, rfl⟩ := ih.1 hes
        exact ⟨List.forall_mem_cons.2 ⟨hd9, hes9⟩, rfl⟩
      · cases h
    · rintro ⟨hds, heq⟩
      cases ds with
      | nil => cases heq
      | cons d ds =>
        obtain ⟨hd9, hds9⟩ := List.forall_mem_cons.1 hds
        obtain ⟨rfl, rfl⟩ := List.cons.inj heq
        rw [digitOf_eq_some_iff.2 ⟨hd9, rfl⟩, ih.2 ⟨hds9, rfl⟩]

/-! ### The sign of a text (R230, R231) -/

/-- A text is one of the sign texts before its body, and `textNeg` says whether it is `-`. -/
theorem exists_sign (t : List Byte) : ∃ p ∈ signTexts, t = p ++ textBody t ∧ textNeg t = decide (p = [charMinus]) := by
  cases t with
  | nil => exact ⟨[], by decide, rfl, rfl⟩
  | cons c t =>
    by_cases hminus : c = charMinus
    · subst hminus
      exact ⟨[charMinus], by decide, rfl, rfl⟩
    by_cases hplus : c = charPlus
    · subst hplus
      exact ⟨[charPlus], by decide, rfl, rfl⟩
    · exact ⟨[], by decide, by simp [textBody, hminus, hplus], by simp [textNeg, hminus]⟩

/-- A sign text before digits is the sign of the whole, and the digits are its body. -/
theorem sign_append_digits {p : List Byte} (hp : p ∈ signTexts) {ds : List Nat} (hne : ds ≠ [])
    (hds : ∀ d ∈ ds, d ≤ 9) :
    textBody (p ++ ds.map digitChar) = ds.map digitChar ∧
      textNeg (p ++ ds.map digitChar) = decide (p = [charMinus]) := by
  simp only [signTexts, List.mem_cons, List.not_mem_nil, or_false] at hp
  rcases hp with rfl | rfl | rfl
  · obtain ⟨d, es, rfl⟩ := List.exists_cons_of_ne_nil hne
    obtain ⟨hminus, hplus⟩ := digitChar_ne_sign (hds d List.mem_cons_self)
    simp [textBody, textNeg, hminus, hplus]
  · exact ⟨rfl, rfl⟩
  · exact ⟨rfl, rfl⟩

/-! ### The value of digits (R231) -/

theorem digitSum_eq_ofDigits (ds : List Nat) : digitSum ds = Nat.ofDigits 10 ds.reverse := by
  induction ds with
  | nil => rfl
  | cons d ds ih =>
    rw [digitSum, ih, List.reverse_cons, Nat.ofDigits_append, List.length_reverse, Nat.ofDigits_singleton]
    ring

theorem cast_digitSum (ds : List Nat) : (digitSum ds : Int) = Nat.ofDigits 10 ds.reverse := by
  rw [digitSum_eq_ofDigits, Nat.coe_ofDigits Int, Nat.cast_ofNat]

theorem digitSum_append (a b : List Nat) : digitSum (a ++ b) = digitSum a * 10 ^ b.length + digitSum b := by
  simp only [digitSum_eq_ofDigits, List.reverse_append, Nat.ofDigits_append, List.length_reverse]
  ring

theorem digitSum_zero_cons (ds : List Nat) : digitSum (0 :: ds) = digitSum ds := by
  rw [digitSum, Nat.zero_mul, Nat.zero_add]

theorem normalize_limbs {w : Nat} (hw : 1 ≤ w) (n : Nat) (neg : Bool) :
    normalize (limbs w n) neg = mkInt w ((if neg then -1 else 1) * (n : Int)) := by
  rw [normalize_eq_mkInt hw (normalMag_limbs hw n).1, val_limbs hw]
  cases neg <;> simp

theorem parseText_eq_some_iff_digitsOf {w : Nat} {t : List Byte} {v : BigInt} :
    parseText w t = some v ↔
      ∃ ds ≠ [], digitsOf (textBody t) = some ds ∧ v = normalize (limbs w (digitSum ds)) (textNeg t) := by
  rw [parseText]
  cases digitsOf (textBody t) with
  | none => simp
  | some ds =>
    cases ds with
    | nil => simp
    | cons d ds => simp [eq_comm]

/-- `parse_text` accepts a sign text and then digits, at least one, and nothing else (R230, R231). -/
theorem parseText_eq_some_iff {w : Nat} (hw : 1 ≤ w) {t : List Byte} {v : BigInt} :
    parseText w t = some v ↔
      ∃ p ∈ signTexts, ∃ ds : List Nat, ds ≠ [] ∧ (∀ d ∈ ds, d ≤ 9) ∧ t = p ++ ds.map digitChar ∧
        v = mkInt w ((if p = [charMinus] then -1 else 1) * (digitSum ds : Int)) := by
  rw [parseText_eq_some_iff_digitsOf]
  constructor
  · rintro ⟨ds, hne, hdigits, rfl⟩
    obtain ⟨hds, hbody⟩ := digitsOf_eq_some_iff.1 hdigits
    obtain ⟨p, hp, ht, hneg⟩ := exists_sign t
    refine ⟨p, hp, ds, hne, hds, hbody ▸ ht, ?_⟩
    simp only [normalize_limbs hw, hneg, decide_eq_true_eq]
  · rintro ⟨p, hp, ds, hne, hds, rfl, rfl⟩
    obtain ⟨hbody, hneg⟩ := sign_append_digits hp hne hds
    refine ⟨ds, hne, digitsOf_eq_some_iff.2 ⟨hds, hbody⟩, ?_⟩
    simp only [normalize_limbs hw, hneg, decide_eq_true_eq]

/-- Settles O48: the grammar of `parse_text`, with the value of the digits as Mathlib writes it. -/
theorem parseTextIsTheNumeralGrammar : Obligations.ParseTextIsTheNumeralGrammar := by
  intro w t v hw
  simp only [← cast_digitSum]
  exact parseText_eq_some_iff hw

/-! ### The digits of a number (R233) -/

theorem decDigitsAux_eq {fuel n : Nat} (h : n ≤ fuel) (acc : List Nat) :
    decDigitsAux fuel n acc = (Nat.digits 10 n).reverse ++ acc := by
  induction fuel generalizing n acc with
  | zero =>
    obtain rfl := Nat.le_zero.1 h
    rfl
  | succ fuel ih =>
    rw [decDigitsAux]
    split
    · rename_i h0
      rw [h0, Nat.digits_zero]
      rfl
    · rw [ih (by omega), Nat.digits_def' (n := n) (by norm_num) (by omega), List.reverse_cons, List.append_assoc]
      rfl

theorem decDigits_eq_digits (n : Nat) : decDigits n = (Nat.digits 10 n).reverse := by
  rw [decDigits, decDigitsAux_eq le_rfl, List.append_nil]

/-- The digits a numeral of `n` shows: those of `n`, and one `0` for zero. -/
def shownDigits (n : Nat) : List Nat := if n = 0 then [0] else decDigits n

@[simp] theorem shownDigits_zero : shownDigits 0 = [0] := rfl

theorem shownDigits_of_ne_zero {n : Nat} (h : n ≠ 0) : shownDigits n = decDigits n := if_neg h

theorem shownDigits_ne_nil (n : Nat) : shownDigits n ≠ [] := by
  by_cases h : n = 0
  · simp [h]
  · rw [shownDigits_of_ne_zero h, decDigits_eq_digits, Ne, List.reverse_eq_nil_iff]
    exact Nat.digits_ne_nil_iff_ne_zero.2 h

theorem shownDigits_le_nine (n : Nat) : ∀ d ∈ shownDigits n, d ≤ 9 := by
  intro d hd
  by_cases h : n = 0
  · rw [h, shownDigits_zero, List.mem_singleton] at hd
    omega
  · rw [shownDigits_of_ne_zero h, decDigits_eq_digits, List.mem_reverse] at hd
    exact Nat.le_of_lt_succ (Nat.digits_lt_base (by norm_num) hd)

theorem digitSum_shownDigits (n : Nat) : digitSum (shownDigits n) = n := by
  by_cases h : n = 0
  · subst h
    rfl
  · rw [shownDigits_of_ne_zero h, decDigits_eq_digits, digitSum_eq_ofDigits, List.reverse_reverse, Nat.ofDigits_digits]

/-- Digits with no leading zero are the digits of their value. -/
theorem shownDigits_digitSum_cons {d : Nat} {ds : List Nat} (hd : d ≠ 0) (h : ∀ e ∈ d :: ds, e ≤ 9) :
    shownDigits (digitSum (d :: ds)) = d :: ds := by
  have hpos : digitSum (d :: ds) ≠ 0 := by
    rw [digitSum]
    positivity
  rw [shownDigits_of_ne_zero hpos, decDigits_eq_digits, digitSum_eq_ofDigits, Nat.digits_ofDigits 10 (by norm_num),
    List.reverse_reverse]
  · exact fun e he => Nat.lt_succ_of_le (h e (List.mem_reverse.1 he))
  · simpa using hd

/-- `format_text` shows the digits of the magnitude after `-` for a negative value (R233). -/
theorem formatText_eq {w : Nat} {v : BigInt} (hv : v.Normal w) :
    formatText w v =
      (if v.ival w < 0 then [charMinus] else []) ++ (shownDigits (v.ival w).natAbs).map digitChar := by
  rw [formatText]
  by_cases h0 : v.ival w = 0
  · rw [if_pos h0, h0]
    rfl
  · rw [if_neg h0, shownDigits_of_ne_zero (Int.natAbs_ne_zero.2 h0), natAbs_ival, hv.neg_eq]
    simp only [decide_eq_true_eq]

/-- Settles O49: the digits shown are those of the magnitude, none of them a leading zero. -/
theorem formatTextIsTheCanonicalNumeral : Obligations.FormatTextIsTheCanonicalNumeral := by
  intro w v _ hv
  rw [formatText_eq hv]
  by_cases h0 : v.ival w = 0
  · rw [if_pos h0, h0]
    rfl
  · rw [if_neg h0, shownDigits_of_ne_zero (Int.natAbs_ne_zero.2 h0), decDigits_eq_digits]
    rfl

/-! ### Canonical numerals (R235) -/

/-- Dropping leading zeros leaves the digits the value shows. -/
theorem dropZeros_digits {ds : List Nat} (hne : ds ≠ []) (hds : ∀ d ∈ ds, d ≤ 9) :
    dropZeros (ds.map digitChar) = (shownDigits (digitSum ds)).map digitChar := by
  induction ds with
  | nil => exact absurd rfl hne
  | cons d ds ih =>
    obtain ⟨hd, hds'⟩ := List.forall_mem_cons.1 hds
    by_cases h0 : d = 0
    · subst h0
      rw [digitSum_zero_cons]
      cases ds with
      | nil => rfl
      | cons e es => exact ih (List.cons_ne_nil e es) hds'
    · rw [shownDigits_digitSum_cons h0 hds]
      cases ds with
      | nil => rfl
      | cons e es => exact if_neg fun h => h0 (digitChar_inj hd (Nat.zero_le 9) h)

/-- A numeral that shows only `0` is that of zero. -/
theorem map_shownDigits_eq_zero_iff {n : Nat} : (shownDigits n).map digitChar = [0x30#8] ↔ n = 0 := by
  constructor
  · intro h
    obtain ⟨d, hd⟩ : ∃ d, shownDigits n = [d] := List.length_eq_one_iff.1 (by simpa using congrArg List.length h)
    have hd9 : d ≤ 9 := shownDigits_le_nine n d (by simp [hd])
    rw [hd] at h
    have hd0 : d = 0 := digitChar_inj hd9 (Nat.zero_le 9) (List.cons.inj h).1
    rw [← digitSum_shownDigits n, hd, hd0]
    rfl
  · rintro rfl
    rfl

theorem canon_minus (t : List Byte) :
    canon (charMinus :: t) = if dropZeros t = [0x30#8] then [0x30#8] else charMinus :: dropZeros t := if_pos rfl

theorem canon_plus (t : List Byte) : canon (charPlus :: t) = dropZeros t := rfl

theorem canon_of_no_sign {c : Byte} (hminus : c ≠ charMinus) (hplus : c ≠ charPlus) (t : List Byte) :
    canon (c :: t) = dropZeros (c :: t) :=
  (if_neg fun h => hminus (Option.some.inj h)).trans (if_neg fun h => hplus (Option.some.inj h))

/-- The canonical form of a sign and digits shows their value, after `-` if that was the sign of a value other than zero
(R235). -/
theorem canon_numeral {p : List Byte} (hp : p ∈ signTexts) {ds : List Nat} (hne : ds ≠ []) (hds : ∀ d ∈ ds, d ≤ 9) :
    canon (p ++ ds.map digitChar) =
      (if p = [charMinus] ∧ digitSum ds ≠ 0 then [charMinus] else []) ++
        (shownDigits (digitSum ds)).map digitChar := by
  have hdrop := dropZeros_digits hne hds
  simp only [signTexts, List.mem_cons, List.not_mem_nil, or_false] at hp
  rcases hp with rfl | rfl | rfl
  · obtain ⟨d, es, rfl⟩ := List.exists_cons_of_ne_nil hne
    obtain ⟨hminus, hplus⟩ := digitChar_ne_sign (hds d List.mem_cons_self)
    rw [if_neg (by simp), ← hdrop]
    exact canon_of_no_sign hminus hplus _
  · rw [if_neg fun h => absurd h.1 (by decide), ← hdrop]
    exact canon_plus _
  · refine (canon_minus (ds.map digitChar)).trans ?_
    simp only [hdrop, map_shownDigits_eq_zero_iff]
    by_cases h0 : digitSum ds = 0
    · rw [if_pos h0, if_neg fun h => h.2 h0, h0]
      rfl
    · rw [if_neg h0, if_pos ⟨rfl, h0⟩]
      rfl

/-- The sign text `format_text` writes is the sign of the integer. -/
theorem signText_mul_natAbs (z : Int) :
    (if (if z < 0 then [charMinus] else []) = [charMinus] then -1 else 1) * (z.natAbs : Int) = z := by
  by_cases h : z < 0
  · rw [if_pos h, if_pos rfl]
    omega
  · rw [if_neg h, if_neg (by decide)]
    omega

/-- Settles O50: both directions by the grammar, a numeral being a sign and digits that have the value's digits left
when leading zeros are dropped. -/
theorem textRoundTrip : Obligations.TextRoundTrip := by
  refine ⟨fun w t v hw h => ?_, fun w v hw hv => ?_⟩
  · obtain ⟨p, hp, ds, hne, hds, rfl, rfl⟩ := (parseText_eq_some_iff hw).1 h
    rw [canon_numeral hp hne hds, formatText_eq (normal_mkInt hw _), ival_mkInt hw]
    by_cases hminus : p = [charMinus]
    · simp [hminus, Nat.pos_iff_ne_zero]
    · simp [hminus]
  · refine (parseText_eq_some_iff hw).2 ⟨if v.ival w < 0 then [charMinus] else [], ?_,
      shownDigits (v.ival w).natAbs, shownDigits_ne_nil _, shownDigits_le_nine _, formatText_eq hv, ?_⟩
    · split <;> decide
    · rw [digitSum_shownDigits, signText_mul_natAbs]
      exact hv.eq_mkInt hw

end Sys2Proof.Machine
end

section
/-! SUPPORT. Family 5, the parsing and formatting procedures (spec/45_text.md R232, R234): on `limbs` of numbers each
step is arithmetic on the numbers, so the two parsers return one magnitude and the two formatters one text. -/

namespace Sys2Proof.Machine

section
variable {c : Config} (hc : c.Legal)
include hc

theorem mulMag_limbs (x y : Nat) : mulMag c (limbs c.w x) (limbs c.w y) = limbs c.w (x * y) := by
  have hw := limbWidth_pos hc
  rw [mulMag_eq hc (normalMag_limbs hw x).1 (normalMag_limbs hw y).1, val_limbs hw, val_limbs hw]

/-- `pow_mag(10, j)` is the magnitude of the power of ten (R232). -/
theorem powTen_eq (j : Nat) : powTen c j = limbs c.w (10 ^ j) := by
  have hw := limbWidth_pos hc
  calc powTen c j
      = (powInt c (mkInt c.w 10) j).mag := rfl
    _ = limbs c.w (10 ^ j) := by
      rw [powInt_eq hc (normal_mkInt hw 10), ival_mkInt hw, mkInt, Int.natAbs_pow]
      rfl

/-! ### Parsing (R232) -/

/-- The digit-serial parser appends its digits to the number in the accumulator. -/
theorem parseSerial_limbs (x : Nat) (ds : List Nat) :
    parseSerial c (limbs c.w x) ds = limbs c.w (x * 10 ^ ds.length + digitSum ds) := by
  have hw := limbWidth_pos hc
  induction ds generalizing x with
  | nil => rw [parseSerial, digitSum, List.length_nil, pow_zero, Nat.mul_one, Nat.add_zero]
  | cons d ds ih =>
    rw [parseSerial, mulMag_limbs hc, addMag_limbs hw, ih, digitSum, List.length_cons]
    congr 1
    ring

theorem parseSerial_eq (ds : List Nat) : parseSerial c [0] ds = limbs c.w (digitSum ds) := by
  have h := parseSerial_limbs hc 0 ds
  rwa [Nat.zero_mul, Nat.zero_add] at h

/-- The divide-and-conquer parser returns the digits' value, whatever the base size and the bound on the depth. -/
theorem parseDc_eq (k0 fuel : Nat) (ds : List Nat) : parseDc c k0 fuel ds = limbs c.w (digitSum ds) := by
  induction fuel generalizing ds with
  | zero => exact parseSerial_eq hc ds
  | succ fuel ih =>
    rw [parseDc]
    split
    · exact parseSerial_eq hc ds
    · have hlow : (ds.drop (ds.length - ds.length / 2)).length = ds.length / 2 := by
        rw [List.length_drop]
        omega
      have hsplit := digitSum_append (ds.take (ds.length - ds.length / 2)) (ds.drop (ds.length - ds.length / 2))
      rw [List.take_append_drop, hlow] at hsplit
      simp only [ih, powTen_eq hc, mulMag_limbs hc, addMag_limbs (limbWidth_pos hc), hsplit]

/-! ### Formatting (R234) -/

/-- The digit-serial formatter writes the remainders of the repeated division by ten. -/
theorem formatSerialLoop_limbs (fuel x : Nat) (acc : List Nat) :
    formatSerialLoop c fuel (limbs c.w x) (acc.map digitChar) = (decDigitsAux fuel x acc).map digitChar := by
  have hw := limbWidth_pos hc
  induction fuel generalizing x acc with
  | zero => rfl
  | succ fuel ih =>
    rw [formatSerialLoop, decDigitsAux, val_limbs hw]
    split
    · rfl
    · simp only [divmodMag_limbs hc x (show 0 < 10 by norm_num), val_limbs hw]
      exact ih (x / 10) (x % 10 :: acc)

theorem formatSerial_limbs (x : Nat) : formatSerial c (limbs c.w x) = (decDigits x).map digitChar := by
  rw [formatSerial, val_limbs (limbWidth_pos hc)]
  exact formatSerialLoop_limbs hc x x []

end

/-- Padding to at least one digit makes no difference between the digits shown and the digits of the number. -/
theorem zeros_append_shownDigits {e : Nat} (he : 1 ≤ e) (r : Nat) :
    List.replicate (e - (shownDigits r).length) 0 ++ shownDigits r =
      List.replicate (e - (decDigits r).length) 0 ++ decDigits r := by
  by_cases hr : r = 0
  · obtain ⟨k, rfl⟩ := Nat.exists_eq_add_of_le' he
    subst hr
    exact List.replicate_succ'.symm.trans (List.append_nil _).symm
  · rw [shownDigits_of_ne_zero hr]

/-- The digits of a number are those of its quotient by a power of ten and, padded, those of its remainder (R234). -/
theorem decDigits_split {e x : Nat} (he : 1 ≤ e) (hx : 10 ^ e ≤ x) :
    decDigits (x / 10 ^ e) ++
      (List.replicate (e - (shownDigits (x % 10 ^ e)).length) 0 ++ shownDigits (x % 10 ^ e)) = decDigits x := by
  have hpos : 0 < x / 10 ^ e := Nat.div_pos hx (by positivity)
  have hlen : (Nat.digits 10 (x % 10 ^ e)).length ≤ e :=
    (Nat.digits_length_le_iff (by norm_num) _).2 (Nat.mod_lt _ (by positivity))
  have happend := Nat.digits_append_zeroes_append_digits (b := 10) (n := x % 10 ^ e)
    (k := e - (Nat.digits 10 (x % 10 ^ e)).length) (by norm_num) hpos
  rw [Nat.add_sub_cancel' hlen, Nat.mod_add_div] at happend
  rw [zeros_append_shownDigits he]
  simp only [decDigits_eq_digits, ← happend, List.reverse_append, List.reverse_replicate, List.length_reverse]

theorem zeroPad_map (ds : List Nat) (e : Nat) :
    zeroPad (ds.map digitChar) e = (List.replicate (e - ds.length) 0 ++ ds).map digitChar := by
  rw [zeroPad, List.map_append, List.map_replicate, List.length_map]

/-- The divide-and-conquer formatter writes the digits, whatever the base size and the bound on the depth. -/
theorem formatDc_limbs {c : Config} (hc : c.Legal) {f0 : Nat} {e : List Nat → Nat}
    (he : ∀ z, NormalMag c.w z → f0 < bitlen c.w z → 1 ≤ e z ∧ 10 ^ e z ≤ val c.w z) (fuel x : Nat) :
    formatDc c f0 e fuel (limbs c.w x) = (decDigits x).map digitChar := by
  have hw := limbWidth_pos hc
  induction fuel generalizing x with
  | zero => exact formatSerial_limbs hc x
  | succ fuel ih =>
    rw [formatDc]
    split
    · exact formatSerial_limbs hc x
    · rename_i hbase
      obtain ⟨hpos, hle⟩ := he (limbs c.w x) (normalMag_limbs hw x) (Nat.lt_of_not_le hbase)
      rw [val_limbs hw] at hle
      generalize e (limbs c.w x) = j at hpos hle
      have hlow : (if x % 10 ^ j = 0 then [digitChar 0] else (decDigits (x % 10 ^ j)).map digitChar) =
          (shownDigits (x % 10 ^ j)).map digitChar := (apply_ite (List.map digitChar) _ [0] _).symm
      simp only [powTen_eq hc, divmodMag_limbs hc x (show 0 < 10 ^ j by positivity), val_limbs hw, ih, hlow,
        zeroPad_map, ← List.map_append, decDigits_split hpos hle]

/-- Settles O51: both parsers return the magnitude of the digits' value. -/
theorem parsersAgree : Obligations.ParsersAgree := by
  intro c ds k0 hc _ _
  rw [← digitSum_eq_ofDigits]
  exact ⟨parseSerial_eq hc ds, parseDc_eq hc k0 ds.length ds⟩

/-- Settles O52: both formatters write the digits of the value. -/
theorem formattersAgree : Obligations.FormattersAgree := by
  intro c m f0 e hc hm _ _ he
  have hw := limbWidth_pos hc
  rw [hm.eq_limbs hw, val_limbs hw, ← decDigits_eq_digits]
  exact ⟨formatSerial_limbs hc _, formatDc_limbs hc he _ _⟩

end Sys2Proof.Machine
end

section
/-! SUPPORT. Family 5, the commands (spec/45_text.md R236 to R240): PARSE and PARSES are one shape that differs in what
malformed text does and in the response of success; FORMAT and TBW are one store of a text. -/

namespace Sys2Proof.Machine

open Sys2Proof.Claims

/-! ### Reading text (R12, R43, R277) -/

theorem State.bytesFrom_eq_textAt (s : State) (addr len : Addr) :
    s.bytesFrom addr.toNat len.toNat = textAt s addr len := by
  refine List.ext_getElem? fun k => ?_
  by_cases hk : k < len.toNat
  · rw [s.getElem_bytesFrom _ _ _ hk]
    simp [textAt, hk]
  · rw [List.getElem?_eq_none (by simpa using hk), List.getElem?_eq_none (by simpa [textAt] using hk)]

theorem State.withText_of_le {s : State} {addr : Addr} {n : Nat} (h : addr.toNat + n ≤ s.cfg.tbufBytes)
    (k : List Byte → State) : s.withText addr n k = k (s.bytesFrom addr.toNat n) := by
  rcases s.withText_cases addr n k with ⟨-, he⟩ | ⟨hlt, -⟩
  · exact he
  · omega

theorem State.withText_of_lt {s : State} {addr : Addr} {n : Nat} (h : s.cfg.tbufBytes < addr.toNat + n)
    (k : List Byte → State) : s.withText addr n k = s.faulted 0x20#8 0x06#8 (addr.setWidth 64) := by
  rcases s.withText_cases addr n k with ⟨hle, -⟩ | ⟨-, he⟩
  · omega
  · exact he

/-- Behind the halted test the command reads its text; malformed text leaves `malformed`, and the value of a numeral is
written back to `rd` with response data `d`. -/
def ParsesText (i : Instr) (rd : Reg) (addr len : Addr) (malformed : State → State) (d : BitVec 64) : Prop :=
  ∀ s : State, exec i s = s.unlessHalted
    (s.withText addr len.toNat fun t =>
      match parseText s.cfg.w t with
      | none => malformed s
      | some v => s.writeBack rd v d)

theorem parsesText_parse (rd : Reg) (addr len : Addr) :
    ParsesText (.parse rd addr len) rd addr len (·.faulted 0x02#8 0x02#8 0#64) 0#64 := fun _ => rfl

theorem parsesText_parses (rd : Reg) (addr len : Addr) :
    ParsesText (.parses rd addr len) rd addr len
      (fun s => { s with sr := s.sr ||| 0x40#8, rsp := some ⟨0x00#8, 0#64⟩ }) 1#64 := fun _ => rfl

section
variable {i : Instr} {rd : Reg} {addr len : Addr} {malformed : State → State} {d : BitVec 64} {s : State}

theorem ParsesText.exec_of_lt (h : ParsesText i rd addr len malformed d) (hs : s.Running)
    (hlt : s.cfg.tbufBytes < addr.toNat + len.toNat) :
    exec i s = .next (s.faulted 0x20#8 0x06#8 (addr.setWidth 64)) := by
  rw [h s, State.unlessHalted_running hs, State.withText_of_lt hlt]

theorem ParsesText.exec_of_malformed (h : ParsesText i rd addr len malformed d) (hs : s.Running)
    (hle : addr.toNat + len.toNat ≤ s.cfg.tbufBytes) (ht : parseText s.cfg.w (textAt s addr len) = none) :
    exec i s = .next (malformed s) := by
  rw [h s, State.unlessHalted_running hs, State.withText_of_le hle, s.bytesFrom_eq_textAt, ht]

theorem ParsesText.exec_of_numeral (h : ParsesText i rd addr len malformed d) (hs : s.Running)
    (hle : addr.toNat + len.toNat ≤ s.cfg.tbufBytes) {v : BigInt}
    (ht : parseText s.cfg.w (textAt s addr len) = some v) : exec i s = .next (s.writeBack rd v d) := by
  rw [h s, State.unlessHalted_running hs, State.withText_of_le hle, s.bytesFrom_eq_textAt, ht]

/-- The outcomes in the order of the tests: RANGE, malformed text, the value written, ALLOC (R236, R237). -/
theorem ParsesText.outcomes (h : ParsesText i rd addr len malformed d) (hs : s.Running) :
    (s.cfg.tbufBytes < addr.toNat + len.toNat → exec i s = .next (s.faulted 0x20#8 0x06#8 (addr.setWidth 64))) ∧
    (addr.toNat + len.toNat ≤ s.cfg.tbufBytes →
      (parseText s.cfg.w (textAt s addr len) = none → exec i s = .next (malformed s)) ∧
      ∀ v, parseText s.cfg.w (textAt s addr len) = some v →
        (fits s.cfg v.mag = true → exec i s = .next (s.wrote rd v d)) ∧
        (fits s.cfg v.mag = false → ∃ o, exec i s = .next (s.exhausted rd o))) := by
  refine ⟨h.exec_of_lt hs, fun hle => ⟨h.exec_of_malformed hs hle, fun v hv =>
    ⟨fun hf => ?_, fun hf => ⟨s.freeDest rd, ?_⟩⟩⟩⟩
  · rw [h.exec_of_numeral hs hle hv, State.writeBack_of_fits hf]
  · rw [h.exec_of_numeral hs hle hv, State.writeBack_of_not_fits hf]

end

/-- Settles O53: the shape of both parsing commands, malformed text being the fault FMT. -/
theorem parseWritesNumeralValue : Obligations.ParseWritesNumeralValue := fun rd addr len =>
  ⟨encodedAs_op (.parse rd addr len), fun _ hs => (parsesText_parse rd addr len).outcomes hs⟩

/-- Settles O54: the shape of both parsing commands, malformed text setting PFAIL only. -/
theorem parsesReportsFailureWithoutFault : Obligations.ParsesReportsFailureWithoutFault := fun rd addr len =>
  ⟨encodedAs_op (.parses rd addr len), fun _ hs => (parsesText_parses rd addr len).outcomes hs⟩

/-- Settles O57: the one byte read is the byte at the address. -/
theorem tbrReadsByte : Obligations.TbrReadsByte := by
  refine fun addr => ⟨encodedAs_op (.tbr addr), fun s hs => ?_⟩
  have hexec : exec (.tbr addr) s =
      .next (s.withText addr 1 fun t => s.answered ((t.headD 0#8).setWidth 64)) := State.unlessHalted_running hs _
  refine ⟨fun hout => ?_, fun hin => ?_⟩
  · rw [hexec, State.withText_of_lt (Nat.lt_succ_of_le hout)]
  · rw [hexec, State.withText_of_le hin]
    rfl

/-! ### Storing text (R43, R47, R277) -/

/-- `s` with `bytes` stored from address `a` up and the response (OK, d). -/
def State.storedText (s : State) (a : Nat) (bytes : List Byte) (d : BitVec 64) : State :=
  { s with tbuf := Tbuf.writeAll s.tbuf a bytes, rsp := some ⟨0x00#8, d⟩ }

section
variable {s : State}

/-- A stored text reads back byte for byte, and every other byte is as before (R43, R47). -/
theorem State.tbufByte_storedText (a : Nat) (bytes : List Byte) (d : BitVec 64) (k : Nat) :
    (s.storedText a bytes d).tbufByte k =
      if h : a ≤ k ∧ k < a + bytes.length then bytes[k - a] else s.tbufByte k := by
  simp only [State.tbufByte, State.storedText, Tbuf.read_writeAll]
  split
  · rename_i h
    rw [List.getElem?_eq_getElem (by omega), Option.getD_some]
  · rfl

theorem State.storeText_of_le {addr : Addr} {bytes : List Byte} (h : addr.toNat + bytes.length ≤ s.cfg.tbufBytes)
    (d : BitVec 64) : s.storeText addr bytes d = s.storedText addr.toNat bytes d := by
  rcases s.storeText_cases addr bytes d with ⟨-, he⟩ | ⟨hlt, -⟩
  · exact he
  · omega

theorem State.storeText_of_lt {addr : Addr} {bytes : List Byte} (h : s.cfg.tbufBytes < addr.toNat + bytes.length)
    (d : BitVec 64) : s.storeText addr bytes d = s.faulted 0x20#8 0x06#8 (addr.setWidth 64) := by
  rcases s.storeText_cases addr bytes d with ⟨hle, -⟩ | ⟨-, he⟩
  · omega
  · exact he

end

theorem takesOne_format (rs1 : Reg) (addr : Addr) : TakesOne (.format rs1 addr) rs1 fun s v =>
    s.storeText addr (formatText s.cfg.w v) (BitVec.ofNat 64 (formatText s.cfg.w v).length) := fun _ => rfl

/-- Settles O55: the numeral is stored as one text. -/
theorem formatWritesNumeral : Obligations.FormatWritesNumeral := by
  refine fun rs1 addr => ⟨encodedAs_op (.format rs1 addr), (takesOne_format rs1 addr).readsOne, fun s v hs hv => ?_⟩
  rw [(takesOne_format rs1 addr).exec_eq hs hv]
  generalize formatText s.cfg.w v = text
  refine ⟨fun hlt => ?_, fun hle => ⟨s.storedText addr.toNat text _, ?_, rfl, fun k b hb => ?_, fun a ha => ?_⟩⟩
  · rw [State.storeText_of_lt hlt]
  · rw [State.storeText_of_le hle]
  · obtain ⟨hk, rfl⟩ := List.getElem?_eq_some_iff.1 hb
    rw [State.tbufByte_storedText, dif_pos (by omega)]
    simp
  · rw [State.tbufByte_storedText, dif_neg (by omega)]

/-- Settles O56: the byte is stored as a text of length 1. -/
theorem tbwStoresByte : Obligations.TbwStoresByte := by
  refine fun addr byte => ⟨encodedAs_op (.tbw addr byte), fun s hs => ?_⟩
  have hexec : exec (.tbw addr byte) s = .next (s.storeText addr [byte] 0#64) := State.unlessHalted_running hs _
  rw [hexec]
  refine ⟨fun hout => ?_, fun hin => ⟨s.storedText addr.toNat [byte] 0#64, ?_, rfl, ?_, fun a ha => ?_⟩⟩
  · rw [State.storeText_of_lt (Nat.lt_succ_of_le hout)]
  · rw [State.storeText_of_le (bytes := [byte]) hin]
  · rw [State.tbufByte_storedText, dif_pos (by simp)]
    simp
  · rw [State.tbufByte_storedText, dif_neg (by rw [List.length_singleton]; omega)]

end Sys2Proof.Machine
end

section
/-! SUPPORT. Family 6, the system commands (spec/46_system.md R260, R261): RDSR and CLRSR. -/

namespace Sys2Proof

/-- The 96 bits that decode to a command are its encoding and no others (R62, R67). -/
theorem decode_eq_ok_iff_encode {word : CmdWord} {imm : Imm} {i : Instr} :
    decode word imm = .ok i ↔ i.WellFormed ∧ encode i = (word, imm) := by
  refine ⟨decodeAcceptsOnlyEncodings word imm i, fun ⟨hwf, henc⟩ => ?_⟩
  have h := decode_encode hwf
  rwa [henc] at h

end Sys2Proof

namespace Sys2Proof.Machine

open Sys2Proof.Claims

/-! ### RDSR (R260) -/

theorem encode_rdsr : encode .rdsr = (0x00000060#32, 0#64) := rfl

theorem exec_rdsr (s : State) : exec .rdsr s = .next (s.answered (s.sr.setWidth 64)) := rfl

/-- Settles O58: the bits that decode to RDSR are its encoding, and no halted test stands before its response. -/
theorem rdsrReadsStatus : Obligations.RdsrReadsStatus := by
  refine ⟨encodedAs_op .rdsr, fun word imm _ => ?_, exec_rdsr⟩
  rw [decode_eq_ok_iff_encode, encode_rdsr, Prod.mk.injEq, eq_comm (b := word), eq_comm (b := imm)]
  exact and_iff_right rfl

/-! ### CLRSR (R261) -/

/-- The bits CLRSR can clear are all but ALLOC, bit 2, and HALT, bit 7 (R28, R261). -/
theorem getLsbD_srClearable (k : Nat) : srClearable.getLsbD k = decide (k ∈ [0, 1, 3, 4, 5, 6]) := by
  have hclear : ∀ k ∈ [0, 1, 3, 4, 5, 6], srClearable.getLsbD k = true := by decide
  exact Bool.eq_iff_iff.2 ⟨fun h => decide_eq_true (mem_of_srClearable h), fun h => hclear k (of_decide_eq_true h)⟩

/-- A word with CLRSR's opcode can be accepted as CLRSR only, whose immediate mask covers `cmd_imm[63:8]` (R65, R67). -/
theorem exists_decode_error_clrsr {imm : Imm} (h : imm.extractLsb' 8 56 ≠ 0#56) :
    ∃ e, decode 0x00000061#32 imm = .error e := by
  refine exists_decode_error fun o ho => h ?_
  obtain rfl : o = .clrsr := Option.some.inj (ho.ofCode_eq.symm.trans (Op.ofCode_code .clrsr))
  obtain ⟨-, himm, -⟩ := ho
  exact imm_high_eq_zero himm rfl

/-- Settles O59: behind the halted test `SR` loses the bits of the mask that can be cleared. -/
theorem clrsrClearsMaskedBits : Obligations.ClrsrClearsMaskedBits := by
  refine fun mask => ⟨encodedAs_op (.clrsr mask), fun s hs => ?_, fun _ hh => State.unlessHalted_halted hh _,
    fun _ => exists_decode_error_clrsr⟩
  refine ⟨{ s with sr := clearedSr s.sr mask, rsp := some ⟨0x00#8, 0#64⟩ }, State.unlessHalted_running hs _, rfl,
    fun k => ?_⟩
  rw [getLsbD_clearedSr, getLsbD_srClearable]

end Sys2Proof.Machine
end

section
/-! SUPPORT. How a command ends (spec/60_exceptions.md R270 to R281): a response other than OK is the taking of a fault,
while HALT is 1 that fault is HALTED, and HALT changes by ALLOC and by reset only. -/

namespace Sys2Proof.Machine

variable {i : Instr} {s t : State}

/-! ### Refused commands (R275, R278) -/

/-- Settles O6: the offered bits do not decode, and the refusal of a running CORE is ILLCMD with their word. -/
theorem illegalCommandTakesIllcmd : Obligations.IllegalCommandTakesIllcmd := by
  intro s word imm rest e hinput hs hdecode
  rw [step_of_input_cons hinput, runEvent_command, runCommand_of_decode_error hdecode]
  exact illegalCommand_running (s := { s with input := rest }) hs word

/-- HALTED sets no bit of `SR`: only the response is new (R278). -/
theorem State.faulted_no_bits (s : State) (status : BitVec 8) (d : BitVec 64) :
    s.faulted 0x00#8 status d = { s with rsp := some ⟨status, d⟩ } := by
  rw [State.faulted, BitVec.or_zero]

/-- While HALT is 1 the only effect of a command other than RDSR is the refusal. -/
theorem Effect.eq_of_halted (h : Effect i s t) (hs : s.sr.getLsbD 7 = true) (hi : i ≠ .rdsr) :
    t = s.faulted 0x00#8 0x07#8 0#64 := by
  have hrun : ¬s.Running := by simp [hs]
  cases h with
  | halted => rfl
  | answered _ h => exact absurd h (not_or.2 ⟨hrun, hi⟩)
  | illegal h | uninit h | range h | divz h | fmt h | alloc h | wrote h | wrote2 h | dropped h | pfail h | byteStored h
  | textStored h | cleared h => exact absurd h hrun

/-- While HALT is 1 every 96 bits but a well-formed RDSR are refused (R278, notes/assumptions/12.md). -/
theorem runCommand_halted {word : CmdWord} {imm : Imm} (hs : s.sr.getLsbD 7 = true)
    (hrdsr : decode word imm ≠ .ok .rdsr) : runCommand word imm s = .next (s.faulted 0x00#8 0x07#8 0#64) := by
  cases hd : decode word imm with
  | error e => rw [runCommand_of_decode_error hd, illegalCommand, State.unlessHalted_halted hs]
  | ok i =>
    obtain ⟨t, ht, heffect⟩ := exec_effect i s
    have hi : i ≠ .rdsr := fun h => hrdsr (h ▸ hd)
    rw [runCommand_of_decode_ok hd, ht, heffect.eq_of_halted hs hi]

/-! ### A response other than OK is a fault taken (R279) -/

/-- The fault a command ends with, ALLOC with the destinations the command names. -/
theorem Effect.eq_takeFault (h : Effect i s t) {c : BitVec 8} {d : BitVec 64} (hrsp : t.rsp = some ⟨c, d⟩)
    (hc : c ≠ 0x00#8) : ∃ f : CmdFault, t = s.takeFault f ∧ ∀ ds, f = .alloc ds → ds = i.dests := by
  cases h with
  | halted => exact ⟨.halted, rfl, nofun⟩
  | illegal _ _ _ _ _ word => exact ⟨.illcmd word, rfl, nofun⟩
  | uninit _ r => exact ⟨.uninit r, rfl, nofun⟩
  | range _ addr => exact ⟨.range addr, rfl, nofun⟩
  | divz => exact ⟨.divz, rfl, nofun⟩
  | fmt => exact ⟨.fmt, rfl, nofun⟩
  | alloc => exact ⟨.alloc i.dests, rfl, fun _ h => (CmdFault.alloc.inj h).symm⟩
  | answered | wrote | wrote2 | dropped | pfail | byteStored | textStored | cleared =>
    cases hrsp
    exact absurd rfl hc

/-- The same for the 96 bits of a command: those that do not decode end with HALTED or ILLCMD. -/
theorem runCommand_eq_takeFault {word : CmdWord} {imm : Imm} (h : runCommand word imm s = .next t) {c : BitVec 8}
    {d : BitVec 64} (hrsp : t.rsp = some ⟨c, d⟩) (hc : c ≠ 0x00#8) :
    ∃ f : CmdFault, t = s.takeFault f ∧ ∀ ds, f = .alloc ds → ∃ i, decode word imm = .ok i ∧ ds = i.dests := by
  cases hd : decode word imm with
  | error e =>
    rw [runCommand_of_decode_error hd, illegalCommand, State.unlessHalted] at h
    cases h
    split
    · exact ⟨.halted, rfl, nofun⟩
    · exact ⟨.illcmd word, rfl, nofun⟩
  | ok i =>
    rw [runCommand_of_decode_ok hd] at h
    obtain ⟨f, hf, hds⟩ := (effect_of_exec h).eq_takeFault hrsp hc
    exact ⟨f, hf, fun ds h => ⟨i, rfl, hds ds h⟩⟩

/-- Settles O16: the command ended by taking a fault, which changes `SR` as its cause says and, for ALLOC, the command's
destinations. -/
theorem faultsArePrecise : Obligations.FaultsArePrecise := by
  intro s t word imm c d h hrsp hc
  obtain ⟨f, rfl, hds⟩ := runCommand_eq_takeFault h hrsp hc
  obtain rfl : f.status = c := congrArg Response.status (Option.some.inj hrsp)
  refine ⟨rfl, rfl, rfl, rfl, ?_⟩
  cases f with
  | alloc ds =>
    obtain ⟨i, hi, rfl⟩ := hds ds rfl
    exact ⟨fun hne => absurd rfl hne, fun _ => ⟨rfl, i, hi, fun r hr => (getElem_loseRegs ..).trans (if_neg hr)⟩⟩
  | divz | fmt | illcmd | uninit | range | halted => exact ⟨fun _ => ⟨rfl, rfl⟩, nofun⟩

/-! ### When HALT changes (R28, R278) -/

/-- A command leaves HALT as it was, or sets it by ALLOC. -/
theorem Effect.halt_cases (h : Effect i s t) :
    t.sr.getLsbD 7 = s.sr.getLsbD 7 ∨ s.Running ∧ t.rsp = some ⟨0x03#8, 0#64⟩ := by
  cases h with
  | alloc hs => exact .inr ⟨hs, rfl⟩
  | cleared _ mask =>
    have hkeep : srClearable.getLsbD 7 = false := rfl
    exact .inl (by rw [getLsbD_clearedSr, hkeep, Bool.and_false, Bool.not_false, Bool.and_true])
  | halted | illegal | uninit | range | divz | fmt | pfail => exact .inl (by simp [srPfail])
  | answered | wrote | wrote2 | dropped | byteStored | textStored => exact .inl rfl

theorem runCommand_halt_cases {word : CmdWord} {imm : Imm} (h : runCommand word imm s = .next t) :
    t.sr.getLsbD 7 = s.sr.getLsbD 7 ∨ s.Running ∧ t.rsp = some ⟨0x03#8, 0#64⟩ := by
  cases hd : decode word imm with
  | error e =>
    rw [runCommand_of_decode_error hd, illegalCommand, State.unlessHalted] at h
    cases h
    refine .inl ?_
    split <;> simp [CmdFault.srBits]
  | ok i =>
    rw [runCommand_of_decode_ok hd] at h
    exact (effect_of_exec h).halt_cases

theorem halt_neither_rises_nor_falls {p q : Prop} (h : t.sr.getLsbD 7 = s.sr.getLsbD 7) :
    (s.sr.getLsbD 7 = false → t.sr.getLsbD 7 = true → p) ∧ (s.sr.getLsbD 7 = true → t.sr.getLsbD 7 = false → q) := by
  rw [h]
  exact ⟨fun hs ht => Bool.noConfusion (hs.symm.trans ht), fun hs ht => Bool.noConfusion (hs.symm.trans ht)⟩

/-- Settles O7: while HALT is 1 a well-formed RDSR answers and all other bits are refused; of the things a step can be,
only ALLOC raises HALT and only reset clears it. -/
theorem haltedRefusesAllButRdsr : Obligations.HaltedRefusesAllButRdsr := by
  refine ⟨fun s word imm rest hinput hs => ?_, fun s t h => ?_⟩
  · rw [step_of_input_cons hinput, runEvent_command]
    refine ⟨fun hrdsr => ?_, fun hrdsr => ?_⟩
    · rw [runCommand_of_decode_ok hrdsr, exec_rdsr]
    · rw [runCommand_halted (s := { s with input := rest }) hs hrdsr, State.faulted_no_bits]
  · cases hinput : s.input with
    | nil =>
      rw [step_of_input_nil hinput] at h
      cases h
      exact halt_neither_rises_nor_falls rfl
    | cons e rest =>
      rw [step_of_input_cons hinput] at h
      cases e with
      | reset =>
        cases h
        exact ⟨fun _ ht => by simp at ht, fun _ _ => ⟨rest, rfl⟩⟩
      | command word imm =>
        rcases runCommand_halt_cases h with heq | ⟨hrun, hrsp⟩
        · exact halt_neither_rises_nor_falls heq
        · exact ⟨fun _ _ => hrsp, fun hs _ => Bool.noConfusion (hrun.symm.trans hs)⟩

end Sys2Proof.Machine
end

section
/-! SUPPORT. UNINIT and RANGE (spec/60_exceptions.md R276, R277): the commands that read one or two registers, and the
first of these that holds no value; the accesses that leave `TBUF`. -/

namespace Sys2Proof.Machine

open Sys2Proof.Claims

section
variable {s : State} {i : Instr}

theorem firstEmpty_cons_of_empty {r : Reg} (h : s.Empty r) (rs : List Reg) : firstEmpty s (r :: rs) = some r := by
  have hx : s.x[r] = none := h
  simp [firstEmpty, State.valid, hx]

theorem firstEmpty_cons_of_holds {r : Reg} {v : BigInt} (h : s.Holds r v) (rs : List Reg) :
    firstEmpty s (r :: rs) = firstEmpty s rs := by
  have hx : s.x[r] = some v := h
  simp [firstEmpty, State.valid, hx]

theorem empty_or_holds (s : State) (r : Reg) : s.Empty r ∨ ∃ v, s.Holds r v := by
  cases h : s.x[r] with
  | none => exact .inl h
  | some v => exact .inr ⟨v, h⟩

/-- A command with one source reports it where it is empty (R276). -/
theorem exec_of_firstEmpty_one {rs1 r : Reg} (hs : s.Running) (hr : firstEmpty s [rs1] = some r)
    (h : ReadsOne i rs1) : exec i s = .next (s.faulted 0x10#8 0x05#8 (BitVec.ofNat 64 r.val)) := by
  rcases empty_or_holds s rs1 with he | ⟨v, hv⟩
  · obtain rfl := Option.some.inj ((firstEmpty_cons_of_empty he _).symm.trans hr)
    exact h s hs he
  · cases (firstEmpty_cons_of_holds hv _).symm.trans hr

/-- A command with two sources reports the first empty one (R276, R281). -/
theorem exec_of_firstEmpty_two {rs1 rs2 r : Reg} (hs : s.Running) (hr : firstEmpty s [rs1, rs2] = some r)
    (h : ReadsTwo i rs1 rs2) :
    exec i s = .next (s.faulted 0x10#8 0x05#8 (BitVec.ofNat 64 r.val)) := by
  obtain ⟨h1, h2⟩ := h s hs
  rcases empty_or_holds s rs1 with he | ⟨a, ha⟩
  · obtain rfl := Option.some.inj ((firstEmpty_cons_of_empty he _).symm.trans hr)
    exact h1 he
  rw [firstEmpty_cons_of_holds ha] at hr
  rcases empty_or_holds s rs2 with he | ⟨b, hb⟩
  · obtain rfl := Option.some.inj ((firstEmpty_cons_of_empty he _).symm.trans hr)
    exact h2 a ha he
  · cases (firstEmpty_cons_of_holds hb _).symm.trans hr

end

/-- Settles O14: behind the halted test a command reads its one source, or its two in order; DIVMOD does where it is well
formed. -/
theorem emptySourceTakesUninit : Obligations.EmptySourceTakesUninit := by
  intro s i r hwf hs hr
  cases i with
  | ldi | drop | parse | parses | tbw | tbr | rdsr | clrsr => cases hr
  | mov rd rs1 | abs rd rs1 | neg rd rs1 | inc rd rs1 | dec rd rs1 | not rd rs1 | pow rd rs1 e | shl rd rs1 e
  | shr rd rs1 e | iszero rs1 | isneg rs1 | size rs1 | clz rs1 | format rs1 addr =>
    exact exec_of_firstEmpty_one hs hr (TakesOne.readsOne fun _ => rfl)
  | ceq rs1 rs2 | cne rs1 rs2 | clt rs1 rs2 | cle rs1 rs2 | cgt rs1 rs2 | cge rs1 rs2 | add rd rs1 rs2 | sub rd rs1 rs2
  | mul rd rs1 rs2 | and rd rs1 rs2 | or rd rs1 rs2 | xor rd rs1 rs2 | div rd rs1 rs2 | mod rd rs1 rs2 =>
    exact exec_of_firstEmpty_two hs hr (TakesTwo.readsTwo fun _ => rfl)
  | divmod rd rd2 rs1 rs2 =>
    have hne : rd ≠ rd2 := by simpa [Instr.WellFormed, Instr.wellFormed] using hwf
    exact exec_of_firstEmpty_two hs hr (takesDivision_divmod hne rs1 rs2).divides.1

/-- Settles O15: the range clause of each of the five commands. -/
theorem outOfRangeTakesRange : Obligations.OutOfRangeTakesRange := by
  refine fun s addr hs => ⟨fun hlt => ?_, fun rd len hlt => ?_, fun rs1 v hv hlt => ?_⟩
  · exact ⟨fun byte => ((tbwStoresByte addr byte).2 s hs).1 (Nat.le_of_lt_succ hlt),
      ((tbrReadsByte addr).2 s hs).1 (Nat.le_of_lt_succ hlt)⟩
  · exact ⟨(parsesText_parse rd addr len).exec_of_lt hs hlt, (parsesText_parses rd addr len).exec_of_lt hs hlt⟩
  · obtain ⟨-, -, hformat⟩ := formatWritesNumeral rs1 addr
    exact (hformat s v hs hv).1 hlt

end Sys2Proof.Machine
end

section
/-! SUPPORT. The status a command can end with (spec/60_exceptions.md R270 to R281), by the shape of the command: one rule
per shape, which asks of a condition on statuses that it hold of each status the shape can answer, where its cause applies. -/

namespace Sys2Proof.Machine

open Sys2Proof.Claims

/-- Whatever next state the command answers, the status of its response meets `p`. -/
def EndsIn (i : Instr) (s : State) (p : BitVec 8 → Prop) : Prop :=
  ∀ (t : State) (c : BitVec 8) (d : BitVec 64), exec i s = .next t → t.rsp = some ⟨c, d⟩ → p c

section
variable {i : Instr} {s : State} {p : BitVec 8 → Prop} {rd rd2 rs1 rs2 : Reg} {d : BitVec 64}

theorem endsIn_of_exec_eq {u : State} {c : BitVec 8} (h : exec i s = .next u) (hrsp : u.rsp = some ⟨c, d⟩)
    (hp : p c) : EndsIn i s p := by
  intro t c' d' ht hrsp'
  cases h.symm.trans ht
  cases hrsp.symm.trans hrsp'
  exact hp

/-- A register write ends with OK, or with ALLOC where the value does not fit (R274). -/
theorem endsIn_of_writeBack {v : BigInt} (h : exec i s = .next (s.writeBack rd v d)) (hok : p 0x00#8)
    (halloc : fits s.cfg v.mag = false → p 0x03#8) : EndsIn i s p := by
  rcases s.writeBack_cases rd v d with ⟨-, he⟩ | ⟨hf, he⟩ <;> rw [he] at h
  · exact endsIn_of_exec_eq h rfl hok
  · exact endsIn_of_exec_eq h rfl (halloc hf)

theorem endsIn_of_writeBack2 {q r : BigInt} (h : exec i s = .next (s.writeBack2 rd rd2 q r)) (hok : p 0x00#8)
    (halloc : p 0x03#8) : EndsIn i s p := by
  rcases s.writeBack2_cases rd rd2 q r with ⟨-, he⟩ | ⟨-, he⟩ <;> rw [he] at h
  · exact endsIn_of_exec_eq h rfl hok
  · exact endsIn_of_exec_eq h rfl halloc

/-- A command with one source ends with UNINIT (R276), or as it does where the source holds a value. -/
theorem endsIn_of_readsOne (hs : s.Running) (h : ReadsOne i rs1) (huninit : ∀ r ∈ [rs1], s.Empty r → p 0x05#8)
    (hk : ∀ v, s.Holds rs1 v → EndsIn i s p) : EndsIn i s p := by
  rcases empty_or_holds s rs1 with he | ⟨v, hv⟩
  · exact endsIn_of_exec_eq (h s hs he) rfl (huninit rs1 (by simp) he)
  · exact hk v hv

/-- A command with two sources ends with UNINIT (R276), or as it does where both hold a value. -/
theorem endsIn_of_readsTwo (hs : s.Running) (h : ReadsTwo i rs1 rs2)
    (huninit : ∀ r ∈ [rs1, rs2], s.Empty r → p 0x05#8)
    (hk : ∀ a b, s.Holds rs1 a → s.Holds rs2 b → EndsIn i s p) : EndsIn i s p := by
  obtain ⟨h1, h2⟩ := h s hs
  rcases empty_or_holds s rs1 with he | ⟨a, ha⟩
  · exact endsIn_of_exec_eq (h1 he) rfl (huninit rs1 (by simp) he)
  rcases empty_or_holds s rs2 with he | ⟨b, hb⟩
  · exact endsIn_of_exec_eq (h2 a ha he) rfl (huninit rs2 (by simp) he)
  · exact hk a b ha hb

/-- One source, and the response OK. -/
theorem endsIn_of_respondOne {f : State → BigInt → BitVec 64} (hs : s.Running)
    (huninit : ∀ r ∈ [rs1], s.Empty r → p 0x05#8) (hok : p 0x00#8)
    (h : TakesOne i rs1 fun s v => s.respond (f s v)) : EndsIn i s p :=
  endsIn_of_readsOne hs h.readsOne huninit fun _ hv => endsIn_of_exec_eq (h.exec_eq hs hv) rfl hok

/-- Two sources, and the response OK. -/
theorem endsIn_of_respondTwo {f : State → BigInt → BigInt → BitVec 64} (hs : s.Running)
    (huninit : ∀ r ∈ [rs1, rs2], s.Empty r → p 0x05#8) (hok : p 0x00#8)
    (h : TakesTwo i rs1 rs2 fun s a b => s.respond (f s a b)) : EndsIn i s p :=
  endsIn_of_readsTwo hs h.readsTwo huninit fun _ _ ha hb => endsIn_of_exec_eq (h.exec_eq hs ha hb) rfl hok

/-- One source, and a register write. -/
theorem endsIn_of_writeOne {f : State → BigInt → BigInt} (hs : s.Running)
    (huninit : ∀ r ∈ [rs1], s.Empty r → p 0x05#8) (hok : p 0x00#8)
    (halloc : ∀ m, fits s.cfg m = false → p 0x03#8)
    (h : TakesOne i rs1 fun s v => s.writeBack rd (f s v) d) : EndsIn i s p :=
  endsIn_of_readsOne hs h.readsOne huninit fun _ hv => endsIn_of_writeBack (h.exec_eq hs hv) hok (halloc _)

/-- Two sources, and a register write. -/
theorem endsIn_of_writeTwo {f : State → BigInt → BigInt → BigInt} (hs : s.Running)
    (huninit : ∀ r ∈ [rs1, rs2], s.Empty r → p 0x05#8) (hok : p 0x00#8)
    (halloc : ∀ m, fits s.cfg m = false → p 0x03#8)
    (h : TakesTwo i rs1 rs2 fun s a b => s.writeBack rd (f s a b) d) : EndsIn i s p :=
  endsIn_of_readsTwo hs h.readsTwo huninit fun _ _ ha hb => endsIn_of_writeBack (h.exec_eq hs ha hb) hok (halloc _)

/-- A division ends with UNINIT, with DIVZ (R271), or as it does where the divisor is not zero. -/
theorem endsIn_of_divides (hs : s.Running) (h : Divides i rs1 rs2)
    (huninit : ∀ r ∈ [rs1, rs2], s.Empty r → p 0x05#8)
    (hdivz : ∀ b, s.Holds rs2 b → b.ival s.cfg.w = 0 → p 0x01#8)
    (hk : ∀ a b, s.Holds rs1 a → s.Holds rs2 b → b.ival s.cfg.w ≠ 0 → EndsIn i s p) : EndsIn i s p := by
  obtain ⟨hreads, hzero⟩ := h
  refine endsIn_of_readsTwo hs hreads huninit fun a b ha hb => ?_
  by_cases hb0 : b.ival s.cfg.w = 0
  · exact endsIn_of_exec_eq (hzero s a b hs ha hb hb0) rfl (hdivz b hb hb0)
  · exact hk a b ha hb hb0

/-- A parsing command ends with RANGE (R277), as malformed text makes it, or with a register write. -/
theorem endsIn_of_parsesText {addr len : Addr} {malformed : State → State} (hs : s.Running)
    (h : ParsesText i rd addr len malformed d) (hrange : s.cfg.tbufBytes < addr.toNat + len.toNat → p 0x06#8)
    (hmalformed : addr.toNat + len.toNat ≤ s.cfg.tbufBytes → parseText s.cfg.w (textAt s addr len) = none →
      ∃ c d, (malformed s).rsp = some ⟨c, d⟩ ∧ p c)
    (hk : ∀ v, addr.toNat + len.toNat ≤ s.cfg.tbufBytes → parseText s.cfg.w (textAt s addr len) = some v →
      p 0x00#8 ∧ (fits s.cfg v.mag = false → p 0x03#8)) : EndsIn i s p := by
  rcases Nat.lt_or_ge s.cfg.tbufBytes (addr.toNat + len.toNat) with hlt | hle
  · exact endsIn_of_exec_eq (h.exec_of_lt hs hlt) rfl (hrange hlt)
  cases ht : parseText s.cfg.w (textAt s addr len) with
  | none =>
    obtain ⟨c, d, hrsp, hp⟩ := hmalformed hle ht
    exact endsIn_of_exec_eq (h.exec_of_malformed hs hle ht) hrsp hp
  | some v =>
    obtain ⟨hok, halloc⟩ := hk v hle ht
    exact endsIn_of_writeBack (h.exec_of_numeral hs hle ht) hok halloc

end

end Sys2Proof.Machine
end

section
/-! SUPPORT. Which commands can end with ALLOC (spec/60_exceptions.md R274): the result of the others is no longer than a
value that fits already, as the statement about each of them says. -/

namespace Sys2Proof.Machine

open Sys2Proof.Claims

variable {i : Instr} {s t : State}

/-- The commands whose result can be longer than their operands (R274). -/
def growingOps : List Op := [.ldi, .add, .sub, .inc, .dec, .mul, .pow, .shl, .parse, .parses]

theorem maxLimbs_ne_none_of_not_fits {c : Config} {m : List Nat} (h : fits c m = false) : c.maxLimbs ≠ none := by
  intro hnone
  simp [fits, hnone] at h

/-- ALLOC is the fault of a command with a destination, taken while HALT is 0. -/
theorem Effect.eq_alloc (h : Effect i s t) {d : BitVec 64} (hrsp : t.rsp = some ⟨0x03#8, d⟩) :
    s.Running ∧ i.dests ≠ [] ∧ i.op ≠ .drop ∧ t = s.takeFault (.alloc i.dests) := by
  cases h with
  | alloc hs hdests hdrop => exact ⟨hs, hdests, hdrop, rfl⟩
  | _ => cases hrsp

/-- A logic command writes what its operands' lengths leave room for (R216 to R218). -/
theorem endsIn_of_logic {cmd : Reg → Reg → Reg → Instr} {code : BitVec 8} {f : Nat → Nat → Nat}
    {sign : Bool → Bool → Bool} (h : Logic cmd code f sign) (hinv : s.Inv) (hs : s.Running) (rd rs1 rs2 : Reg)
    {p : BitVec 8 → Prop} (huninit : p 0x05#8) (hok : p 0x00#8) : EndsIn (cmd rd rs1 rs2) s p := by
  obtain ⟨-, hreads, hwrites⟩ := h rd rs1 rs2
  exact endsIn_of_readsTwo hs hreads (fun _ _ _ => huninit) fun a b ha hb =>
    endsIn_of_exec_eq (hwrites s a b hinv hs ha hb) rfl hok

/-- DIVMOD with one destination named twice, which no 96 bits decode to (R73, notes/assumptions/13.md). -/
theorem exec_divmod_same (hs : s.Running) (rd rs1 rs2 : Reg) :
    exec (.divmod rd rd rs1 rs2) s = .next (s.takeFault (.illcmd (encode (.divmod rd rd rs1 rs2)).1)) := by
  rw [exec, execDivmod, if_pos rfl, State.unlessHalted_running hs]

/-- With the invariant, ALLOC comes from a growing command under a finite `MAX_LIMBS` (R274). -/
theorem endsIn_alloc_growing (hinv : s.Inv) (hs : s.Running) (hdests : i.dests ≠ []) (hdrop : i.op ≠ .drop) :
    EndsIn i s fun c => c = 0x03#8 → i.op ∈ growingOps ∧ s.cfg.maxLimbs ≠ none := by
  have grows (hop : decide (i.op ∈ growingOps) = true) (m : List Nat) (hf : fits s.cfg m = false) :
      0x03#8 = 0x03#8 → i.op ∈ growingOps ∧ s.cfg.maxLimbs ≠ none := fun _ =>
    ⟨of_decide_eq_true hop, maxLimbs_ne_none_of_not_fits hf⟩
  cases i with
  | iszero | isneg | size | clz | ceq | cne | clt | cle | cgt | cge | format | tbw | tbr | rdsr | clrsr =>
    exact absurd rfl hdests
  | drop => exact absurd rfl hdrop
  | ldi rd imm => exact endsIn_of_writeBack (State.unlessHalted_running hs _) nofun (grows rfl _)
  | inc rd rs1 | dec rd rs1 | pow rd rs1 e | shl rd rs1 e =>
    exact endsIn_of_writeOne hs nofun nofun (grows rfl) fun _ => rfl
  | add rd rs1 rs2 | sub rd rs1 rs2 | mul rd rs1 rs2 =>
    exact endsIn_of_writeTwo hs nofun nofun (grows rfl) fun _ => rfl
  | parse rd addr len =>
    exact endsIn_of_parsesText hs (parsesText_parse rd addr len) nofun (fun _ _ => ⟨_, _, rfl, nofun⟩)
      fun v _ _ => ⟨nofun, grows rfl v.mag⟩
  | parses rd addr len =>
    exact endsIn_of_parsesText hs (parsesText_parses rd addr len) nofun (fun _ _ => ⟨_, _, rfl, nofun⟩)
      fun v _ _ => ⟨nofun, grows rfl v.mag⟩
  | mov rd rs1 =>
    obtain ⟨-, hreads, -, -, h⟩ := movAndAbsCopy rd rs1
    exact endsIn_of_readsOne hs hreads nofun fun v hv => endsIn_of_exec_eq (h s v hinv hs hv).1 rfl nofun
  | abs rd rs1 =>
    obtain ⟨-, -, -, hreads, h⟩ := movAndAbsCopy rd rs1
    exact endsIn_of_readsOne hs hreads nofun fun v hv => endsIn_of_exec_eq (h s v hinv hs hv).2.1 rfl nofun
  | neg rd rs1 =>
    obtain ⟨-, hreads, h⟩ := negNegates rd rs1
    exact endsIn_of_readsOne hs hreads nofun fun v hv => endsIn_of_exec_eq (h s v hinv hs hv) rfl nofun
  | shr rd rs1 n =>
    obtain ⟨-, -, -, hreads, h⟩ := shiftsScaleByPowersOfTwo rd rs1 n
    exact endsIn_of_readsOne hs hreads nofun fun v hv => endsIn_of_exec_eq (h s v hinv hs hv).2 rfl nofun
  | not rd rs1 =>
    obtain ⟨-, hreads, h⟩ := notComplementsLimbs rd rs1
    refine endsIn_of_readsOne hs hreads nofun fun v hv => ?_
    obtain ⟨htoggle, hkeep⟩ := h s v hinv hs hv
    cases hsign : s.cfg.cplSign
    · exact endsIn_of_exec_eq (htoggle hsign) rfl nofun
    · exact endsIn_of_exec_eq (hkeep hsign) rfl nofun
  | and rd rs1 rs2 => exact endsIn_of_logic logicActsOnSignAndMagnitude.1 hinv hs rd rs1 rs2 nofun nofun
  | or rd rs1 rs2 => exact endsIn_of_logic logicActsOnSignAndMagnitude.2.1 hinv hs rd rs1 rs2 nofun nofun
  | xor rd rs1 rs2 => exact endsIn_of_logic logicActsOnSignAndMagnitude.2.2 hinv hs rd rs1 rs2 nofun nofun
  | div rd rs1 rs2 =>
    obtain ⟨-, hdivides, -, -, h⟩ := divAndModTruncate rd rs1 rs2
    exact endsIn_of_divides hs hdivides nofun nofun fun a b ha hb hb0 =>
      endsIn_of_exec_eq (h s a b hinv hs ha hb hb0).1 rfl nofun
  | mod rd rs1 rs2 =>
    obtain ⟨-, -, -, hdivides, h⟩ := divAndModTruncate rd rs1 rs2
    exact endsIn_of_divides hs hdivides nofun nofun fun a b ha hb hb0 =>
      endsIn_of_exec_eq (h s a b hinv hs ha hb hb0).2 rfl nofun
  | divmod rd rd2 rs1 rs2 =>
    rcases eq_or_ne rd rd2 with rfl | hne
    · exact endsIn_of_exec_eq (exec_divmod_same hs rd rs1 rs2) rfl nofun
    · obtain ⟨-, hdistinct, -⟩ := divmodWritesQuotientAndRemainder rd rd2 rs1 rs2
      obtain ⟨hdivides, h⟩ := hdistinct hne
      exact endsIn_of_divides hs hdivides nofun nofun fun a b ha hb hb0 =>
        endsIn_of_exec_eq (h s a b hinv hs ha hb hb0) rfl nofun

/-- Settles O17: ALLOC is the one effect with its status, and only a growing command can have it. -/
theorem onlyGrowingCommandsTakeAlloc : Obligations.OnlyGrowingCommandsTakeAlloc := by
  intro s t i d hinv h hrsp
  obtain ⟨hs, hdests, hdrop, rfl⟩ := (effect_of_exec h).eq_alloc hrsp
  obtain ⟨hop, hmax⟩ := endsIn_alloc_growing hinv hs hdests hdrop _ _ _ h hrsp rfl
  cases hrsp
  exact ⟨hop, hmax, rfl, rfl⟩

end Sys2Proof.Machine
end

section
/-! SUPPORT. The order of the conditions (spec/60_exceptions.md R281), one rule per shape of command for a state whose
source registers all hold values. -/

namespace Sys2Proof.Machine

open Sys2Proof.Claims

section
variable {i : Instr} {s : State} {rd rs1 rs2 : Reg}

theorem not_empty_of_firstEmpty_eq_none {rs : List Reg} (h : firstEmpty s rs = none) : ∀ r ∈ rs, ¬s.Empty r := by
  induction rs with
  | nil => simp
  | cons r rs ih =>
    rcases empty_or_holds s r with he | ⟨v, hv⟩
    · cases (firstEmpty_cons_of_empty he rs).symm.trans h
    · rw [firstEmpty_cons_of_holds hv] at h
      refine List.forall_mem_cons.2 ⟨fun he => ?_, ih h⟩
      cases he.symm.trans hv

theorem holdsZero_of_holds {b : BigInt} (hb : s.Holds rs2 b) : holdsZero s rs2 = decide (b.ival s.cfg.w = 0) := by
  have hx : s.x[rs2] = some b := hb
  simp only [holdsZero, hx]

/-- A division whose sources hold values: DIVZ where the divisor is zero, else what `k` can end with (R271, R281). -/
theorem endsIn_of_takesDivision {k : State → BigInt → BigInt → State} (hs : s.Running) (h : TakesDivision i rs1 rs2 k)
    (hsrc : ∀ r ∈ [rs1, rs2], ¬s.Empty r)
    (hk : ∀ a b, exec i s = .next (k s a b) → EndsIn i s fun c => c = 0x00#8 ∨ c = 0x03#8) :
    EndsIn i s fun c => if holdsZero s rs2 then c = 0x01#8 else c = 0x00#8 ∨ c = 0x03#8 := by
  refine endsIn_of_divides hs h.divides (fun r hr he => absurd he (hsrc r hr)) (fun b hb hb0 => ?_)
    fun a b ha hb hb0 => ?_
  · rw [holdsZero_of_holds hb, decide_eq_true hb0]
    rfl
  · rw [holdsZero_of_holds hb, decide_eq_false hb0]
    exact hk a b (h.exec_eq hs ha hb hb0)

/-- TBW: RANGE, or OK (R239, R281). -/
theorem endsIn_tbw (hs : s.Running) (addr : Addr) (byte : Byte) : EndsIn (.tbw addr byte) s fun c =>
    c = if addr.toNat + 1 ≤ s.cfg.tbufBytes then 0x00#8 else 0x06#8 := by
  obtain ⟨hout, hin⟩ := (tbwStoresByte addr byte).2 s hs
  split
  · obtain ⟨t, ht, hrsp, -⟩ := hin (by assumption)
    exact endsIn_of_exec_eq ht (congrArg State.rsp hrsp) rfl
  · exact endsIn_of_exec_eq (hout (by omega)) rfl rfl

/-- TBR: RANGE, or OK (R240, R281). -/
theorem endsIn_tbr (hs : s.Running) (addr : Addr) : EndsIn (.tbr addr) s fun c =>
    c = if addr.toNat + 1 ≤ s.cfg.tbufBytes then 0x00#8 else 0x06#8 := by
  obtain ⟨hout, hin⟩ := (tbrReadsByte addr).2 s hs
  split
  · exact endsIn_of_exec_eq (hin (by assumption)) rfl rfl
  · exact endsIn_of_exec_eq (hout (by omega)) rfl rfl

/-- PARSE: RANGE, then FMT (R236, R281). -/
theorem endsIn_parse (hs : s.Running) (rd : Reg) (addr len : Addr) : EndsIn (.parse rd addr len) s fun c =>
    if s.cfg.tbufBytes < addr.toNat + len.toNat then c = 0x06#8
    else if parseText s.cfg.w (textAt s addr len) = none then c = 0x02#8
    else c = 0x00#8 ∨ c = 0x03#8 := by
  refine endsIn_of_parsesText hs (parsesText_parse rd addr len) (fun hlt => ?_)
    (fun hle hnone => ⟨_, _, rfl, ?_⟩) fun v hle hv => ?_
  · rw [if_pos hlt]
  · rw [if_neg (by omega), if_pos hnone]
  · rw [if_neg (by omega), if_neg (by simp [hv]), if_neg (by omega), if_neg (by simp [hv])]
    exact ⟨.inl rfl, fun _ => .inr rfl⟩

/-- PARSES: RANGE, and malformed text is no fault (R237, R281). -/
theorem endsIn_parses (hs : s.Running) (rd : Reg) (addr len : Addr) : EndsIn (.parses rd addr len) s fun c =>
    if s.cfg.tbufBytes < addr.toNat + len.toNat then c = 0x06#8 else c = 0x00#8 ∨ c = 0x03#8 := by
  refine endsIn_of_parsesText hs (parsesText_parses rd addr len) (fun hlt => ?_)
    (fun hle hnone => ⟨_, _, rfl, ?_⟩) fun v hle hv => ?_
  · rw [if_pos hlt]
  · rw [if_neg (by omega)]
    exact .inl rfl
  · rw [if_neg (by omega), if_neg (by omega)]
    exact ⟨.inl rfl, fun _ => .inr rfl⟩

/-- FORMAT of a register that holds a value: RANGE on the full length, or OK (R238, R281). -/
theorem endsIn_format (hs : s.Running) {rs1 : Reg} (addr : Addr) (hsrc : ∀ r ∈ [rs1], ¬s.Empty r) :
    EndsIn (.format rs1 addr) s fun c => c =
      if (stored (.format rs1 addr) s).1 + (stored (.format rs1 addr) s).2 ≤ s.cfg.tbufBytes then 0x00#8 else 0x06#8 := by
  obtain ⟨-, hreads, hformat⟩ := formatWritesNumeral rs1 addr
  refine endsIn_of_readsOne hs hreads (fun r hr he => absurd he (hsrc r hr)) fun v hv => ?_
  obtain ⟨hout, hin⟩ := hformat s v hs hv
  have hstored : stored (.format rs1 addr) s = (addr.toNat, (formatText s.cfg.w v).length) := by
    have hx : s.x[rs1] = some v := hv
    simp only [stored, hx]
  rw [hstored]
  split
  · obtain ⟨t, ht, hrsp, -⟩ := hin (by assumption)
    exact endsIn_of_exec_eq ht (congrArg State.rsp hrsp) rfl
  · exact endsIn_of_exec_eq (hout (by omega)) rfl rfl

/-- The commands with a fault of their own beside UNINIT and ALLOC (R271, R272, R277). -/
def faultingOps : List Op := [.divmod, .div, .mod, .parse, .parses, .format, .tbw, .tbr]

/-- Every other command whose sources hold values ends with OK or ALLOC. -/
theorem endsIn_ok_or_alloc (hs : s.Running) (hsrc : ∀ r ∈ i.sources, ¬s.Empty r)
    (hop : decide (i.op ∈ faultingOps) = false) : EndsIn i s fun c => c = 0x00#8 ∨ c = 0x03#8 := by
  have uninit (r : Reg) (hr : r ∈ i.sources) (he : s.Empty r) : 0x05#8 = 0x00#8 ∨ 0x05#8 = 0x03#8 :=
    absurd he (hsrc r hr)
  have ok : 0x00#8 = 0x00#8 ∨ 0x00#8 = 0x03#8 := .inl rfl
  have alloc (m : List Nat) (_ : fits s.cfg m = false) : 0x03#8 = 0x00#8 ∨ 0x03#8 = 0x03#8 := .inr rfl
  cases i with
  | ldi rd imm => exact endsIn_of_writeBack (State.unlessHalted_running hs _) ok (alloc _)
  | drop rd | clrsr mask => exact endsIn_of_exec_eq (State.unlessHalted_running hs _) rfl ok
  | rdsr => exact endsIn_of_exec_eq (exec_rdsr s) rfl ok
  | mov rd rs1 | abs rd rs1 | neg rd rs1 | inc rd rs1 | dec rd rs1 | not rd rs1 | pow rd rs1 e | shl rd rs1 e
  | shr rd rs1 e => exact endsIn_of_writeOne hs uninit ok alloc fun _ => rfl
  | iszero rs1 | isneg rs1 | size rs1 | clz rs1 => exact endsIn_of_respondOne hs uninit ok fun _ => rfl
  | add rd rs1 rs2 | sub rd rs1 rs2 | mul rd rs1 rs2 | and rd rs1 rs2 | or rd rs1 rs2 | xor rd rs1 rs2 =>
    exact endsIn_of_writeTwo hs uninit ok alloc fun _ => rfl
  | ceq rs1 rs2 | cne rs1 rs2 | clt rs1 rs2 | cle rs1 rs2 | cgt rs1 rs2 | cge rs1 rs2 =>
    exact endsIn_of_respondTwo hs uninit ok fun _ => rfl
  | divmod | div | mod | parse | parses | format | tbw | tbr => cases hop

end

/-- Settles O13: the halted test, the decoder and the sources in this order, then the one condition of the command's
shape. -/
theorem firstApplicableFaultIsReported : Obligations.FirstApplicableFaultIsReported := by
  intro s t word imm c d h hrsp
  split
  · rename_i hhalted
    obtain ⟨hhalt, hrdsr⟩ := hhalted
    cases (runCommand_halted hhalt hrdsr).symm.trans h
    cases hrsp
    rfl
  rename_i hnot
  cases hd : decode word imm with
  | error e =>
    have hs : s.Running := Bool.eq_false_iff.2 fun hhalt => hnot ⟨hhalt, by simp [hd]⟩
    rw [runCommand_of_decode_error hd, illegalCommand_running hs] at h
    cases h
    cases hrsp
    rfl
  | ok i =>
    rw [runCommand_of_decode_ok hd] at h
    obtain ⟨hwf, -⟩ := decode_eq_ok_iff_encode.1 hd
    rcases eq_or_ne i .rdsr with rfl | hi
    · cases h
      cases hrsp
      exact .inl rfl
    have hs : s.Running := Bool.eq_false_iff.2 fun hhalt => hnot ⟨hhalt, by simp [hd, hi]⟩
    dsimp only
    split
    · rename_i hsome
      obtain ⟨r, hr⟩ := Option.isSome_iff_exists.1 hsome
      cases (emptySourceTakesUninit s i r hwf hs hr).symm.trans h
      cases hrsp
      rfl
    rename_i hnone
    have hsrc := not_empty_of_firstEmpty_eq_none (Option.not_isSome_iff_eq_none.1 hnone)
    cases i with
    | tbw addr byte => exact endsIn_tbw hs addr byte t c d h hrsp
    | tbr addr => exact endsIn_tbr hs addr t c d h hrsp
    | parse rd addr len => exact endsIn_parse hs rd addr len t c d h hrsp
    | parses rd addr len => exact endsIn_parses hs rd addr len t c d h hrsp
    | format rs1 addr => exact endsIn_format hs addr hsrc t c d h hrsp
    | divmod rd rd2 rs1 rs2 =>
      have hne : rd ≠ rd2 := by simpa [Instr.WellFormed, Instr.wellFormed] using hwf
      exact endsIn_of_takesDivision hs (takesDivision_divmod hne rs1 rs2) hsrc
        (fun _ _ he => endsIn_of_writeBack2 he (.inl rfl) (.inr rfl)) t c d h hrsp
    | div rd rs1 rs2 =>
      exact endsIn_of_takesDivision hs (takesDivision_div rd rs1 rs2) hsrc
        (fun _ _ he => endsIn_of_writeBack he (.inl rfl) fun _ => .inr rfl) t c d h hrsp
    | mod rd rs1 rs2 =>
      exact endsIn_of_takesDivision hs (takesDivision_mod rd rs1 rs2) hsrc
        (fun _ _ he => endsIn_of_writeBack he (.inl rfl) fun _ => .inr rfl) t c d h hrsp
    | _ => exact endsIn_ok_or_alloc hs hsrc rfl t c d h hrsp

end Sys2Proof.Machine
end

section
/-! SUPPORT. What a reset leaves, at the command level and at the ports (spec/70_reset_and_hazards.md R300, R301). -/

namespace Sys2Proof.Machine

variable {s : State}

theorem takeReset_empty (r : Reg) : s.takeReset.Empty r := by
  rw [State.Empty, State.takeReset_x, getElem_replicate_reg]

/-- With no byte written since the reset, every address reads as its draw (R301). -/
theorem takeReset_tbufByte (a : Nat) : s.takeReset.tbufByte a = Config.freeTbufByte (s.resets + 1) a := rfl

theorem step_of_reset_offered {rest : List HostEvent} (h : s.input = .reset :: rest) :
    step s = .next ({ s with input := rest } : State).takeReset := by
  rw [step_of_input_cons h, runEvent_reset]

/-- While `rst` is 1 CORE is neither ready nor answering, in every phase. -/
theorem Block.outputs_reset (b : Block) : b.outputs true = ⟨false, false, none⟩ := by
  simp only [Block.outputs]

/-- Settles O8: the offered reset is taken and leaves the fields of `State.takeReset`; at the ports the edge takes the
same reset from every phase and leaves the block idle. -/
theorem resetTakesResetState : Obligations.ResetTakesResetState := by
  refine ⟨fun s rest hinput => ?_, fun b i hrst => ?_⟩
  · exact ⟨_, step_of_reset_offered hinput, takeReset_empty, State.takeReset_sr _, State.takeReset_rsp _,
      State.takeReset_cfg _, State.takeReset_input _, takeReset_tbufByte⟩
  · rw [Block.outputs_reset, Block.clockEdge_reset b hrst, Block.outputs_idle rfl]
    exact ⟨rfl, rfl, rfl, rfl, rfl⟩

end Sys2Proof.Machine
end
